-- ==== Sys2Proof/Word.lean ====
section
/-! DEFINITION. The word types of the CORE (20_memory.md R52) and the type of binary32 data (00_scope.md R17).
The arithmetic on binary32 data stands in Sys2Proof/Machine/Float.lean. -/

namespace Sys2Proof

/-- A word: the unit of every transfer (20_memory.md R52) and of every register (00_scope.md R16). -/
abbrev Word := BitVec 32

/-- A byte, as a byte link carries it (20_memory.md R53). -/
abbrev Byte := BitVec 8

/-- A binary32 datum (00_scope.md R17), unpacked. Every finite binary32 value is a whole multiple of 2^-149, the
least positive one, so a finite datum is a sign and a natural number of those units. -/
inductive Fp where
  /-- A NaN, with its bit pattern. -/
  | nan (bits : Word)
  /-- An infinity; `neg` is its sign. -/
  | inf (neg : Bool)
  /-- The value `mag` · 2^-149, negated when `neg`; both zeros are `mag = 0`. -/
  | fin (neg : Bool) (mag : Nat)
deriving DecidableEq, Repr, Inhabited

/-- The binary32 operations whose result can be a NaN (00_scope.md R18). -/
inductive FpOp where
  | add | sub | mul | div | floor
deriving DecidableEq, Repr, Inhabited

end Sys2Proof
end

