-- ==== Sys2Proof/Config.lean ====
section
/-! DEFINITION. What an implementation fixes: the parameters of 00_scope.md R7 to R15, and the free values, which
are opaque and have no body. -/

namespace Sys2Proof.Config

/-- The identity word (00_scope.md R2). -/
def identity : Word := 0x524E0007#32

/-- MAXN_LIMIT, the upper bound of maxN (00_scope.md R15). -/
def maxnLimit : Nat := 64

/-- MAXN_DEFAULT, the power-on value of maxN (00_scope.md R15). -/
def maxnDefault : Nat := 20

/-- The bits of a quiet NaN that IEEE 754 leaves open: its sign and its payload. -/
structure QuietNaN where
  neg     : Bool
  payload : BitVec 22
deriving DecidableEq, Repr, Inhabited

/-- The bit pattern of a quiet NaN (20_memory.md R52 gives the layout). -/
def quietBits (q : QuietNaN) : Word := BitVec.ofBool q.neg ++ (0x1FF#9 ++ q.payload)

/-- A finite binary32 pattern of magnitude below 2^115: a greater biased exponent cannot be written. That the open
table keeps a limit is 10_state.md R31's and 42_oscillator.md R137's; this limit is a DESIGN CHOICE
(notes/assumptions/5.md). -/
structure ResidualBits where
  neg  : Bool
  exp  : Fin 242
  frac : BitVec 23
deriving DecidableEq, Repr, Inhabited

/-- The bit pattern of a residual (20_memory.md R52). -/
def residualBits (f : ResidualBits) : Word :=
  BitVec.ofBool f.neg ++ (BitVec.ofNat 8 f.exp.val ++ f.frac)

/-- FREE VALUE (DESIGN CHOICE, notes/assumptions/4.md). The NaN an operation of 00_scope.md R18 delivers for these
operands. The spec says only that the operations are those of IEEE 754, which leaves these bits open. -/
opaque quietNaN : FpOp → Fp → Fp → QuietNaN

/-- FREE VALUE (OPEN in the spec: 00_scope.md R11, notes/assumptions/5.md). Entry k of the minBLEP residual table of
the reference CORE, for k < L*O. -/
opaque residual : Nat → ResidualBits

/-- Where the residual table E comes from (00_scope.md R11): the OPEN table, or one a model is given. -/
inductive Table where
  /-- The table the spec leaves OPEN: the free values `residual`, then E[L*O] = +0.0. -/
  | unspecified
  /-- A given table, entry k at position k. -/
  | listed (entries : List Word)
deriving DecidableEq, Repr, Inhabited

/-- The instance counts (00_scope.md R7). -/
structure Counts where
  ned   : Nat
  nosc  : Nat
  ndiv  : Nat
  nconv : Nat
deriving DecidableEq, Repr, Inhabited

/-- The other parameters a model takes as an argument (00_scope.md R8 to R14), binary32 ones as bit patterns. -/
structure Params where
  /-- TH_LO (R8). -/
  thLo       : Word
  /-- TH_HI (R8). -/
  thHi       : Word
  /-- INC_MAX (R9). -/
  incMax     : Word
  /-- L, the correction window in samples (R10). -/
  win        : Nat
  /-- O, the oversampling factor of the table (R10). -/
  oversamp   : Nat
  /-- E, the residual table (R11). -/
  table      : Table
  /-- OSC_SCALE (R12). -/
  oscScale   : Word
  /-- DIV_LEVEL (R13). -/
  divLevel   : Word
  /-- CONV_GAIN (R14). -/
  convGain   : Word
  /-- CONV_OFFSET (R14). -/
  convOffset : Word
deriving DecidableEq, Repr, Inhabited

/-- One instance of each class (00_scope.md R7, the defaults). -/
def defaultCounts : Counts := { ned := 1, nosc := 1, ndiv := 1, nconv := 1 }

/-- The reference CORE's parameters: the defaults of 00_scope.md R8, R9, R12 to R14; L and O at the values R10
suggests (DESIGN CHOICE, notes/assumptions/6.md); the table E left OPEN (R11). -/
def defaultParams : Params where
  thLo       := 0x00000000#32
  thHi       := 0x3F800000#32
  incMax     := 0x3EB33333#32
  win        := 32
  oversamp   := 16
  table      := .unspecified
  oscScale   := 0x40A00000#32
  divLevel   := 0x40A00000#32
  convGain   := 0x41200000#32
  convOffset := 0x40A00000#32

end Sys2Proof.Config
end

