-- ==== Sys2Proof/Machine/State.lean ====
section
/-! DEFINITION. The state of the CORE (10_state.md), its power-on value, and the reasons a step can stop. -/

namespace Sys2Proof.Machine

/-- A step of the CORE never stops with a fault: every error is a decode error that is latched while the machine
goes on (60_exceptions.md R210, R213, R216). The type has no constructor, so no meaning can raise one. -/
inductive Fault
deriving DecidableEq, Repr

/-- Why a step has no meaning. -/
inductive Refusal where
  /-- Raised only by an arm of `exec` for an instruction that has no meaning yet; no arm raises it now. Safe. -/
  | notModelled (mnemonic : String)
deriving DecidableEq, Repr

/-- An EdgeDetector (10_state.md R25 to R27). -/
structure EdState where
  /-- The current classification, true = high (R25). -/
  cur   : Bool
  /-- The classification before the latest set (R26). -/
  prev  : Bool
  /-- False from a reset until the first set (R27). -/
  armed : Bool
deriving DecidableEq, Repr

/-- A BandLimitedOscillator (10_state.md R29 to R32); binary32 fields as bit patterns. -/
structure OscState where
  /-- The phase (R29). -/
  phase : Word
  /-- The frequency in Hz (R30). -/
  freq  : Word
  /-- The pending corrections of the square output (R31; that every entry is finite: notes/assumptions/10.md). -/
  bsq   : List Word
  /-- The pending corrections of the saw output (R31; notes/assumptions/10.md). -/
  bsaw  : List Word
  /-- The read index of `bsq` (R32). -/
  psq   : Nat
  /-- The read index of `bsaw` (R32). -/
  psaw  : Nat
deriving DecidableEq, Repr

/-- A FrequencyDivider (10_state.md R33 to R38); int32 fields as two's-complement words. -/
structure DivState where
  /-- The edge counter (R33). -/
  count : Word
  /-- The divisor N (R34). -/
  n     : Word
  /-- The divisor's ceiling maxN (R35). -/
  maxN  : Word
  /-- The count mode: false = 0, count-down; true = 1, count-up (R36). -/
  mode  : Bool
  /-- The output level (R37). -/
  phase : Bool
  /-- The owned detector (R38). -/
  ed    : EdState
deriving DecidableEq, Repr

/-- A WaveformConverter (10_state.md R39, R40). -/
structure ConvState where
  /-- The phase, a binary32 pattern (R39). -/
  phase : Word
  /-- The owned detector (R40). -/
  ed    : EdState
deriving DecidableEq, Repr

/-- The whole machine. The instance counts NED, NOSC, NDIV and NCONV (00_scope.md R7) are the lengths of the four
lists. `params`, `link` and `results` are the model's own fields (notes/assumptions/1.md, 7.md). -/
structure State where
  /-- The implementation parameters (00_scope.md R8 to R14); no step writes them. -/
  params  : Config.Params
  /-- STATUS (R22). -/
  status  : Word
  /-- ERRCMD (R23). -/
  errcmd  : Word
  /-- The standalone detectors ED[k]. -/
  eds     : List EdState
  /-- The oscillators OSC[k]. -/
  oscs    : List OscState
  /-- The dividers DIV[k]. -/
  divs    : List DivState
  /-- The converters CONV[k]. -/
  convs   : List ConvState
  /-- The bytes the host has sent and the CORE has not taken yet, oldest first (20_memory.md R53, R54). -/
  link    : List Byte
  /-- The result words returned to the host so far, oldest first (20_memory.md R57). -/
  results : List Word
deriving DecidableEq, Repr

/-- NED, NOSC, NDIV and NCONV (00_scope.md R7). -/
def State.counts (s : State) : Config.Counts :=
  { ned := s.eds.length, nosc := s.oscs.length, ndiv := s.divs.length, nconv := s.convs.length }

/-! ### Power-on values (70_reset_and_hazards.md R241) -/

/-- A detector at power-on (10_state.md R25 to R27). -/
def EdState.powerOn : EdState := { cur := false, prev := false, armed := false }

/-- An oscillator with window `win` at power-on (10_state.md R29 to R32). -/
def OscState.powerOn (win : Nat) : OscState where
  phase := 0x00000000#32
  freq  := 0x00000000#32
  bsq   := List.replicate win 0x00000000#32
  bsaw  := List.replicate win 0x00000000#32
  psq   := 0
  psaw  := 0

/-- A divider at power-on (10_state.md R33 to R38): count = -1, N = 0, maxN = 20. -/
def DivState.powerOn : DivState where
  count := 0xFFFFFFFF#32
  n     := 0x00000000#32
  maxN  := BitVec.ofNat 32 Config.maxnDefault
  mode  := false
  phase := false
  ed    := EdState.powerOn

/-- A converter at power-on (10_state.md R39, R40). -/
def ConvState.powerOn : ConvState := { phase := 0x00000000#32, ed := EdState.powerOn }

/-- A CORE with these instance counts and parameters at power-on (70_reset_and_hazards.md R241), nothing sent by
the host yet. -/
def State.powerOn (c : Config.Counts) (p : Config.Params) : State where
  params  := p
  status  := 0x00000000#32
  errcmd  := 0x00000000#32
  eds     := List.replicate c.ned EdState.powerOn
  oscs    := List.replicate c.nosc (OscState.powerOn p.win)
  divs    := List.replicate c.ndiv DivState.powerOn
  convs   := List.replicate c.nconv ConvState.powerOn
  link    := []
  results := []

/-- The reference CORE right after reset. -/
def State.reset : State := State.powerOn Config.defaultCounts Config.defaultParams

end Sys2Proof.Machine
end

