-- ==== Sys2Proof/Machine/Flags.lean ====
section
/-! DEFINITION. The edge flags, the CORE's only condition flags: derived from a detector's prev and cur, never
stored (10_state.md R28). -/

namespace Sys2Proof.Machine

/-- rising: low to high (R28). -/
def EdState.rising (e : EdState) : Bool := !e.prev && e.cur

/-- trailing: high to low (R28). -/
def EdState.trailing (e : EdState) : Bool := e.prev && !e.cur

/-- any: rising or trailing (R28). -/
def EdState.anyEdge (e : EdState) : Bool := e.rising || e.trailing

/-- The FLAGS register: bit 0 rising, bit 1 trailing, bit 2 any, bits 31:3 zero (10_state.md R42). -/
def EdState.flagsWord (e : EdState) : Word :=
  0#29 ++ (BitVec.ofBool e.anyEdge ++ (BitVec.ofBool e.trailing ++ BitVec.ofBool e.rising))

end Sys2Proof.Machine
end

