-- ==== Sys2Proof/Syntax.lean ====
section
/-! DEFINITION. The 22 commands of 30_encoding.md R77, one constructor for each row of the opcode table. A field
`k` is IDX and a field `reg` is REG of the command word (R70, R73); a `Word` field is an operand word (R74). -/

namespace Sys2Proof

/-- A command with its operand words. -/
inductive Instr where
  /-- CORE.NOP (45_core_control.md R200). -/
  | coreNop
  /-- CORE.RESET (45_core_control.md R201). -/
  | coreReset
  /-- CORE.GET reg (45_core_control.md R202). -/
  | coreGet (reg : Byte)
  /-- ED.SET k, x (41_edge_detector.md R103). -/
  | edSet (k : Byte) (x : Word)
  /-- ED.RESET k (41_edge_detector.md R104). -/
  | edReset (k : Byte)
  /-- ED.RISING k (41_edge_detector.md R105). -/
  | edRising (k : Byte)
  /-- ED.TRAILING k (41_edge_detector.md R106). -/
  | edTrailing (k : Byte)
  /-- ED.ANY k (41_edge_detector.md R107). -/
  | edAny (k : Byte)
  /-- ED.GET k, reg (41_edge_detector.md R108). -/
  | edGet (k reg : Byte)
  /-- OSC.SETF k, f (42_oscillator.md R129). -/
  | oscSetf (k : Byte) (f : Word)
  /-- OSC.PROC k, dt (42_oscillator.md R130). -/
  | oscProc (k : Byte) (dt : Word)
  /-- OSC.RESET k (42_oscillator.md R131). -/
  | oscReset (k : Byte)
  /-- OSC.GET k, reg (42_oscillator.md R132). -/
  | oscGet (k reg : Byte)
  /-- DIV.PROC k, clk (43_divider.md R152). -/
  | divProc (k : Byte) (clk : Word)
  /-- DIV.SETN k, n (43_divider.md R153). -/
  | divSetn (k : Byte) (n : Word)
  /-- DIV.SETMAXN k, m (43_divider.md R154). -/
  | divSetmaxn (k : Byte) (m : Word)
  /-- DIV.SETMODE k, mode (43_divider.md R155). -/
  | divSetmode (k : Byte) (mode : Word)
  /-- DIV.RESET k (43_divider.md R156). -/
  | divReset (k : Byte)
  /-- DIV.GET k, reg (43_divider.md R157). -/
  | divGet (k reg : Byte)
  /-- CONV.TOSAW k, value, freq, dt (44_converter.md R181). -/
  | convTosaw (k : Byte) (value freq dt : Word)
  /-- CONV.RESET k (44_converter.md R182). -/
  | convReset (k : Byte)
  /-- CONV.GET k, reg (44_converter.md R183). -/
  | convGet (k reg : Byte)
deriving DecidableEq, Repr

end Sys2Proof
end

