-- ==== Sys2Proof/Decode.lean ====
section
/-! DEFINITION. From the bytes of the host link to a command, and back (30_encoding.md R70 to R81; 20_memory.md R52
to R54). Decoding is total: every command word is an instruction or an error cause by name. -/

namespace Sys2Proof

/-- The error causes (60_exceptions.md R211); code 0, no error, is no cause. -/
inductive Cause where
  /-- Bits 31:28 of the command word are 5 or more. -/
  | illegalClass
  /-- The class has no such OP. -/
  | illegalOp
  /-- A reserved field is not 0. -/
  | reserved
  /-- IDX names no instance. -/
  | badIndex
  /-- The REG of a GET is not in the class's table. -/
  | badReg
deriving DecidableEq, Repr

/-- The cause code written to STATUS.CAUSE (60_exceptions.md R211). -/
def Cause.code : Cause → Word
  | .illegalClass => 1#32
  | .illegalOp    => 2#32
  | .reserved     => 3#32
  | .badIndex     => 4#32
  | .badReg       => 5#32

/-! ### Fields of a command word (30_encoding.md R70) -/

/-- CLASS and OP together, bits 31:24. -/
def fieldOp (w : Word) : Byte := w.extractLsb' 24 8

/-- CLASS, bits 31:28. -/
def fieldClass (w : Word) : BitVec 4 := w.extractLsb' 28 4

/-- IDX, bits 23:16. -/
def fieldIdx (w : Word) : Byte := w.extractLsb' 16 8

/-- RSV, bits 15:8. -/
def fieldRsv (w : Word) : Byte := w.extractLsb' 8 8

/-- REG, bits 7:0. -/
def fieldReg (w : Word) : Byte := w.extractLsb' 0 8

/-! ### Lengths (30_encoding.md R71, R72, R77) -/

/-- K, the number of operand words, from bits 31:24 alone; 0 where (CLASS, OP) is not assigned (R72). -/
def operandCount (w : Word) : Nat :=
  match (fieldOp w).toNat with
  | 0x10 => 1   -- ED.SET
  | 0x20 => 1   -- OSC.SETF
  | 0x21 => 1   -- OSC.PROC
  | 0x30 => 1   -- DIV.PROC
  | 0x31 => 1   -- DIV.SETN
  | 0x32 => 1   -- DIV.SETMAXN
  | 0x33 => 1   -- DIV.SETMODE
  | 0x40 => 3   -- CONV.TOSAW
  | _    => 0

/-- R, the number of result words, from bits 31:24 alone; 0 where (CLASS, OP) is not assigned (R72). -/
def resultCount (w : Word) : Nat :=
  match (fieldOp w).toNat with
  | 0x0F => 1   -- CORE.GET
  | 0x12 => 1   -- ED.RISING
  | 0x13 => 1   -- ED.TRAILING
  | 0x14 => 1   -- ED.ANY
  | 0x1F => 1   -- ED.GET
  | 0x21 => 2   -- OSC.PROC
  | 0x2F => 1   -- OSC.GET
  | 0x30 => 2   -- DIV.PROC
  | 0x3F => 1   -- DIV.GET
  | 0x40 => 1   -- CONV.TOSAW
  | 0x4F => 1   -- CONV.GET
  | _    => 0

/-! ### One command word (30_encoding.md R77 to R80; the check order is 60_exceptions.md R212) -/

/-- What a command word with its operand words says. -/
inductive Decoded where
  /-- The word matches the row of this instruction. -/
  | instr (i : Instr)
  /-- The word matches no row; the first failing check. -/
  | illegal (c : Cause)
deriving DecidableEq, Repr

/-- A non-GET command of class 1 to 4: RSV and REG must be 0 (R78). -/
def decodePlain (w : Word) (i : Instr) : Decoded :=
  if fieldRsv w ≠ 0#8 ∨ fieldReg w ≠ 0#8 then .illegal .reserved else .instr i

/-- A GET of class 1 to 4: RSV must be 0 (R78). -/
def decodeGet (w : Word) (i : Instr) : Decoded :=
  if fieldRsv w ≠ 0#8 then .illegal .reserved else .instr i

/-- Class 0: an IDX other than 0 is BAD_INDEX, checked after the reserved fields (R79, R212). -/
def decodeBlock (w : Word) (d : Decoded) : Decoded :=
  match d with
  | .illegal c => .illegal c
  | .instr i   => if fieldIdx w ≠ 0#8 then .illegal .badIndex else .instr i

/-- No row has bits 31:24 of `w`: a reserved class, or an OP the class does not assign (R79). -/
def decodeUnassigned (w : Word) : Decoded :=
  if 5 ≤ (fieldClass w).toNat then .illegal .illegalClass else .illegal .illegalOp

/-- The command word `w` with its operand words in order (R71); operands the row does not take are not read. -/
def decode (w : Word) (operands : List Word) : Decoded :=
  let k   := fieldIdx w
  let reg := fieldReg w
  let x   := operands.getD 0 0#32
  let y   := operands.getD 1 0#32
  let z   := operands.getD 2 0#32
  match (fieldOp w).toNat with
  | 0x00 => decodeBlock w (decodePlain w .coreNop)
  | 0x01 => decodeBlock w (decodePlain w .coreReset)
  | 0x0F => decodeBlock w (decodeGet w (.coreGet reg))
  | 0x10 => decodePlain w (.edSet k x)
  | 0x11 => decodePlain w (.edReset k)
  | 0x12 => decodePlain w (.edRising k)
  | 0x13 => decodePlain w (.edTrailing k)
  | 0x14 => decodePlain w (.edAny k)
  | 0x1F => decodeGet w (.edGet k reg)
  | 0x20 => decodePlain w (.oscSetf k x)
  | 0x21 => decodePlain w (.oscProc k x)
  | 0x22 => decodePlain w (.oscReset k)
  | 0x2F => decodeGet w (.oscGet k reg)
  | 0x30 => decodePlain w (.divProc k x)
  | 0x31 => decodePlain w (.divSetn k x)
  | 0x32 => decodePlain w (.divSetmaxn k x)
  | 0x33 => decodePlain w (.divSetmode k x)
  | 0x34 => decodePlain w (.divReset k)
  | 0x3F => decodeGet w (.divGet k reg)
  | 0x40 => decodePlain w (.convTosaw k x y z)
  | 0x41 => decodePlain w (.convReset k)
  | 0x4F => decodeGet w (.convGet k reg)
  | _    => decodeUnassigned w

/-! ### The host link, byte by byte (20_memory.md R53, R54) -/

/-- The word four bytes carry, least significant byte first (R53). -/
def wordOfBytes (b0 b1 b2 b3 : Byte) : Word := b3 ++ (b2 ++ (b1 ++ b0))

/-- The four bytes that carry a word, least significant first (R53). -/
def wordBytes (w : Word) : List Byte :=
  [w.extractLsb' 0 8, w.extractLsb' 8 8, w.extractLsb' 16 8, w.extractLsb' 24 8]

/-- The next whole word of the link; none while its four bytes are not all there (R54). -/
def takeWord : List Byte → Option (Word × List Byte)
  | b0 :: b1 :: b2 :: b3 :: rest => some (wordOfBytes b0 b1 b2 b3, rest)
  | _ => none

/-- The next `n` whole words of the link. -/
def takeWords : Nat → List Byte → Option (List Word × List Byte)
  | 0, link => some ([], link)
  | n + 1, link =>
    match takeWord link with
    | none => none
    | some (w, link') =>
      match takeWords n link' with
      | none => none
      | some (ws, rest) => some (w :: ws, rest)

/-- What stands at the front of the link. -/
inductive Fetched where
  /-- The next command is not wholly there: the CORE waits (R54). -/
  | waiting
  /-- The next command, and the link after its 1 + K words. -/
  | command (i : Instr) (rest : List Byte)
  /-- A command word that matches no row, its cause, and the link after its 1 + K words. -/
  | illegal (c : Cause) (w : Word) (rest : List Byte)
deriving DecidableEq, Repr

/-- Read the next command, 1 + K words long (30_encoding.md R72). -/
def fetch (link : List Byte) : Fetched :=
  match takeWord link with
  | none => .waiting
  | some (w, link') =>
    match takeWords (operandCount w) link' with
    | none => .waiting
    | some (operands, rest) =>
      match decode w operands with
      | .instr i   => .command i rest
      | .illegal c => .illegal c w rest

/-! ### The encoder, from the same table (30_encoding.md R70, R77) -/

/-- A command word: bits 31:24, IDX, RSV = 0, REG. -/
def header (op k reg : Byte) : Word := op ++ (k ++ (0#8 ++ reg))

/-- The command word of an instruction. -/
def commandWord : Instr → Word
  | .coreNop           => header 0x00#8 0#8 0#8
  | .coreReset         => header 0x01#8 0#8 0#8
  | .coreGet reg       => header 0x0F#8 0#8 reg
  | .edSet k _         => header 0x10#8 k 0#8
  | .edReset k         => header 0x11#8 k 0#8
  | .edRising k        => header 0x12#8 k 0#8
  | .edTrailing k      => header 0x13#8 k 0#8
  | .edAny k           => header 0x14#8 k 0#8
  | .edGet k reg       => header 0x1F#8 k reg
  | .oscSetf k _       => header 0x20#8 k 0#8
  | .oscProc k _       => header 0x21#8 k 0#8
  | .oscReset k        => header 0x22#8 k 0#8
  | .oscGet k reg      => header 0x2F#8 k reg
  | .divProc k _       => header 0x30#8 k 0#8
  | .divSetn k _       => header 0x31#8 k 0#8
  | .divSetmaxn k _    => header 0x32#8 k 0#8
  | .divSetmode k _    => header 0x33#8 k 0#8
  | .divReset k        => header 0x34#8 k 0#8
  | .divGet k reg      => header 0x3F#8 k reg
  | .convTosaw k _ _ _ => header 0x40#8 k 0#8
  | .convReset k       => header 0x41#8 k 0#8
  | .convGet k reg     => header 0x4F#8 k reg

/-- The operand words of an instruction, in the order of 30_encoding.md R77. -/
def operandWords : Instr → List Word
  | .edSet _ x                    => [x]
  | .oscSetf _ f                  => [f]
  | .oscProc _ dt                 => [dt]
  | .divProc _ clk                => [clk]
  | .divSetn _ n                  => [n]
  | .divSetmaxn _ m               => [m]
  | .divSetmode _ mode            => [mode]
  | .convTosaw _ value freq dt    => [value, freq, dt]
  | .coreNop | .coreReset | .coreGet _ => []
  | .edReset _ | .edRising _ | .edTrailing _ | .edAny _ | .edGet _ _ => []
  | .oscReset _ | .oscGet _ _     => []
  | .divReset _ | .divGet _ _     => []
  | .convReset _ | .convGet _ _   => []

/-- The words of an instruction: its command word, then its operand words (R71). -/
def encode (i : Instr) : List Word := commandWord i :: operandWords i

/-- The bytes that carry an instruction over the link (20_memory.md R53). -/
def encodeBytes (i : Instr) : List Byte := (encode i).flatMap wordBytes

/-! ### The opcode table (30_encoding.md R77) -/

/-- A row of the opcode table: a word matches it when `word &&& mask = pattern`. -/
structure OpcodeRow where
  mnemonic : String
  pattern  : Word
  mask     : Word
deriving DecidableEq, Repr

/-- The match and mask columns of 30_encoding.md R77, in the table's order. -/
def opcodeRows : List OpcodeRow :=
  [ ⟨"CORE.NOP",    0x00000000#32, 0xFFFFFFFF#32⟩,
    ⟨"CORE.RESET",  0x01000000#32, 0xFFFFFFFF#32⟩,
    ⟨"CORE.GET",    0x0F000000#32, 0xFFFFFF00#32⟩,
    ⟨"ED.SET",      0x10000000#32, 0xFF00FFFF#32⟩,
    ⟨"ED.RESET",    0x11000000#32, 0xFF00FFFF#32⟩,
    ⟨"ED.RISING",   0x12000000#32, 0xFF00FFFF#32⟩,
    ⟨"ED.TRAILING", 0x13000000#32, 0xFF00FFFF#32⟩,
    ⟨"ED.ANY",      0x14000000#32, 0xFF00FFFF#32⟩,
    ⟨"ED.GET",      0x1F000000#32, 0xFF00FF00#32⟩,
    ⟨"OSC.SETF",    0x20000000#32, 0xFF00FFFF#32⟩,
    ⟨"OSC.PROC",    0x21000000#32, 0xFF00FFFF#32⟩ ]
  ++
  [ ⟨"OSC.RESET",   0x22000000#32, 0xFF00FFFF#32⟩,
    ⟨"OSC.GET",     0x2F000000#32, 0xFF00FF00#32⟩,
    ⟨"DIV.PROC",    0x30000000#32, 0xFF00FFFF#32⟩,
    ⟨"DIV.SETN",    0x31000000#32, 0xFF00FFFF#32⟩,
    ⟨"DIV.SETMAXN", 0x32000000#32, 0xFF00FFFF#32⟩,
    ⟨"DIV.SETMODE", 0x33000000#32, 0xFF00FFFF#32⟩,
    ⟨"DIV.RESET",   0x34000000#32, 0xFF00FFFF#32⟩,
    ⟨"DIV.GET",     0x3F000000#32, 0xFF00FF00#32⟩,
    ⟨"CONV.TOSAW",  0x40000000#32, 0xFF00FFFF#32⟩,
    ⟨"CONV.RESET",  0x41000000#32, 0xFF00FFFF#32⟩,
    ⟨"CONV.GET",    0x4F000000#32, 0xFF00FF00#32⟩ ]

/-- The word matches the row (R77). -/
def OpcodeRow.matchesWord (r : OpcodeRow) (w : Word) : Bool := w &&& r.mask == r.pattern

/-- The mnemonic of an instruction (R77). -/
def mnemonicOf : Instr → String
  | .coreNop           => "CORE.NOP"
  | .coreReset         => "CORE.RESET"
  | .coreGet _         => "CORE.GET"
  | .edSet _ _         => "ED.SET"
  | .edReset _         => "ED.RESET"
  | .edRising _        => "ED.RISING"
  | .edTrailing _      => "ED.TRAILING"
  | .edAny _           => "ED.ANY"
  | .edGet _ _         => "ED.GET"
  | .oscSetf _ _       => "OSC.SETF"
  | .oscProc _ _       => "OSC.PROC"
  | .oscReset _        => "OSC.RESET"
  | .oscGet _ _        => "OSC.GET"
  | .divProc _ _       => "DIV.PROC"
  | .divSetn _ _       => "DIV.SETN"
  | .divSetmaxn _ _    => "DIV.SETMAXN"
  | .divSetmode _ _    => "DIV.SETMODE"
  | .divReset _        => "DIV.RESET"
  | .divGet _ _        => "DIV.GET"
  | .convTosaw _ _ _ _ => "CONV.TOSAW"
  | .convReset _       => "CONV.RESET"
  | .convGet _ _       => "CONV.GET"

/-! ### The host's question about one table word -/

/-- The longest command: CONV.TOSAW, one command word and three operand words. -/
def longestBytes : Nat := 16

/-- The bytes of an instruction whose bits are the low `nbits` of `w`, zero above them, least significant byte
first (20_memory.md R53), up to the longest command. -/
def tableBytes (nbits w : Nat) : List Byte :=
  (List.range longestBytes).map fun i => BitVec.ofNat 8 (w % 2 ^ nbits / 2 ^ (8 * i))

/-- The instruction the decoder reads from a table word; none where it rejects it. -/
def decodeTableWord (nbits w : Nat) : Option Instr :=
  match fetch (tableBytes nbits w) with
  | .command i _   => some i
  | .waiting       => none
  | .illegal _ _ _ => none

end Sys2Proof
end

