-- ==== Sys2Proof/Machine/Float.lean ====
section
/-! DEFINITION. IEEE 754 binary32 arithmetic (00_scope.md R18; the layout is 20_memory.md R52). Every operation
computes the exact result on integers and rounds it once, to nearest, ties to even. The points IEEE 754 fixes and
the spec does not repeat are in notes/assumptions/13.md. -/

namespace Sys2Proof

/-! ### Bit patterns -/

/-- The datum a bit pattern stands for (20_memory.md R52). -/
def Fp.ofBits (w : Word) : Fp :=
  let neg  := w.getLsbD 31
  let exp  := (w.extractLsb' 23 8).toNat
  let frac := (w.extractLsb' 0 23).toNat
  if exp = 255 then
    if frac = 0 then .inf neg else .nan w
  else if exp = 0 then .fin neg frac
  else .fin neg ((2 ^ 23 + frac) * 2 ^ (exp - 1))

/-- Bits 30:0 of the pattern of a representable magnitude, in units of 2^-149. With s low zero bits dropped to
leave a 24-bit significand n, exponent field and fraction together are s * 2^23 + n. -/
def magBits (mag : Nat) : Nat :=
  let s := mag.log2 - 23
  s * 2 ^ 23 + mag / 2 ^ s

/-- Put the sign bit above bits 30:0. -/
def withSign (neg : Bool) (low : Nat) : Word := BitVec.ofBool neg ++ BitVec.ofNat 31 low

/-- The bit pattern of a datum (20_memory.md R52). -/
def Fp.toBits : Fp → Word
  | .nan bits    => bits
  | .inf neg     => withSign neg 0x7F800000
  | .fin neg mag => withSign neg (magBits mag)

/-! ### Rounding (00_scope.md R18: once, to nearest, ties to even) -/

/-- The magnitude nearest to num / den units of 2^-149, ties to even, with 24 significant bits and no bound on the
exponent above; below 2^24 units the spacing is one unit, which keeps the subnormals. -/
def roundRatio (num den : Nat) : Nat :=
  let s   := (num / den).log2 - 23
  let ulp := den * 2 ^ s
  let n   := num / ulp
  let r   := num % ulp
  (if ulp < 2 * r ∨ (2 * r = ulp ∧ n % 2 = 1) then n + 1 else n) * 2 ^ s

/-- A magnitude in units of 2^-149 that has at most 24 significant bits: every finite binary32 magnitude, were the
exponent not bounded above. -/
def representable (mag : Nat) : Bool := mag % 2 ^ (mag.log2 - 23) == 0

/-- The significand of a representable magnitude, below 2^24. -/
def significand (mag : Nat) : Nat := mag / 2 ^ (mag.log2 - 23)

/-- The least magnitude that is too large for binary32, in units of 2^-149: the value 2^128. -/
def overflowMag : Nat := 2 ^ 149 * 2 ^ 128

/-- A rounded magnitude with its sign; one that is too large is an infinity. -/
def finOrInf (neg : Bool) (mag : Nat) : Fp := if overflowMag ≤ mag then .inf neg else .fin neg mag

/-- The NaN an operation delivers: its bits are open (notes/assumptions/4.md). -/
def nanOf (op : FpOp) (a b : Fp) : Fp := .nan (Config.quietBits (Config.quietNaN op a b))

/-! ### Signs, constants and comparisons -/

/-- The exact value of a finite datum in units of 2^-149. -/
def signedMag (neg : Bool) (mag : Nat) : Int := if neg then -(mag : Int) else (mag : Int)

/-- The datum with its sign changed, a zero's too; a NaN keeps its bits. 00_scope.md R18 lists no negation: DESIGN
CHOICE (notes/assumptions/19.md). -/
def Fp.negate : Fp → Fp
  | .nan bits    => .nan bits
  | .inf neg     => .inf (!neg)
  | .fin neg mag => .fin (!neg) mag

/-- How many units of 2^-149 make 1. -/
def unitMag : Nat := 2 ^ 149

/-- +0.0. -/
def fpZero : Fp := .fin false 0
/-- +0.5. -/
def fpHalf : Fp := .fin false (2 ^ 148)
/-- +1.0. -/
def fpOne : Fp := .fin false unitMag
/-- -1.0. -/
def fpNegOne : Fp := .fin true unitMag
/-- +2.0. -/
def fpTwo : Fp := .fin false (2 ^ 150)
/-- -2.0. -/
def fpNegTwo : Fp := .fin true (2 ^ 150)

/-- `a < b`: false if either is NaN; the zeros are equal. -/
def flt : Fp → Fp → Bool
  | .nan _, _          => false
  | _, .nan _          => false
  | .inf n, .inf m     => n && !m
  | .inf n, .fin _ _   => n
  | .fin _ _, .inf m   => !m
  | .fin n a, .fin m b => signedMag n a < signedMag m b

/-- The datum is a NaN. -/
def Fp.isNaN : Fp → Bool
  | .nan _   => true
  | .inf _   => false
  | .fin _ _ => false

/-- `a <= b`: false if either is NaN. -/
def fle (a b : Fp) : Bool := !a.isNaN && !b.isNaN && !flt b a
/-- `a > b`. -/
def fgt (a b : Fp) : Bool := flt b a
/-- `a >= b`. -/
def fge (a b : Fp) : Bool := fle b a
/-- `a == b`: false if either is NaN; +0 == -0. -/
def feq (a b : Fp) : Bool := fle a b && fle b a

/-- False for the infinities and NaN. -/
def isfinite : Fp → Bool
  | .nan _   => false
  | .inf _   => false
  | .fin _ _ => true

/-- `a` if `a < b`, else `b`. -/
def fmin (a b : Fp) : Fp := if flt a b then a else b

/-! ### Arithmetic -/

/-- The sum of two data, with `q` the NaN to deliver. An exact zero sum is +0 unless both terms are negative. -/
def sumOr (q : Fp) : Fp → Fp → Fp
  | .nan _, _          => q
  | _, .nan _          => q
  | .inf n, .inf m     => if n = m then .inf n else q
  | .inf n, .fin _ _   => .inf n
  | .fin _ _, .inf m   => .inf m
  | .fin n a, .fin m b =>
    let v := signedMag n a + signedMag m b
    if v = 0 then .fin (n && m) 0 else finOrInf (decide (v < 0)) (roundRatio v.natAbs 1)

/-- fadd (R18). -/
def fadd (a b : Fp) : Fp := sumOr (nanOf .add a b) a b

/-- fsub (R18). -/
def fsub (a b : Fp) : Fp := sumOr (nanOf .sub a b) a b.negate

/-- fmul (R18). -/
def fmul (a b : Fp) : Fp :=
  match a, b with
  | .nan _, _          => nanOf .mul a b
  | _, .nan _          => nanOf .mul a b
  | .inf n, .inf m     => .inf (n ^^ m)
  | .inf n, .fin m y   => if y = 0 then nanOf .mul a b else .inf (n ^^ m)
  | .fin n x, .inf m   => if x = 0 then nanOf .mul a b else .inf (n ^^ m)
  | .fin n x, .fin m y => finOrInf (n ^^ m) (roundRatio (x * y) unitMag)

/-- fdiv (R18). -/
def fdiv (a b : Fp) : Fp :=
  match a, b with
  | .nan _, _          => nanOf .div a b
  | _, .nan _          => nanOf .div a b
  | .inf _, .inf _     => nanOf .div a b
  | .inf n, .fin m _   => .inf (n ^^ m)
  | .fin n _, .inf m   => .fin (n ^^ m) 0
  | .fin n x, .fin m y =>
    if y = 0 then (if x = 0 then nanOf .div a b else .inf (n ^^ m))
    else finOrInf (n ^^ m) (roundRatio (x * unitMag) y)

/-- ffloor: roundToIntegralTowardNegative, exact (R18). A zero result keeps the operand's sign. -/
def ffloor (a : Fp) : Fp :=
  match a with
  | .nan _         => nanOf .floor a a
  | .inf n         => .inf n
  | .fin false mag => .fin false (mag / unitMag * unitMag)
  | .fin true mag  => .fin true ((mag + unitMag - 1) / unitMag * unitMag)

/-- itof: a small non-negative integer, exactly (R18). The rules convert only window positions, table indices and
the oversampling factor. -/
def itof (i : Nat) : Fp := .fin false (i * unitMag)

end Sys2Proof
end

