-- ==== Sys2Proof/Machine/Operands.lean ====
section
/-! DEFINITION. How operand words are read and result words are made (30_encoding.md R73 to R75), and integer
clamping (00_scope.md R19). -/

namespace Sys2Proof.Machine

/-- An `F` operand: every pattern is allowed (R74). -/
def operandF (w : Word) : Fp := Fp.ofBits w

/-- An `I` operand: int32, two's complement, every pattern is allowed (R74). -/
def operandI (w : Word) : Int := w.toInt

/-- An `F` result (R75). -/
def resultF (a : Fp) : Word := a.toBits

/-- A `B` result, and every Boolean a register reads (R75; 10_state.md section 7): zext_32. -/
def resultB (b : Bool) : Word := if b then 0x00000001#32 else 0x00000000#32

/-- An int32 register's word. -/
def wordI (v : Int) : Word := BitVec.ofInt 32 v

/-- An index or a count in a register's word (10_state.md R43: zext_32). -/
def wordN (v : Nat) : Word := BitVec.ofNat 32 v

/-- IDX selects an instance (R73). -/
def instanceIndex (k : Byte) : Nat := k.toNat

/-- clampI on integers (00_scope.md R19). -/
def clampI (v lo hi : Int) : Int := if v < lo then lo else if v > hi then hi else v

/-- The integer value of ffloor of a datum, clamped to [0, hi] (42_oscillator.md R124). An infinity clamps to the
end it lies beyond; a NaN, which no CORE inside its parameter ranges meets, gives 0 (notes/assumptions/9.md). -/
def floorClamped (a : Fp) (hi : Nat) : Nat :=
  match ffloor a with
  | .nan _       => 0
  | .inf neg     => if neg then 0 else hi
  | .fin neg mag => (clampI (signedMag neg (mag / unitMag)) 0 hi).toNat

end Sys2Proof.Machine
end

