-- ==== Sys2Proof/Machine/Ops.lean ====
section
/-! DEFINITION. The shared operations of the meanings: returning result words, taking a decode error, and reaching
the instance that IDX selects. -/

namespace Sys2Proof.Machine

/-- What a meaning answers. -/
abbrev Answer := Host.Outcome State Fault Refusal

/-- result(v) for each word in order (00_scope.md R19): the host receives them after all earlier ones (20_memory.md
R57). -/
def State.pushResults (s : State) (ws : List Word) : State := { s with results := s.results ++ ws }

/-- The result words as a byte link carries them (20_memory.md R53). -/
def State.resultBytes (s : State) : List Byte := s.results.flatMap wordBytes

/-! ### Taking an error, and what undoes it

`takeError` is the CORE's whole exception mechanism: there is no trap entry and no trap return (60_exceptions.md
R216, R217). Only CORE.RESET and power-on clear the latch, by `clearLatch`. -/

/-- STATUS.ERR, bit 0 (10_state.md R22). -/
def State.errBit (s : State) : Bool := s.status.getLsbD 0

/-- The STATUS word of a latched cause: CAUSE in bits 7:4 and ERR in bit 0 (60_exceptions.md R214). -/
def statusOfCause (c : Cause) : Word := (c.code <<< 4) ||| 1#32

/-- The error latch: the first error since power-on is kept (60_exceptions.md R214). -/
def latchError (c : Cause) (w : Word) (s : State) : State :=
  if s.errBit then s else { s with status := statusOfCause c, errcmd := w }

/-- The effect of an error with cause `c` on the command whose command word is `w`: the latch, R(CLASS, OP) result
words of value 0, and nothing else (60_exceptions.md R213, R214). -/
def takeError (c : Cause) (w : Word) (s : State) : State :=
  (latchError c w s).pushResults (List.replicate (resultCount w) 0x00000000#32)

/-- Clear the latch (45_core_control.md R201). -/
def clearLatch (s : State) : State := { s with status := 0x00000000#32, errcmd := 0x00000000#32 }

/-! ### The instance that IDX selects (30_encoding.md R73)

An IDX at or above the class's count is BAD_INDEX (60_exceptions.md R211). Only the selected instance is reached
(10_state.md R47). `on…` runs a command that gives the instance a new state and returns words; `read…` returns one
word and changes nothing, and `none` is a REG that is not listed, BAD_REG, checked after the index (R212). -/

/-- Return one register word, or take BAD_REG. -/
def returnWord (i : Instr) (s : State) : Option Word → Answer
  | some v => .next (s.pushResults [v])
  | none   => .next (takeError .badReg (commandWord i) s)

/-- A command on ED[k]. -/
def onEd (i : Instr) (k : Byte) (s : State) (f : EdState → EdState × List Word) : Answer :=
  match s.eds[instanceIndex k]? with
  | some e => .next ({ s with eds := s.eds.set (instanceIndex k) (f e).1 }.pushResults (f e).2)
  | none   => .next (takeError .badIndex (commandWord i) s)

/-- A read of ED[k]. -/
def readEd (i : Instr) (k : Byte) (s : State) (f : EdState → Option Word) : Answer :=
  match s.eds[instanceIndex k]? with
  | some e => returnWord i s (f e)
  | none   => .next (takeError .badIndex (commandWord i) s)

/-- A command on OSC[k]. -/
def onOsc (i : Instr) (k : Byte) (s : State) (f : OscState → OscState × List Word) : Answer :=
  match s.oscs[instanceIndex k]? with
  | some o => .next ({ s with oscs := s.oscs.set (instanceIndex k) (f o).1 }.pushResults (f o).2)
  | none   => .next (takeError .badIndex (commandWord i) s)

/-- A read of OSC[k]. -/
def readOsc (i : Instr) (k : Byte) (s : State) (f : OscState → Option Word) : Answer :=
  match s.oscs[instanceIndex k]? with
  | some o => returnWord i s (f o)
  | none   => .next (takeError .badIndex (commandWord i) s)

/-- A command on DIV[k]. -/
def onDiv (i : Instr) (k : Byte) (s : State) (f : DivState → DivState × List Word) : Answer :=
  match s.divs[instanceIndex k]? with
  | some d => .next ({ s with divs := s.divs.set (instanceIndex k) (f d).1 }.pushResults (f d).2)
  | none   => .next (takeError .badIndex (commandWord i) s)

/-- A read of DIV[k]. -/
def readDiv (i : Instr) (k : Byte) (s : State) (f : DivState → Option Word) : Answer :=
  match s.divs[instanceIndex k]? with
  | some d => returnWord i s (f d)
  | none   => .next (takeError .badIndex (commandWord i) s)

/-- A command on CONV[k]. -/
def onConv (i : Instr) (k : Byte) (s : State) (f : ConvState → ConvState × List Word) : Answer :=
  match s.convs[instanceIndex k]? with
  | some c => .next ({ s with convs := s.convs.set (instanceIndex k) (f c).1 }.pushResults (f c).2)
  | none   => .next (takeError .badIndex (commandWord i) s)

/-- A read of CONV[k]. -/
def readConv (i : Instr) (k : Byte) (s : State) (f : ConvState → Option Word) : Answer :=
  match s.convs[instanceIndex k]? with
  | some c => returnWord i s (f c)
  | none   => .next (takeError .badIndex (commandWord i) s)

end Sys2Proof.Machine
end

