-- ==== Sys2Proof/Machine/EdgeDetector.lean ====
section
/-! DEFINITION. The EdgeDetector, class 1 (41_edge_detector.md). The divider and the converter use its procedures on
the detectors they own. -/

namespace Sys2Proof.Machine

/-- Classify(c, x): the hysteresis comparator (R100). -/
def classify (p : Config.Params) (c : Bool) (x : Fp) : Bool :=
  if fgt x (Fp.ofBits p.thHi) then true
  else if flt x (Fp.ofBits p.thLo) then false
  else c

/-- EdSet(e, x): ingest one sample; the first one after a reset reports no edge (R101). -/
def edFeed (p : Config.Params) (e : EdState) (x : Fp) : EdState :=
  let n := classify p e.cur x
  if e.armed then { cur := n, prev := e.cur, armed := true }
  else { cur := n, prev := n, armed := true }

/-- EdReset(e) (R102). -/
def edClear (_ : EdState) : EdState := { cur := false, prev := false, armed := false }

/-- The registers STATE, PREV, ARMED and FLAGS of a detector, at numbers 0 to 3 from its base (10_state.md R42, R44,
R45). -/
def edReg (e : EdState) (n : Nat) : Option Word :=
  match n with
  | 0x00 => some (resultB e.cur)
  | 0x01 => some (resultB e.prev)
  | 0x02 => some (resultB e.armed)
  | 0x03 => some e.flagsWord
  | _    => none

/-! ### Commands -/

/-- ED.SET k, x (R103). -/
def execEdSet (k : Byte) (x : Word) (s : State) : Answer :=
  onEd (.edSet k x) k s fun e => (edFeed s.params e (operandF x), [])

/-- ED.RESET k (R104). -/
def execEdReset (k : Byte) (s : State) : Answer :=
  onEd (.edReset k) k s fun e => (edClear e, [])

/-- ED.RISING k (R105). -/
def execEdRising (k : Byte) (s : State) : Answer :=
  readEd (.edRising k) k s fun e => some (resultB e.rising)

/-- ED.TRAILING k (R106). -/
def execEdTrailing (k : Byte) (s : State) : Answer :=
  readEd (.edTrailing k) k s fun e => some (resultB e.trailing)

/-- ED.ANY k (R107). -/
def execEdAny (k : Byte) (s : State) : Answer :=
  readEd (.edAny k) k s fun e => some (resultB (e.prev != e.cur))

/-- ED.GET k, reg (R108; the registers are 10_state.md R42). -/
def execEdGet (k reg : Byte) (s : State) : Answer :=
  readEd (.edGet k reg) k s fun e => edReg e reg.toNat

end Sys2Proof.Machine
end

