-- ==== Sys2Proof/Machine/Converter.lean ====
section
/-! DEFINITION. The WaveformConverter, class 4 (44_converter.md): a sawtooth rebuilt from a square. -/

namespace Sys2Proof.Machine

/-- IncC(x): a finite positive increment is kept, everything else is +0 (R180). -/
def convInc (x : Fp) : Fp := if fgt x fpZero && isfinite x then x else fpZero

/-- The wrap into [0, 1) by the fractional part (R181). -/
def convWrap (ph : Fp) : Fp := if fge ph fpOne then fsub ph (ffloor ph) else ph

/-- The phase a sample starts from: +0.0 on a trailing edge (R181). -/
def convStart (e : EdState) (phase : Word) : Fp := if e.trailing then fpZero else Fp.ofBits phase

/-- One sample: the converter after it, and saw (R181). -/
def convSample (p : Config.Params) (c : ConvState) (value freq dt : Fp) : ConvState × List Word :=
  let e  := edFeed p c.ed value
  let ph := convWrap (fadd (convStart e c.phase) (convInc (fmul freq dt)))
  ({ phase := ph.toBits, ed := e },
   [resultF (fsub (fmul (Fp.ofBits p.convGain) ph) (Fp.ofBits p.convOffset))])

/-- CONV.RESET's effect (R182). -/
def convClear (c : ConvState) : ConvState := { phase := 0x00000000#32, ed := edClear c.ed }

/-- The registers of a converter (10_state.md R45). -/
def convReg (c : ConvState) (n : Nat) : Option Word :=
  match n with
  | 0x00 => some c.phase
  | 0x08 => edReg c.ed 0x00
  | 0x09 => edReg c.ed 0x01
  | 0x0A => edReg c.ed 0x02
  | 0x0B => edReg c.ed 0x03
  | _    => none

/-! ### Commands -/

/-- CONV.TOSAW k, value, freq, dt (R181). -/
def execConvTosaw (k : Byte) (value freq dt : Word) (s : State) : Answer :=
  onConv (.convTosaw k value freq dt) k s fun c =>
    convSample s.params c (operandF value) (operandF freq) (operandF dt)

/-- CONV.RESET k (R182). -/
def execConvReset (k : Byte) (s : State) : Answer :=
  onConv (.convReset k) k s fun c => (convClear c, [])

/-- CONV.GET k, reg (R183; the registers are 10_state.md R45). -/
def execConvGet (k reg : Byte) (s : State) : Answer :=
  readConv (.convGet k reg) k s fun c => convReg c reg.toNat

end Sys2Proof.Machine
end

