-- ==== Sys2Proof/Machine/Divider.lean ====
section
/-! DEFINITION. The FrequencyDivider, class 3 (43_divider.md): an N-edge counter with its own detector. -/

namespace Sys2Proof.Machine

/-- DivCount(D): one counted edge (R151). The comparison is signed (R150). -/
def divCount (d : DivState) : DivState :=
  let c := d.count + 1#32
  if d.mode then
    -- count-up
    if d.n.toInt ≤ c.toInt then { d with phase := !d.phase, count := 0#32 } else { d with count := c }
  else
    -- count-down
    let c' := if d.n.toInt ≤ c.toInt then 0#32 else c
    { d with count := c', phase := if c' = 0#32 then !d.phase else d.phase }

/-- The divider after one sample of its driving signal (R152). -/
def divFeed (p : Config.Params) (d : DivState) (clk : Fp) : DivState :=
  let d' := { d with ed := edFeed p d.ed clk }
  if d'.ed.prev != d'.ed.cur then divCount d' else d'

/-- The two-level output, +DIV_LEVEL or -DIV_LEVEL (R152; 00_scope.md R13). The minus sign changes the sign bit, a
zero's too: DESIGN CHOICE (notes/assumptions/19.md), since 00_scope.md R18 lists no negation. -/
def divLevelOut (p : Config.Params) (phase : Bool) : Fp :=
  if phase then Fp.ofBits p.divLevel else (Fp.ofBits p.divLevel).negate

/-- DIV.SETN's effect: N clamped into [1, maxN], signed (R153). -/
def divWithN (d : DivState) (n : Word) : DivState :=
  { d with n := wordI (clampI (operandI n) 1 d.maxN.toInt) }

/-- DIV.SETMAXN's effect: maxN clamped into [1, 64], and N lowered to it if above (R154). -/
def divWithMaxN (d : DivState) (m : Word) : DivState :=
  let maxN := clampI (operandI m) 1 Config.maxnLimit
  { d with maxN := wordI maxN
           n    := if maxN < d.n.toInt then wordI maxN else d.n }

/-- DIV.SETMODE's effect: 0 is count-down, 1 is count-up, every other value is ignored (R155). -/
def divWithMode (d : DivState) (mode : Word) : DivState :=
  if mode = 0#32 then { d with mode := false }
  else if mode = 1#32 then { d with mode := true }
  else d

/-- DIV.RESET's effect: maxN is kept (R156). -/
def divClear (d : DivState) : DivState :=
  { d with count := wordI (-1), n := 0#32, phase := false, mode := false, ed := edClear d.ed }

/-- The registers of a divider (10_state.md R44). -/
def divReg (d : DivState) (n : Nat) : Option Word :=
  match n with
  | 0x00 => some d.count
  | 0x01 => some d.n
  | 0x02 => some d.maxN
  | 0x03 => some (resultB d.mode)
  | 0x04 => some (resultB d.phase)
  | 0x08 => edReg d.ed 0x00
  | 0x09 => edReg d.ed 0x01
  | 0x0A => edReg d.ed 0x02
  | 0x0B => edReg d.ed 0x03
  | _    => none

/-! ### Commands -/

/-- DIV.PROC k, clk (R152). -/
def execDivProc (k : Byte) (clk : Word) (s : State) : Answer :=
  onDiv (.divProc k clk) k s fun d =>
    let d' := divFeed s.params d (operandF clk)
    (d', [resultB d'.phase, resultF (divLevelOut s.params d'.phase)])

/-- DIV.SETN k, n (R153). -/
def execDivSetn (k : Byte) (n : Word) (s : State) : Answer :=
  onDiv (.divSetn k n) k s fun d => (divWithN d n, [])

/-- DIV.SETMAXN k, m (R154). -/
def execDivSetmaxn (k : Byte) (m : Word) (s : State) : Answer :=
  onDiv (.divSetmaxn k m) k s fun d => (divWithMaxN d m, [])

/-- DIV.SETMODE k, mode (R155). -/
def execDivSetmode (k : Byte) (mode : Word) (s : State) : Answer :=
  onDiv (.divSetmode k mode) k s fun d => (divWithMode d mode, [])

/-- DIV.RESET k (R156). -/
def execDivReset (k : Byte) (s : State) : Answer :=
  onDiv (.divReset k) k s fun d => (divClear d, [])

/-- DIV.GET k, reg (R157; the registers are 10_state.md R44). -/
def execDivGet (k reg : Byte) (s : State) : Answer :=
  readDiv (.divGet k reg) k s fun d => divReg d reg.toNat

end Sys2Proof.Machine
end

