-- ==== Sys2Proof/Machine/Oscillator.lean ====
section
/-! DEFINITION. The BandLimitedOscillator, class 2 (42_oscillator.md): a phase accumulator with a minBLEP corrector. -/

namespace Sys2Proof.Machine

/-! ### Increment, advance and wrap (R120, R121) -/

/-- ClampInc(x): the increment held to [+0, INC_MAX]; NaN gives +0 (R120). -/
def clampInc (p : Config.Params) (x : Fp) : Fp :=
  if fgt x fpZero then fmin x (Fp.ofBits p.incMax) else fpZero

/-- The increment of one sample (R120). -/
def oscInc (p : Config.Params) (o : OscState) (dt : Fp) : Fp := clampInc p (fmul (Fp.ofBits o.freq) dt)

/-- wrapped (R121). -/
def oscWrapped (s : Fp) : Bool := fge s fpOne

/-- p1, the phase after the sample, from s = p0 + inc (R121). -/
def oscWrap (s : Fp) : Fp := if oscWrapped s then fsub s fpOne else s

/-! ### Discontinuities (R122, R123) -/

/-- What happened in a sample (R122). -/
inductive OscEvent where
  /-- The saw wrapped and the square went from -1 to +1. -/
  | wrap
  /-- The square went from +1 to -1. -/
  | half
  /-- Neither. -/
  | none
deriving DecidableEq, Repr

/-- The event of a sample that starts at p0 and reaches s before the wrap (R122). -/
def oscEvent (p0 s : Fp) : OscEvent :=
  if oscWrapped s then .wrap
  else if flt p0 fpHalf && fge s fpHalf then .half
  else .none

/-- d, the fraction of the sample period elapsed since the ideal crossing (R123). -/
def subSample (num inc : Fp) : Fp := fmin (fdiv num inc) fpOne

/-! ### The residual table and the rings (R124, R125, R127) -/

/-- E[k] (00_scope.md R11). -/
def tableEntry (p : Config.Params) (k : Nat) : Fp :=
  match p.table with
  | .unspecified => if k < p.win * p.oversamp then Fp.ofBits (Config.residualBits (Config.residual k)) else fpZero
  | .listed ws   => Fp.ofBits (ws.getD k 0x00000000#32)

/-- ResE(t): the table read by linear interpolation (R124). -/
def resE (p : Config.Params) (t : Fp) : Fp :=
  let pf := fmul t (itof p.oversamp)
  let i  := floorClamped pf (p.win * p.oversamp - 1)
  let fr := fsub pf (itof i)
  fadd (tableEntry p i) (fmul fr (fsub (tableEntry p (i + 1)) (tableEntry p i)))

/-- One turn of BlepInsert's loop: the term for the j-th sample from now (R125). With an extreme table the sum
overflows to an infinity as R18 has it (DEDUCED, notes/assumptions/10.md). -/
def blepTerm (p : Config.Params) (rd : Nat) (d jump : Fp) (ring : List Word) (j : Nat) : List Word :=
  let e := resE p (fadd (itof j) d)
  ring.modify ((rd + j) % p.win) fun b => (fadd (Fp.ofBits b) (fmul jump e)).toBits

/-- BlepInsert(b, p, d, jump): add one band-limited step to a ring (R125). -/
def blepInsert (p : Config.Params) (ring : List Word) (rd : Nat) (d jump : Fp) : List Word :=
  (List.range p.win).foldl (blepTerm p rd d jump) ring

/-- The steps a sample inserts, into bsq and bsaw (R122, R123, R125, R130). -/
def oscInsert (p : Config.Params) (o : OscState) (inc s : Fp) : OscState :=
  match oscEvent (Fp.ofBits o.phase) s with
  | .wrap =>
    let d := subSample (oscWrap s) inc
    { o with bsq  := blepInsert p o.bsq o.psq d fpTwo
             bsaw := blepInsert p o.bsaw o.psaw d fpNegTwo }
  | .half =>
    let d := subSample (fsub s fpHalf) inc
    { o with bsq := blepInsert p o.bsq o.psq d fpNegTwo }
  | .none => o

/-- The entry a ring gives up (R127). A ring holds L entries and its index is below L. -/
def ringHead (ring : List Word) (rd : Nat) : Fp := Fp.ofBits (ring.getD rd 0x00000000#32)

/-- The ring after its entry is consumed (R127). -/
def ringCleared (ring : List Word) (rd : Nat) : List Word := ring.set rd 0x00000000#32

/-- The next read index (R127). -/
def ringNext (p : Config.Params) (rd : Nat) : Nat := (rd + 1) % p.win

/-- Both rings consume one entry (R127). -/
def oscConsume (p : Config.Params) (o : OscState) : OscState :=
  { o with bsq  := ringCleared o.bsq o.psq
           psq  := ringNext p o.psq
           bsaw := ringCleared o.bsaw o.psaw
           psaw := ringNext p o.psaw }

/-! ### Outputs (R126, R128) -/

/-- The naive square value (R126). -/
def naiveSquare (p1 : Fp) : Fp := if flt p1 fpHalf then fpOne else fpNegOne

/-- The naive saw value (R126). -/
def naiveSaw (p1 : Fp) : Fp := fsub (fmul fpTwo p1) fpOne

/-- An output: the scale times the corrected naive value (R128). With an extreme scale or table the product
overflows to an infinity as 00_scope.md R18 has it (DEDUCED, notes/assumptions/10.md). -/
def oscOutput (p : Config.Params) (naive correction : Fp) : Fp :=
  fmul (Fp.ofBits p.oscScale) (fadd naive correction)

/-- One sample: the oscillator after it, and sq and saw (R130). The step is inserted before the consume. -/
def oscSample (p : Config.Params) (o : OscState) (dt : Fp) : OscState × List Word :=
  let inc := oscInc p o dt
  let s   := fadd (Fp.ofBits o.phase) inc
  let p1  := oscWrap s
  let o'  := oscInsert p o inc s
  ({ oscConsume p o' with phase := p1.toBits },
   [resultF (oscOutput p (naiveSquare p1) (ringHead o'.bsq o'.psq)),
    resultF (oscOutput p (naiveSaw p1) (ringHead o'.bsaw o'.psaw))])

/-- The frequency OSC.SETF stores: the operand if it is above 0, else +0.0 (R129). -/
def clampFreq (f : Word) : Word := if fgt (operandF f) fpZero then f else 0x00000000#32

/-- OSC.RESET's effect on an oscillator: freq is kept (R131). -/
def oscClear (p : Config.Params) (o : OscState) : OscState :=
  { o with phase := 0x00000000#32
           bsq   := List.replicate p.win 0x00000000#32
           bsaw  := List.replicate p.win 0x00000000#32
           psq   := 0
           psaw  := 0 }

/-- The registers of an oscillator (10_state.md R43). -/
def oscReg (p : Config.Params) (o : OscState) (n : Nat) : Option Word :=
  if n = 0x00 then some o.phase
  else if n = 0x01 then some o.freq
  else if n = 0x02 then some (wordN o.psq)
  else if n = 0x03 then some (wordN o.psaw)
  else if 0x40 ≤ n ∧ n < 0x80 ∧ n - 0x40 < p.win then some (o.bsq.getD (n - 0x40) 0x00000000#32)
  else if 0x80 ≤ n ∧ n - 0x80 < p.win then some (o.bsaw.getD (n - 0x80) 0x00000000#32)
  else none

/-! ### Commands -/

/-- OSC.SETF k, f (R129). -/
def execOscSetf (k : Byte) (f : Word) (s : State) : Answer :=
  onOsc (.oscSetf k f) k s fun o => ({ o with freq := clampFreq f }, [])

/-- OSC.PROC k, dt (R130). -/
def execOscProc (k : Byte) (dt : Word) (s : State) : Answer :=
  onOsc (.oscProc k dt) k s fun o => oscSample s.params o (operandF dt)

/-- OSC.RESET k (R131). -/
def execOscReset (k : Byte) (s : State) : Answer :=
  onOsc (.oscReset k) k s fun o => (oscClear s.params o, [])

/-- OSC.GET k, reg (R132; the registers are 10_state.md R43). -/
def execOscGet (k reg : Byte) (s : State) : Answer :=
  readOsc (.oscGet k reg) k s fun o => oscReg s.params o reg.toNat

end Sys2Proof.Machine
end

