-- ==== Sys2Proof/Machine/Block.lean ====
section
/-! DEFINITION. Block control, class 0 (45_core_control.md), and the block registers (10_state.md R22 to R24, R41). -/

namespace Sys2Proof.Machine

/-- PARAMS0: NED, NCONV, NDIV, NOSC from the most significant byte down (10_state.md R24). -/
def params0 (c : Config.Counts) : Word :=
  BitVec.ofNat 8 c.ned ++ (BitVec.ofNat 8 c.nconv ++ (BitVec.ofNat 8 c.ndiv ++ BitVec.ofNat 8 c.nosc))

/-- PARAMS1: MAXN_DEFAULT, MAXN_LIMIT, O, L from the most significant byte down (10_state.md R24). -/
def params1 (p : Config.Params) : Word :=
  BitVec.ofNat 8 Config.maxnDefault ++ (BitVec.ofNat 8 Config.maxnLimit
    ++ (BitVec.ofNat 8 p.oversamp ++ BitVec.ofNat 8 p.win))

/-- The block registers (10_state.md R41). -/
def coreReg (s : State) (n : Nat) : Option Word :=
  match n with
  | 0x00 => some s.status
  | 0x01 => some s.errcmd
  | 0x02 => some Config.identity
  | 0x03 => some (params0 s.counts)
  | 0x04 => some (params1 s.params)
  | 0x05 => some s.params.thLo
  | 0x06 => some s.params.thHi
  | 0x07 => some s.params.incMax
  | 0x08 => some s.params.oscScale
  | 0x09 => some s.params.divLevel
  | 0x0A => some s.params.convGain
  | 0x0B => some s.params.convOffset
  | _    => none

/-- OSC[k] under CORE.RESET: freq to +0.0, then OSC.RESET's effect (R201). -/
def oscBlockReset (p : Config.Params) (o : OscState) : OscState :=
  oscClear p { o with freq := 0x00000000#32 }

/-- DIV[k] under CORE.RESET: maxN to 20, then DIV.RESET's effect (R201). -/
def divBlockReset (d : DivState) : DivState := divClear { d with maxN := wordI Config.maxnDefault }

/-- CORE.RESET's effect on every unit and on the latch (R201). -/
def blockReset (s : State) : State :=
  clearLatch { s with eds   := s.eds.map edClear
                      oscs  := s.oscs.map (oscBlockReset s.params)
                      divs  := s.divs.map divBlockReset
                      convs := s.convs.map convClear }

/-! ### Commands -/

/-- CORE.NOP (R200). -/
def execCoreNop (s : State) : Answer := .next s

/-- CORE.RESET (R201). -/
def execCoreReset (s : State) : Answer := .next (blockReset s)

/-- CORE.GET reg (R202; the registers are 10_state.md R41). -/
def execCoreGet (reg : Byte) (s : State) : Answer := returnWord (.coreGet reg) s (coreReg s reg.toNat)

end Sys2Proof.Machine
end

