-- ==== Sys2Proof/Machine/Dispatch.lean ====
section
/-! DEFINITION. The meaning of each instruction, one arm for each row of 30_encoding.md R77. -/

namespace Sys2Proof.Machine

def exec (i : Instr) (s : State) : Host.Outcome State Fault Refusal :=
  match i with
  | .coreNop => Sys2Proof.Machine.execCoreNop s
  | .coreReset => Sys2Proof.Machine.execCoreReset s
  | .coreGet reg => Sys2Proof.Machine.execCoreGet reg s
  | .edSet k x => Sys2Proof.Machine.execEdSet k x s
  | .edReset k => Sys2Proof.Machine.execEdReset k s
  | .edRising k => Sys2Proof.Machine.execEdRising k s
  | .edTrailing k => Sys2Proof.Machine.execEdTrailing k s
  | .edAny k => Sys2Proof.Machine.execEdAny k s
  | .edGet k reg => Sys2Proof.Machine.execEdGet k reg s
  | .oscSetf k f => Sys2Proof.Machine.execOscSetf k f s
  | .oscProc k dt => Sys2Proof.Machine.execOscProc k dt s
  | .oscReset k => Sys2Proof.Machine.execOscReset k s
  | .oscGet k reg => Sys2Proof.Machine.execOscGet k reg s
  | .divProc k clk => Sys2Proof.Machine.execDivProc k clk s
  | .divSetn k n => Sys2Proof.Machine.execDivSetn k n s
  | .divSetmaxn k m => Sys2Proof.Machine.execDivSetmaxn k m s
  | .divSetmode k mode => Sys2Proof.Machine.execDivSetmode k mode s
  | .divReset k => Sys2Proof.Machine.execDivReset k s
  | .divGet k reg => Sys2Proof.Machine.execDivGet k reg s
  | .convTosaw k value freq dt => Sys2Proof.Machine.execConvTosaw k value freq dt s
  | .convReset k => Sys2Proof.Machine.execConvReset k s
  | .convGet k reg => Sys2Proof.Machine.execConvGet k reg s

end Sys2Proof.Machine
end

