-- ==== Sys2Proof/Machine/Step.lean ====
section
/-! DEFINITION. One step of the CORE: one whole command from the host link (20_memory.md R55, R57). -/

namespace Sys2Proof.Machine

/-- One step. While the next command is not wholly there the CORE waits and nothing changes (20_memory.md R54;
60_exceptions.md R222); a command word that matches no row takes its error (30_encoding.md R79); otherwise the
command runs to completion, its words taken from the link (30_encoding.md R72). -/
def step (s : State) : Host.Outcome State Fault Refusal :=
  match fetch s.link with
  | .waiting          => .next s
  | .command i rest   => exec i { s with link := rest }
  | .illegal c w rest => .next (takeError c w { s with link := rest })

/-- The state with the bytes of a table word sent by the host ahead of everything else, so that the next step runs
that instruction (notes/assumptions/2.md). -/
def State.withFetchWord (s : State) (nbits w : Nat) : State :=
  { s with link := tableBytes nbits w ++ s.link }

end Sys2Proof.Machine
end

