-- ==== Sys2Proof/Machine/Assembler.lean ====
section
/-! DEFINITION. The assembler syntax of the commands (30_encoding.md R82 to R84). It stands outside the machine: it
only makes words that the host sends. Where the spec leaves the grammar open: notes/assumptions/15.md. -/

namespace Sys2Proof.Asm

/-! ### Characters -/

/-- A blank inside a line. -/
def blankChar (c : Char) : Bool := c == ' ' || c == '\t' || c == '\r'

/-- A line without the blanks at its ends. -/
def trim (cs : List Char) : List Char :=
  ((cs.dropWhile blankChar).reverse.dropWhile blankChar).reverse

/-- Cut at every `sep`. -/
def splitAt (sep : Char) : List Char → List (List Char)
  | [] => [[]]
  | c :: cs =>
    match splitAt sep cs with
    | [] => [[c]]
    | part :: parts => if c = sep then [] :: part :: parts else (c :: part) :: parts

/-- The value of a digit in base 16 or less. -/
def digitValue (c : Char) : Option Nat :=
  if '0' ≤ c ∧ c ≤ '9' then some (c.toNat - 48)
  else if 'a' ≤ c ∧ c ≤ 'f' then some (c.toNat - 87)
  else none

/-- The number a string of digits stands for, `acc` being the digits before it. -/
def digits (base : Nat) : Nat → List Char → Option Nat
  | acc, [] => some acc
  | acc, c :: cs =>
    match digitValue c with
    | none   => none
    | some d => if d < base then digits base (acc * base + d) cs else none

/-- A number of at least one digit. -/
def number (base : Nat) (cs : List Char) : Option Nat := if cs.isEmpty then none else digits base 0 cs

/-! ### Literals (R83) -/

/-- An unsigned decimal or `0x` hex integer. -/
def unsigned : List Char → Option Nat
  | '0' :: 'x' :: cs => number 16 cs
  | cs               => number 10 cs

/-- An idx or a reg: it fits in 8 bits. -/
def byteLiteral (cs : List Char) : Option Byte :=
  match unsigned cs with
  | some n => if n < 2 ^ 8 then some (BitVec.ofNat 8 n) else none
  | none   => none

/-- An `I` operand: decimal, in the range of int32; or hex, taken as the 32-bit pattern. -/
def intLiteral : List Char → Option Word
  | '0' :: 'x' :: cs =>
    match number 16 cs with
    | some n => if n < 2 ^ 32 then some (BitVec.ofNat 32 n) else none
    | none   => none
  | '-' :: cs =>
    match number 10 cs with
    | some n => if n ≤ 2 ^ 31 then some (BitVec.ofInt 32 (-(n : Int))) else none
    | none   => none
  | cs =>
    match number 10 cs with
    | some n => if n < 2 ^ 31 then some (BitVec.ofNat 32 n) else none
    | none   => none

/-- A raw 32-bit pattern, `0x` and eight hex digits. -/
def rawWord : List Char → Option Word
  | '0' :: 'x' :: cs =>
    match number 16 cs with
    | some n => if cs.length = 8 then some (BitVec.ofNat 32 n) else none
    | none   => none
  | _ => none

/-- n * 10^e, rounded to binary32, to nearest, ties to even. -/
def decimalFloat (neg : Bool) (n : Nat) (e : Int) : Word :=
  (finOrInf neg (match e with
    | .ofNat k   => roundRatio (n * 10 ^ k * unitMag) 1
    | .negSucc k => roundRatio (n * unitMag) (10 ^ (k + 1)))).toBits

/-- The exponent of a decimal literal, after its `e`. -/
def exponent : List Char → Option Int
  | '-' :: cs => (number 10 cs).map fun n => -(n : Int)
  | '+' :: cs => (number 10 cs).map fun n => (n : Int)
  | cs        => (number 10 cs).map fun n => (n : Int)

/-- An unsigned decimal floating literal: digits, `.` and digits if any, `e` and an exponent if any. -/
def decimalLiteral (neg : Bool) (cs : List Char) : Option Word :=
  let build (mantissa : List Char) (e : Int) : Option Word :=
    match splitAt '.' mantissa with
    | [whole]       => (number 10 whole).map fun n => decimalFloat neg n e
    | [whole, frac] => (number 10 (whole ++ frac)).map fun n => decimalFloat neg n (e - frac.length)
    | _             => none
  match splitAt 'e' cs with
  | [mantissa]    => build mantissa 0
  | [mantissa, x] =>
    match exponent x with
    | some e => build mantissa e
    | none   => none
  | _ => none

/-- An `F` operand. -/
def floatLiteral : List Char → Option Word
  | ['i', 'n', 'f']                => some 0x7F800000#32
  | ['-', 'i', 'n', 'f']           => some 0xFF800000#32
  | ['n', 'a', 'n']                => some 0x7FC00000#32
  | 'f' :: '3' :: '2' :: ':' :: cs => rawWord cs
  | '-' :: cs                      => decimalLiteral true cs
  | cs                             => decimalLiteral false cs

/-! ### Commands and pseudo-instructions (R82, R84) -/

/-- The operand list of a mnemonic, and what it assembles to. -/
inductive Form where
  /-- No operand. -/
  | none (f : List Instr)
  /-- `reg` alone. -/
  | reg (f : Byte → List Instr)
  /-- `idx`. -/
  | idx (f : Byte → List Instr)
  /-- `idx, reg`. -/
  | idxReg (f : Byte → Byte → List Instr)
  /-- `idx` and one `I` operand. -/
  | int (f : Byte → Word → List Instr)
  /-- `idx` and one `F` operand. -/
  | float (f : Byte → Word → List Instr)
  /-- `idx` and two `F` operands. -/
  | float2 (f : Byte → Word → Word → List Instr)
  /-- `idx` and three `F` operands. -/
  | float3 (f : Byte → Word → Word → Word → List Instr)

/-- The mnemonics of R77, in lower case. -/
def commandForms : List (String × Form) :=
  [ ("core.nop",    .none [.coreNop]),
    ("core.reset",  .none [.coreReset]),
    ("core.get",    .reg fun r => [.coreGet r]),
    ("ed.set",      .float fun k x => [.edSet k x]),
    ("ed.reset",    .idx fun k => [.edReset k]),
    ("ed.rising",   .idx fun k => [.edRising k]),
    ("ed.trailing", .idx fun k => [.edTrailing k]),
    ("ed.any",      .idx fun k => [.edAny k]),
    ("ed.get",      .idxReg fun k r => [.edGet k r]),
    ("osc.setf",    .float fun k f => [.oscSetf k f]),
    ("osc.proc",    .float fun k dt => [.oscProc k dt]),
    ("osc.reset",   .idx fun k => [.oscReset k]),
    ("osc.get",     .idxReg fun k r => [.oscGet k r]),
    ("div.proc",    .float fun k clk => [.divProc k clk]),
    ("div.setn",    .int fun k n => [.divSetn k n]),
    ("div.setmaxn", .int fun k m => [.divSetmaxn k m]),
    ("div.setmode", .int fun k m => [.divSetmode k m]),
    ("div.reset",   .idx fun k => [.divReset k]),
    ("div.get",     .idxReg fun k r => [.divGet k r]),
    ("conv.tosaw",  .float3 fun k v f dt => [.convTosaw k v f dt]),
    ("conv.reset",  .idx fun k => [.convReset k]),
    ("conv.get",    .idxReg fun k r => [.convGet k r]) ]

/-- The pseudo-instructions and their expansions (R84). -/
def pseudoForms : List (String × Form) :=
  [ ("core.status", .none [.coreGet 0x00#8]),
    ("core.errcmd", .none [.coreGet 0x01#8]),
    ("ed.flags",    .idx fun k => [.edGet k 0x03#8]),
    ("osc.phase",   .idx fun k => [.oscGet k 0x00#8]),
    ("osc.tick",    .float2 fun k f dt => [.oscSetf k f, .oscProc k dt]),
    ("div.down",    .idx fun k => [.divSetmode k 0#32]),
    ("div.up",      .idx fun k => [.divSetmode k 1#32]),
    ("div.count",   .idx fun k => [.divGet k 0x00#8]),
    ("div.phase",   .idx fun k => [.divGet k 0x04#8]),
    ("div.flags",   .idx fun k => [.divGet k 0x0B#8]),
    ("conv.phase",  .idx fun k => [.convGet k 0x00#8]),
    ("conv.flags",  .idx fun k => [.convGet k 0x0B#8]) ]

/-- The instructions a form makes of its operand texts; none where they do not fit it. -/
def applyForm : Form → List (List Char) → Option (List Instr)
  | .none f, []             => some f
  | .reg f, [r]             => (byteLiteral r).map f
  | .idx f, [k]             => (byteLiteral k).map f
  | .idxReg f, [k, r]       => (byteLiteral k).bind fun k => (byteLiteral r).map (f k)
  | .int f, [k, x]          => (byteLiteral k).bind fun k => (intLiteral x).map (f k)
  | .float f, [k, x]        => (byteLiteral k).bind fun k => (floatLiteral x).map (f k)
  | .float2 f, [k, x, y]    =>
    (byteLiteral k).bind fun k => (floatLiteral x).bind fun x => (floatLiteral y).map (f k x)
  | .float3 f, [k, x, y, z] =>
    (byteLiteral k).bind fun k => (floatLiteral x).bind fun x => (floatLiteral y).bind fun y =>
      (floatLiteral z).map (f k x y)
  | _, _ => Option.none

/-- The form of a mnemonic written in lower case. -/
def formOf (name : List Char) : Option Form :=
  ((commandForms ++ pseudoForms).find? fun row => row.1.toList == name).map fun row => row.2

/-- The words of one line; a blank line or a comment gives none. Letters may be in either case. -/
def assembleLine (line : List Char) : Option (List Word) :=
  let text := (trim (line.takeWhile fun c => c != ';')).map Char.toLower
  let name := text.takeWhile fun c => !blankChar c
  let args := trim (text.dropWhile fun c => !blankChar c)
  if text.isEmpty then some []
  else if name == ".word".toList then (rawWord args).map fun w => [w]
  else
    match formOf name with
    | Option.none => Option.none
    | some form =>
      (applyForm form (if args.isEmpty then [] else (splitAt ',' args).map trim)).map fun is => is.flatMap encode

/-- The words of a program, one command per line. -/
def assemble (text : String) : Option (List Word) :=
  ((splitAt '\n' text.toList).mapM assembleLine).map List.flatten

end Sys2Proof.Asm
end

