-- ==== Sys2Proof/Machine/HostOrder.lean ====
section
/-! DEFINITION. The command order of the reference wiring (00_scope.md R5): what a host issues, and how it forwards
results. These are uses of the machine, not parts of it. -/

namespace Sys2Proof.Machine

/-- The boot sequence of one voice (70_reset_and_hazards.md R243). -/
def bootSequence (k : Byte) (m n f : Word) : List Instr :=
  [.coreReset, .divSetmaxn k m, .divSetn k n, .oscSetf k f]

/-- Run `f` on the state a command leads to, with the result words the command returned. -/
def thenWith (s : State) (a : Answer) (f : State → List Word → Answer) : Answer :=
  match a with
  | .next t    => f t (t.results.drop s.results.length)
  | .fault r   => .fault r
  | .refused r => .refused r

/-- One tick of the reference wiring: OSC.PROC k, DIV.PROC j with the square it returned, CONV.TOSAW i with the
level that returned and freq/N from the host (70_reset_and_hazards.md R246). -/
def hostTick (k j i : Byte) (freqN dt : Word) (s : State) : Answer :=
  thenWith s (exec (.oscProc k dt) s) fun s1 osc =>
    thenWith s1 (exec (.divProc j (osc.getD 0 0x00000000#32)) s1) fun s2 div =>
      exec (.convTosaw i (div.getD 1 0x00000000#32) freqN dt) s2

end Sys2Proof.Machine
end

