-- ==== Sys2Proof/WellFormed.lean ====
section
/-! DEFINITION. Which commands raise no decode error: IDX names an instance that exists (30_encoding.md R73) and the
REG of a GET is in its class's register table (10_state.md R41 to R45). The reserved fields (R78) cannot be written
in the syntax at all. -/

namespace Sys2Proof

/-- The register numbers of CORE.GET (10_state.md R41). -/
def coreRegListed (reg : Byte) : Bool := reg.toNat ≤ 0x0B

/-- The register numbers of ED.GET (10_state.md R42). -/
def edRegListed (reg : Byte) : Bool := reg.toNat ≤ 0x03

/-- The register numbers of OSC.GET with window L = `win` (10_state.md R43). -/
def oscRegListed (win : Nat) (reg : Byte) : Bool :=
  reg.toNat ≤ 0x03 || (0x40 ≤ reg.toNat && reg.toNat < 0x80 && reg.toNat < 0x40 + win)
    || (0x80 ≤ reg.toNat && reg.toNat < 0x80 + win)

/-- The register numbers of DIV.GET (10_state.md R44). -/
def divRegListed (reg : Byte) : Bool :=
  reg.toNat ≤ 0x04 || (0x08 ≤ reg.toNat && reg.toNat ≤ 0x0B)

/-- The register numbers of CONV.GET (10_state.md R45). -/
def convRegListed (reg : Byte) : Bool :=
  reg.toNat == 0x00 || (0x08 ≤ reg.toNat && reg.toNat ≤ 0x0B)

/-- A command that raises no error in a CORE with these instance counts and this window (60_exceptions.md R211). -/
def WellFormed (c : Config.Counts) (win : Nat) : Instr → Bool
  | .coreNop           => true
  | .coreReset         => true
  | .coreGet reg       => coreRegListed reg
  | .edSet k _         => k.toNat < c.ned
  | .edReset k         => k.toNat < c.ned
  | .edRising k        => k.toNat < c.ned
  | .edTrailing k      => k.toNat < c.ned
  | .edAny k           => k.toNat < c.ned
  | .edGet k reg       => k.toNat < c.ned && edRegListed reg
  | .oscSetf k _       => k.toNat < c.nosc
  | .oscProc k _       => k.toNat < c.nosc
  | .oscReset k        => k.toNat < c.nosc
  | .oscGet k reg      => k.toNat < c.nosc && oscRegListed win reg
  | .divProc k _       => k.toNat < c.ndiv
  | .divSetn k _       => k.toNat < c.ndiv
  | .divSetmaxn k _    => k.toNat < c.ndiv
  | .divSetmode k _    => k.toNat < c.ndiv
  | .divReset k        => k.toNat < c.ndiv
  | .divGet k reg      => k.toNat < c.ndiv && divRegListed reg
  | .convTosaw k _ _ _ => k.toNat < c.nconv
  | .convReset k       => k.toNat < c.nconv
  | .convGet k reg     => k.toNat < c.nconv && convRegListed reg

end Sys2Proof
end

