-- ==== Sys2Proof/Safety.lean ====
section
/-! DEFINITION. The terms claims are made in: which parameters a CORE may have, the invariants of 10_state.md R49,
the checks of 60_exceptions.md R212 on a command word, and which instance a command addresses. -/

namespace Sys2Proof.Machine

/-! ### Legal parameters (00_scope.md R7 to R14) -/

/-- A word is the pattern of a finite datum. -/
def finiteWord (w : Word) : Bool := isfinite (Fp.ofBits w)

/-- A word is the pattern of +0.0 or -0.0. -/
def zeroWord (w : Word) : Bool := feq (Fp.ofBits w) fpZero

/-- R7: each count is in [1, 255]. -/
def legalCounts (c : Config.Counts) : Bool :=
  1 ≤ c.ned && c.ned ≤ 255 && 1 ≤ c.nosc && c.nosc ≤ 255
    && 1 ≤ c.ndiv && c.ndiv ≤ 255 && 1 ≤ c.nconv && c.nconv ≤ 255

/-- R11: L*O + 1 finite entries, the last of them 0. The table left OPEN is so by its making. -/
def legalTable (p : Config.Params) : Bool :=
  match p.table with
  | .unspecified => true
  | .listed ws   =>
    ws.length == p.win * p.oversamp + 1 && ws.all finiteWord && zeroWord (ws.getD (p.win * p.oversamp) 0x00000000#32)

/-- R8 to R14, each rule by itself; what R31 and R137 ask besides is `describedParams`. -/
def legalParams (p : Config.Params) : Bool :=
  finiteWord p.thLo && finiteWord p.thHi && flt (Fp.ofBits p.thLo) (Fp.ofBits p.thHi)
    && flt fpZero (Fp.ofBits p.incMax) && flt (Fp.ofBits p.incMax) fpHalf
    && 1 ≤ p.win && p.win ≤ 64 && 1 ≤ p.oversamp && p.oversamp ≤ 255
    && legalTable p
    && finiteWord p.oscScale && finiteWord p.divLevel && finiteWord p.convGain && finiteWord p.convOffset

/-! ### Invariants (10_state.md R22, R27, R29 to R35, R39, R49) -/

/-- A word is the pattern of a datum in [+0, 1). -/
def unitPhase (w : Word) : Bool :=
  match Fp.ofBits w with
  | .nan _         => false
  | .inf _         => false
  | .fin true _    => false
  | .fin false mag => mag < unitMag

/-- A word is the pattern of a datum that is no NaN and at least +0 (R30); +Inf is allowed. -/
def nonNegative (w : Word) : Bool :=
  match Fp.ofBits w with
  | .nan _     => false
  | .inf neg   => !neg
  | .fin neg _ => !neg

/-- A detector that no sample has armed since its reset is low (R25 to R27). -/
def edOk (e : EdState) : Bool := e.armed || (!e.cur && !e.prev)

/-- R29 to R32 and R49 for an oscillator. -/
def oscOk (p : Config.Params) (o : OscState) : Bool :=
  unitPhase o.phase && nonNegative o.freq
    && o.bsq.length == p.win && o.bsaw.length == p.win
    && o.psq == o.psaw && o.psq < p.win

/-- R33 to R35 and R49 for a divider. -/
def divOk (d : DivState) : Bool :=
  1 ≤ d.maxN.toInt && d.maxN.toInt ≤ 64
    && (d.n.toInt == 0 || (1 ≤ d.n.toInt && d.n.toInt ≤ d.maxN.toInt))
    && -1 ≤ d.count.toInt && d.count.toInt ≤ 63
    && edOk d.ed

/-- R39 and R49 for a converter. -/
def convOk (c : ConvState) : Bool := unitPhase c.phase && edOk c.ed

/-- R22, R23, R211: no error has been latched and both words are 0, or STATUS holds ERR and a cause of 1 to 5. -/
def latchOk (status errcmd : Word) : Bool :=
  (status == 0#32 && errcmd == 0#32) || status == 0x11#32 || status == 0x21#32 || status == 0x31#32
    || status == 0x41#32 || status == 0x51#32

/-- The invariant of the CORE: legal parameters and the invariants of every instance (R49). -/
def State.inv (s : State) : Bool :=
  legalCounts s.counts && legalParams s.params && latchOk s.status s.errcmd
    && s.eds.all edOk && s.oscs.all (oscOk s.params) && s.divs.all divOk && s.convs.all convOk

/-! ### The checks on a command word (60_exceptions.md R211, R212) -/

/-- The OPs each class assigns (30_encoding.md R79). -/
def assignedOp (w : Word) : Bool :=
  match (fieldClass w).toNat, (w.extractLsb' 24 4).toNat with
  | 0, op => op ≤ 1 || op == 15
  | 1, op => op ≤ 4 || op == 15
  | 2, op => op ≤ 2 || op == 15
  | 3, op => op ≤ 4 || op == 15
  | 4, op => op ≤ 1 || op == 15
  | _, _  => false

/-- A GET: OP 15 of its class (30_encoding.md R77). -/
def isGet (w : Word) : Bool := w.extractLsb' 24 4 == 15#4

/-- IDX names no instance (R211, BAD_INDEX). -/
def indexBad (c : Config.Counts) (w : Word) : Bool :=
  match (fieldClass w).toNat with
  | 0 => fieldIdx w != 0#8
  | 1 => c.ned ≤ (fieldIdx w).toNat
  | 2 => c.nosc ≤ (fieldIdx w).toNat
  | 3 => c.ndiv ≤ (fieldIdx w).toNat
  | 4 => c.nconv ≤ (fieldIdx w).toNat
  | _ => false

/-- The REG of a GET is not in its class's table (R211, BAD_REG). -/
def regBad (win : Nat) (w : Word) : Bool :=
  match (fieldClass w).toNat with
  | 0 => !coreRegListed (fieldReg w)
  | 1 => !edRegListed (fieldReg w)
  | 2 => !oscRegListed win (fieldReg w)
  | 3 => !divRegListed (fieldReg w)
  | 4 => !convRegListed (fieldReg w)
  | _ => false

/-- The first failing check of a command word, in the order of R212; none when every check passes. -/
def firstCause (c : Config.Counts) (win : Nat) (w : Word) : Option Cause :=
  if 5 ≤ (fieldClass w).toNat then some .illegalClass
  else if !assignedOp w then some .illegalOp
  else if fieldRsv w != 0#8 || (!isGet w && fieldReg w != 0#8) then some .reserved
  else if indexBad c w then some .badIndex
  else if isGet w && regBad win w then some .badReg
  else none

/-! ### Which instance a command addresses (10_state.md R47) -/

/-- The unit classes (00_scope.md R1). -/
inductive UnitClass where
  | ed | osc | div | conv
deriving DecidableEq, Repr

/-- The class and index a command addresses; none for a command of class 0. -/
def target : Instr → Option (UnitClass × Nat)
  | .coreNop | .coreReset | .coreGet _ => none
  | .edSet k _ | .edReset k | .edRising k | .edTrailing k | .edAny k | .edGet k _ => some (.ed, k.toNat)
  | .oscSetf k _ | .oscProc k _ | .oscReset k | .oscGet k _ => some (.osc, k.toNat)
  | .divProc k _ | .divSetn k _ | .divSetmaxn k _ | .divSetmode k _ | .divReset k | .divGet k _ => some (.div, k.toNat)
  | .convTosaw k _ _ _ | .convReset k | .convGet k _ => some (.conv, k.toNat)

/-- Two states hold the same instance `j` of class `u`, or neither has one. -/
def sameUnit (u : UnitClass) (j : Nat) (s t : State) : Prop :=
  match u with
  | .ed   => s.eds[j]? = t.eds[j]?
  | .osc  => s.oscs[j]? = t.oscs[j]?
  | .div  => s.divs[j]? = t.divs[j]?
  | .conv => s.convs[j]? = t.convs[j]?

/-- The setters and resets that repeating changes nothing (20_memory.md R56): OSC.SETF, DIV.SETN, DIV.SETMAXN,
DIV.SETMODE and every RESET. ED.SET is not one of them. -/
def idempotentCommand : Instr → Bool
  | .oscSetf _ _ | .divSetn _ _ | .divSetmaxn _ _ | .divSetmode _ _ => true
  | .coreReset | .edReset _ | .oscReset _ | .divReset _ | .convReset _ => true
  | .coreNop | .coreGet _ => false
  | .edSet _ _ | .edRising _ | .edTrailing _ | .edAny _ | .edGet _ _ => false
  | .oscProc _ _ | .oscGet _ _ => false
  | .divProc _ _ | .divGet _ _ => false
  | .convTosaw _ _ _ _ | .convGet _ _ => false

/-- A finite datum of magnitude at most `bound` units of 2^-149. -/
def magAtMost (bound : Nat) : Fp → Bool
  | .nan _   => false
  | .inf _   => false
  | .fin _ m => m ≤ bound

/-! ### Finite rings and outputs (10_state.md R31; 42_oscillator.md R137; notes/assumptions/10.md) -/

/-- The bound of one term that BlepInsert adds, with table entries of magnitude at most 2^a: the jump is 2, and the
interpolation of 42_oscillator.md R124 stays below 3 * 2^a. -/
def termBound (a : Nat) : Nat := 6 * 2 ^ a * unitMag

/-- Every entry of a ring is finite, and the one consumed j samples from now is within one term for each of the
L - 1 - j samples since it was last cleared. -/
def ringWithin (p : Config.Params) (a : Nat) (ring : List Word) (rd : Nat) : Bool :=
  (List.range p.win).all fun j =>
    magAtMost ((p.win - 1 - j) * termBound a) (Fp.ofBits (ring.getD ((rd + j) % p.win) 0x00000000#32))

/-- Both rings of an oscillator are within their bounds. -/
def ringsWithin (p : Config.Params) (a : Nat) (o : OscState) : Bool :=
  ringWithin p a o.bsq o.psq && ringWithin p a o.bsaw o.psaw

/-- Every entry of the residual table has magnitude at most 2^a. -/
def tableWithin (p : Config.Params) (a : Nat) : Bool :=
  (List.range (p.win * p.oversamp + 1)).all fun k => magAtMost (2 ^ a * unitMag) (tableEntry p k)

/-- With entries of magnitude at most 2^a and a scale of at most 2^(118 - a) no ring entry and no output overflows: an
entry stays below 2^(a + 9) and an output below 2^127. -/
def roomAt (p : Config.Params) (a : Nat) : Bool :=
  tableWithin p a && magAtMost (2 ^ (118 - a) * unitMag) (Fp.ofBits p.oscScale)

/-- Parameters under which the rules of the spec hold together: R8 to R14, and room for R31 and R137, which say that
ring entries and outputs are finite. Beyond the room R125 and R128 may overflow, and the rules contradict one another
(DEDUCED; the measure of the room is a DESIGN CHOICE: notes/assumptions/10.md). -/
def describedParams (p : Config.Params) : Bool := legalParams p && (List.range 119).any (roomAt p)

/-- The invariant of a CORE with such parameters: R49's, and a bound on every ring entry that keeps it finite (R31). -/
def State.finiteInv (s : State) : Bool :=
  s.inv && (List.range 119).any fun a => roomAt s.params a && s.oscs.all (ringsWithin s.params a)

/-! ### Rounding once (00_scope.md R18) -/

/-- The exact value num / den units of 2^-149, rounded once; a magnitude of 2^128 or more is an infinity
(notes/assumptions/13.md). -/
def roundedOnce (neg : Bool) (num den : Nat) : Fp :=
  if 2 ^ 149 * 2 ^ 128 ≤ roundRatio num den then .inf neg else .fin neg (roundRatio num den)

/-! ### Registers and runs of one unit -/

/-- The FLAGS word of a detector: bit 0 rising, bit 1 trailing, bit 2 any (10_state.md R42). -/
def flagsOf (e : EdState) : Word :=
  (if e.prev = false ∧ e.cur = true then 1#32 else 0#32) + (if e.prev = true ∧ e.cur = false then 2#32 else 0#32)
    + (if e.prev = e.cur then 0#32 else 4#32)

/-- The states of a detector after each input of a list (41_edge_detector.md R109). -/
def edTrace (p : Config.Params) : EdState → List Fp → List EdState
  | _, []      => []
  | e, x :: xs => edFeed p e x :: edTrace p (edFeed p e x) xs

/-- An oscillator after one sample for each dt of a list. -/
def oscRun (p : Config.Params) (o : OscState) (dts : List Word) : OscState :=
  dts.foldl (fun o dt => (oscSample p o (operandF dt)).1) o

/-- A divider after `e` counted edges (43_divider.md R160). -/
def countedEdges (d : DivState) : Nat → DivState
  | 0     => d
  | e + 1 => divCount (countedEdges d e)

end Sys2Proof.Machine
end

