-- ==== Sys2Proof/Certificates/Slice0/Obligations.lean ====
section
/-! DEFINITION. The statements for the provers. OBLIGATIONS.json says which rule each one rests on. -/

open Sys2Proof Sys2Proof.Machine

/-! ### Encoding (30_encoding.md; 20_memory.md) -/

/-- The worked encodings of 30_encoding.md R85: what the assembler makes, what the encoder makes, and what the
decoder reads from the bytes. -/
def Obligations.WorkedEncodingsDecode : Prop :=
  ∀ row ∈ ([ ("OSC.PROC 0, 0.25", .oscProc 0#8 0x3E800000#32, [0x21000000#32, 0x3E800000#32]),
             ("DIV.SETN 2, 4", .divSetn 2#8 4#32, [0x31020000#32, 0x00000004#32]),
             ("CONV.TOSAW 0, -5.0, 100.0, 0.001", .convTosaw 0#8 0xC0A00000#32 0x42C80000#32 0x3A83126F#32,
               [0x40000000#32, 0xC0A00000#32, 0x42C80000#32, 0x3A83126F#32]),
             ("ED.GET 0, 0x03", .edGet 0#8 0x03#8, [0x1F000003#32]),
             ("CORE.GET 0x02", .coreGet 0x02#8, [0x0F000002#32]),
             ("DIV.SETMODE 0, 1", .divSetmode 0#8 1#32, [0x33000000#32, 0x00000001#32]) ]
            : List (String × Instr × List Word)),
    Asm.assemble row.1 = some row.2.2 ∧ encode row.2.1 = row.2.2 ∧
      fetch (row.2.2.flatMap wordBytes) = .command row.2.1 []

/-- The pseudo-instructions expand as 30_encoding.md R84 lists them, here for instance 1. -/
def Obligations.PseudoInstructionsExpand : Prop :=
  ∀ row ∈ ([ ("CORE.STATUS", [.coreGet 0x00#8]), ("CORE.ERRCMD", [.coreGet 0x01#8]),
             ("ED.FLAGS 1", [.edGet 1#8 0x03#8]), ("OSC.PHASE 1", [.oscGet 1#8 0x00#8]),
             ("OSC.TICK 1, 2, 0.25", [.oscSetf 1#8 0x40000000#32, .oscProc 1#8 0x3E800000#32]),
             ("DIV.DOWN 1", [.divSetmode 1#8 0#32]), ("DIV.UP 1", [.divSetmode 1#8 1#32]),
             ("DIV.COUNT 1", [.divGet 1#8 0x00#8]), ("DIV.PHASE 1", [.divGet 1#8 0x04#8]),
             ("DIV.FLAGS 1", [.divGet 1#8 0x0B#8]), ("CONV.PHASE 1", [.convGet 1#8 0x00#8]),
             ("CONV.FLAGS 1", [.convGet 1#8 0x0B#8]) ] : List (String × List Instr)),
    Asm.assemble row.1 = some (row.2.flatMap encode)

/-- Decoding the bytes of an instruction gives it back, whatever follows them, for every value of every operand. -/
def Obligations.DecodeOfEncode : Prop :=
  ∀ (i : Instr) (rest : List Byte), fetch (encodeBytes i ++ rest) = .command i rest

/-- An instruction is read from no bytes but its own encoding. -/
def Obligations.EncodeOfDecode : Prop :=
  ∀ (link : List Byte) (i : Instr) (rest : List Byte),
    fetch link = .command i rest → link = encodeBytes i ++ rest

/-- A command word decodes to an instruction of a row exactly when it matches the row, and at most one row matches it
(30_encoding.md R77). -/
def Obligations.DecodingAgreesWithOpcodeTable : Prop :=
  (∀ (w : Word) (operands : List Word) (name : String),
    (∃ i, decode w operands = .instr i ∧ mnemonicOf i = name) ↔
      ∃ r ∈ opcodeRows, r.mnemonic = name ∧ r.matchesWord w = true) ∧
  (∀ (w : Word), ∀ r ∈ opcodeRows, ∀ r' ∈ opcodeRows, r.matchesWord w = true → r'.matchesWord w = true → r = r')

/-- A command is 1 + K words and returns R words, K and R found from bits 31:24 alone, whether or not it raises an
error; an unassigned (CLASS, OP) has K = 0 and R = 0 (30_encoding.md R72). The link and the results are the model's
fields for what the host sends and receives (notes/assumptions/1.md). -/
def Obligations.CommandLengthRule : Prop :=
  (∀ w w' : Word, fieldOp w = fieldOp w' → operandCount w = operandCount w' ∧ resultCount w = resultCount w') ∧
  (∀ w : Word, (5 ≤ (fieldClass w).toNat ∨ assignedOp w = false) → operandCount w = 0 ∧ resultCount w = 0) ∧
  (∀ (s : State) (w : Word) (operands : List Word) (rest : List Byte),
    s.link = wordBytes w ++ (operands.flatMap wordBytes ++ rest) → operands.length = operandCount w →
    ∃ t rs, step s = .next t ∧ t.link = rest ∧ t.results = s.results ++ rs ∧ rs.length = resultCount w ∧
      (firstCause s.counts s.params.win w ≠ none → rs = List.replicate (resultCount w) 0x00000000#32))

/-- While the link holds no whole command the CORE waits and nothing changes (20_memory.md R54; 60_exceptions.md
R222): fewer than four bytes, or a command word whose operand words are not all there. That a waiting CORE takes a
step that changes nothing, and that it waits for the operand words too, is the model's reading
(notes/assumptions/3.md, 8.md). -/
def Obligations.PartialCommandWaits : Prop :=
  (∀ s : State, s.link.length < 4 → step s = .next s) ∧
  (∀ (s : State) (w : Word) (tail : List Byte),
    s.link = wordBytes w ++ tail → tail.length < 4 * operandCount w → step s = .next s)

/-- Words cross the link least significant byte first, in both directions (20_memory.md R53). A link of bytes is the
model's choice (notes/assumptions/1.md). -/
def Obligations.LinkIsLittleEndian : Prop :=
  (∀ b0 b1 b2 b3 : Byte, ∀ rest : List Byte, ∃ w,
    takeWord (b0 :: b1 :: b2 :: b3 :: rest) = some (w, rest) ∧
      w.toNat = b0.toNat + 2 ^ 8 * b1.toNat + 2 ^ 16 * b2.toNat + 2 ^ 24 * b3.toNat) ∧
  (∀ (w : Word) (rest : List Byte), takeWord (wordBytes w ++ rest) = some (w, rest)) ∧
  (∀ (s : State) (w : Word), (s.pushResults [w]).resultBytes = s.resultBytes ++ wordBytes w)

/-- A step runs the decoded instruction on the state whose link lacks the instruction's bytes, and changes nothing
else. When the bytes of an instruction stand at the front of the link, those are the bytes it takes, four for each of
its 1 + K words (30_encoding.md R72; 20_memory.md R53); and whatever instruction the fetch reads is the one that runs.
The link is the model's field (notes/assumptions/1.md). -/
def Obligations.StepRunsDecodedInstruction : Prop :=
  (∀ (s : State) (i : Instr) (rest : List Byte),
    s.link = encodeBytes i ++ rest → step s = exec i { s with link := rest }) ∧
  (∀ i : Instr, (encodeBytes i).length = 4 * (1 + operandCount (commandWord i))) ∧
  (∀ (s : State) (i : Instr) (rest : List Byte),
    fetch s.link = .command i rest → step s = exec i { s with link := rest })

/-- No step stops: each answers a next state. This is the model's reading: that no step faults or refuses is deduced
from 60_exceptions.md R210, R213 and R216 (notes/assumptions/17.md), and that a CORE waiting for a word takes a step at
all, where 20_memory.md R54 says it has none, is notes/assumptions/3.md. -/
def Obligations.EveryStepAnswersNext : Prop := ∀ s : State, ∃ t, step s = .next t

/-! ### Errors (60_exceptions.md) -/

/-- A command word that fails a check takes the first failing cause in the order of R212; the command changes no
unit, consumes its operand words and returns R zero words (R213); the first error is latched (R214). The link and the
results are the model's fields for what the host sends and receives (notes/assumptions/1.md). -/
def Obligations.MalformedCommandEffect : Prop :=
  ∀ (s : State) (w : Word) (operands : List Word) (rest : List Byte) (c : Cause),
    s.link = wordBytes w ++ (operands.flatMap wordBytes ++ rest) → operands.length = operandCount w →
    firstCause s.counts s.params.win w = some c →
    step s = .next { s with
      link    := rest
      results := s.results ++ List.replicate (resultCount w) 0x00000000#32
      status  := if s.status.getLsbD 0 then s.status else (c.code <<< 4) ||| 1#32
      errcmd  := if s.status.getLsbD 0 then s.errcmd else w }

/-- A command word that passes every check runs as a well-formed instruction with that command word and those
operand words. -/
def Obligations.CheckedCommandRuns : Prop :=
  ∀ (s : State) (w : Word) (operands : List Word) (rest : List Byte),
    s.link = wordBytes w ++ (operands.flatMap wordBytes ++ rest) → operands.length = operandCount w →
    firstCause s.counts s.params.win w = none →
    ∃ i, encode i = w :: operands ∧ WellFormed s.counts s.params.win i = true ∧
      step s = exec i { s with link := rest }

/-- The latch (R214, R217; 10_state.md R22, R23): once ERR is set, only a CORE.RESET changes STATUS or ERRCMD; and a
well-formed command other than CORE.RESET never writes them. -/
def Obligations.ErrorLatchIsSticky : Prop :=
  (∀ s t : State, s.status.getLsbD 0 = true → step s = .next t →
    (t.status = s.status ∧ t.errcmd = s.errcmd) ∨ ∃ rest, fetch s.link = .command .coreReset rest) ∧
  (∀ (i : Instr) (s t : State), WellFormed s.counts s.params.win i = true → i ≠ .coreReset → exec i s = .next t →
    t.status = s.status ∧ t.errcmd = s.errcmd)

/-! ### Reset and invariants (70_reset_and_hazards.md; 10_state.md) -/

/-- The power-on state (R241), for every choice of counts and parameters, and the state after CORE.RESET, which
equals it but for what the host has sent and received: that CORE.RESET leaves the model's fields link and results as
they were is the model's reading and not R241's (notes/assumptions/1.md, 12.md). -/
def Obligations.PowerOnState : Prop :=
  (∀ (c : Config.Counts) (p : Config.Params),
    let s := State.powerOn c p
    s.status = 0#32 ∧ s.errcmd = 0#32 ∧ s.counts = c ∧ s.params = p ∧
    (∀ e ∈ s.eds ++ s.divs.map DivState.ed ++ s.convs.map ConvState.ed,
      e.cur = false ∧ e.prev = false ∧ e.armed = false) ∧
    (∀ o ∈ s.oscs, o.phase = 0#32 ∧ o.freq = 0#32 ∧ o.bsq = List.replicate p.win 0#32 ∧
      o.bsaw = List.replicate p.win 0#32 ∧ o.psq = 0 ∧ o.psaw = 0) ∧
    (∀ d ∈ s.divs, d.count.toInt = -1 ∧ d.n.toInt = 0 ∧ d.maxN.toInt = 20 ∧ d.mode = false ∧ d.phase = false) ∧
    (∀ v ∈ s.convs, v.phase = 0#32)) ∧
  (∀ s : State, exec .coreReset s =
    .next { State.powerOn s.counts s.params with link := s.link, results := s.results })

/-- The invariant of R49, with legal parameters, holds of the reset state and of every power-on state with legal
parameters. The reset state's L and O are the model's choice (notes/assumptions/6.md). -/
def Obligations.InvariantHoldsAtReset : Prop :=
  State.reset.inv = true ∧
  ∀ (c : Config.Counts) (p : Config.Params), legalCounts c = true → legalParams p = true →
    (State.powerOn c p).inv = true

/-- Every step keeps the invariant: the phases stay in [0, 1), freq stays no NaN and at least +0, maxN stays in
[1, 64], N in {0} ∪ [1, maxN], count in [-1, 63], and psq = psaw in [0, L-1] (R49). -/
def Obligations.EveryStepKeepsInvariant : Prop :=
  ∀ s t : State, s.inv = true → step s = .next t → t.inv = true

/-- No step changes a parameter or an instance count, so none changes a constant register (R24). -/
def Obligations.ConstantsNeverChange : Prop :=
  ∀ s t : State, step s = .next t → t.params = s.params ∧ t.counts = s.counts

/-! ### Block control (45_core_control.md) -/

/-- CORE.NOP does nothing (R200). -/
def Obligations.CoreNopChangesNothing : Prop := ∀ s : State, exec .coreNop s = .next s

/-- CORE.RESET: what every unit and the latch become (R201). Nothing else changes; that this includes the model's
fields link and results is the model's reading and not R201's (notes/assumptions/12.md). -/
def Obligations.CoreResetResult : Prop :=
  ∀ s : State, exec .coreReset s = .next { s with
    eds    := s.eds.map fun _ => { cur := false, prev := false, armed := false }
    oscs   := s.oscs.map fun _ =>
      { phase := 0#32, freq := 0#32, bsq := List.replicate s.params.win 0#32,
        bsaw := List.replicate s.params.win 0#32, psq := 0, psaw := 0 }
    divs   := s.divs.map fun _ =>
      { count := BitVec.ofInt 32 (-1), n := 0#32, maxN := 20#32, mode := false, phase := false,
        ed := { cur := false, prev := false, armed := false } }
    convs  := s.convs.map fun _ => { phase := 0#32, ed := { cur := false, prev := false, armed := false } }
    status := 0#32
    errcmd := 0#32 }

/-- CORE.GET returns the register's word and changes nothing (R202; 10_state.md R22 to R24, R41). A reg above 0x0B is
a case of MalformedCommandEffect. -/
def Obligations.CoreGetResult : Prop :=
  ∀ (s : State), legalCounts s.counts = true → legalParams s.params = true → ∀ row ∈ ([
      (0x00#8, s.status), (0x01#8, s.errcmd), (0x02#8, 0x524E0007#32),
      (0x03#8, BitVec.ofNat 32 (s.oscs.length + 2 ^ 8 * s.divs.length + 2 ^ 16 * s.convs.length + 2 ^ 24 * s.eds.length)),
      (0x04#8, BitVec.ofNat 32 (s.params.win + 2 ^ 8 * s.params.oversamp + 2 ^ 16 * 64 + 2 ^ 24 * 20)),
      (0x05#8, s.params.thLo), (0x06#8, s.params.thHi), (0x07#8, s.params.incMax), (0x08#8, s.params.oscScale),
      (0x09#8, s.params.divLevel), (0x0A#8, s.params.convGain), (0x0B#8, s.params.convOffset) ] : List (Byte × Word)),
    exec (.coreGet row.1) s = .next { s with results := s.results ++ [row.2] }

/-! ### EdgeDetector (41_edge_detector.md) -/

/-- Classify (R100), with its corner cases: a NaN, and an input equal to either threshold, hold the classification;
-0.0 compares equal to +0.0. -/
def Obligations.ClassifyHysteresis : Prop :=
  ∀ (p : Config.Params) (c : Bool) (x : Fp), legalParams p = true →
    let lo := Fp.ofBits p.thLo
    let hi := Fp.ofBits p.thHi
    (flt hi x = true → classify p c x = true) ∧
    (flt x lo = true → classify p c x = false) ∧
    (flt hi x = false → flt x lo = false → classify p c x = c) ∧
    (x.isNaN = true → classify p c x = c) ∧
    (feq x hi = true → classify p c x = c) ∧
    (feq x lo = true → classify p c x = c) ∧
    feq (Fp.ofBits 0x80000000#32) (Fp.ofBits 0x00000000#32) = true

/-- ED.SET (R101, R103): the new classification; no edge on the first set after a reset. Nothing else changes. -/
def Obligations.EdSetResult : Prop :=
  ∀ (s : State) (k : Byte) (x : Word) (e : EdState), s.eds[k.toNat]? = some e →
    let v := Fp.ofBits x
    let n := if fgt v (Fp.ofBits s.params.thHi) then true
             else if flt v (Fp.ofBits s.params.thLo) then false else e.cur
    exec (.edSet k x) s = .next { s with
      eds := s.eds.set k.toNat { cur := n, prev := if e.armed then e.cur else n, armed := true } }

/-- ED.RESET (R102, R104). Nothing else changes. -/
def Obligations.EdResetResult : Prop :=
  ∀ (s : State) (k : Byte) (e : EdState), s.eds[k.toNat]? = some e →
    exec (.edReset k) s = .next { s with eds := s.eds.set k.toNat { cur := false, prev := false, armed := false } }

/-- ED.RISING, ED.TRAILING and ED.ANY return the flag of 10_state.md R28 and change nothing (R105 to R107). -/
def Obligations.EdQueriesReturnFlags : Prop :=
  ∀ (s : State) (k : Byte) (e : EdState), s.eds[k.toNat]? = some e →
    exec (.edRising k) s =
      .next { s with results := s.results ++ [if e.prev = false ∧ e.cur = true then 1#32 else 0#32] } ∧
    exec (.edTrailing k) s =
      .next { s with results := s.results ++ [if e.prev = true ∧ e.cur = false then 1#32 else 0#32] } ∧
    exec (.edAny k) s = .next { s with results := s.results ++ [if e.prev = e.cur then 0#32 else 1#32] }

/-- ED.GET returns the register's word and changes nothing (R108; 10_state.md R42). A reg above 0x03 is a case of
MalformedCommandEffect. -/
def Obligations.EdGetResult : Prop :=
  ∀ (s : State) (k : Byte) (e : EdState), s.eds[k.toNat]? = some e → ∀ row ∈ ([
      (0x00#8, if e.cur then 1#32 else 0#32), (0x01#8, if e.prev then 1#32 else 0#32),
      (0x02#8, if e.armed then 1#32 else 0#32), (0x03#8, flagsOf e) ] : List (Byte × Word)),
    exec (.edGet k row.1) s = .next { s with results := s.results ++ [row.2] }

/-- Schmitt behaviour (R109): an armed detector rises only above TH_HI and falls only below TH_LO, an input inside
the band changes nothing and reports no edge, and the edges alternate: between two successive rising edges lies
exactly one trailing edge, and between two successive trailing edges exactly one rising edge. -/
def Obligations.SchmittTrigger : Prop :=
  (∀ (p : Config.Params) (e : EdState) (x : Fp), e.armed = true →
    (e.cur = false → (edFeed p e x).cur = true → flt (Fp.ofBits p.thHi) x = true) ∧
    (e.cur = true → (edFeed p e x).cur = false → flt x (Fp.ofBits p.thLo) = true) ∧
    (fle (Fp.ofBits p.thLo) x = true → fle x (Fp.ofBits p.thHi) = true →
      (edFeed p e x).cur = e.cur ∧ (edFeed p e x).anyEdge = false)) ∧
  (∀ (p : Config.Params) (e : EdState) (xs : List Fp) (i j : Nat), i < j →
    (edTrace p e xs)[i]?.map EdState.rising = some true → (edTrace p e xs)[j]?.map EdState.rising = some true →
    (∀ m, i < m → m < j → (edTrace p e xs)[m]?.map EdState.rising ≠ some true) →
    ∃! m, i < m ∧ m < j ∧ (edTrace p e xs)[m]?.map EdState.trailing = some true) ∧
  (∀ (p : Config.Params) (e : EdState) (xs : List Fp) (i j : Nat), i < j →
    (edTrace p e xs)[i]?.map EdState.trailing = some true → (edTrace p e xs)[j]?.map EdState.trailing = some true →
    (∀ m, i < m → m < j → (edTrace p e xs)[m]?.map EdState.trailing ≠ some true) →
    ∃! m, i < m ∧ m < j ∧ (edTrace p e xs)[m]?.map EdState.rising = some true)

/-! ### BandLimitedOscillator (42_oscillator.md) -/

/-- OSC.SETF stores the operand if it is above 0, else +0.0 (R129). Nothing else changes. -/
def Obligations.OscSetfResult : Prop :=
  ∀ (s : State) (k : Byte) (f : Word) (o : OscState), s.oscs[k.toNat]? = some o →
    exec (.oscSetf k f) s = .next { s with
      oscs := s.oscs.set k.toNat { o with freq := if fgt (Fp.ofBits f) fpZero then f else 0x00000000#32 } }

/-- OSC.PROC, step by step as R130 writes it. Nothing but the oscillator and the two result words changes. -/
def Obligations.OscProcResult : Prop :=
  ∀ (s : State) (k : Byte) (dt : Word) (o : OscState), s.oscs[k.toNat]? = some o →
    let p := s.params
    let x := fmul (Fp.ofBits o.freq) (Fp.ofBits dt)
    let inc := if fgt x fpZero then fmin x (Fp.ofBits p.incMax) else fpZero
    let p0 := Fp.ofBits o.phase
    let t := fadd p0 inc
    let wrapped := fge t fpOne
    let p1 := if wrapped then fsub t fpOne else t
    let half := !wrapped && flt p0 fpHalf && fge t fpHalf
    let bsq := if wrapped then blepInsert p o.bsq o.psq (fmin (fdiv p1 inc) fpOne) fpTwo
               else if half then blepInsert p o.bsq o.psq (fmin (fdiv (fsub t fpHalf) inc) fpOne) fpNegTwo
               else o.bsq
    let bsaw := if wrapped then blepInsert p o.bsaw o.psaw (fmin (fdiv p1 inc) fpOne) fpNegTwo else o.bsaw
    let nsq := if flt p1 fpHalf then fpOne else fpNegOne
    let nsaw := fsub (fmul fpTwo p1) fpOne
    let scale := Fp.ofBits p.oscScale
    exec (.oscProc k dt) s = .next { s with
      oscs := s.oscs.set k.toNat
        { phase := p1.toBits, freq := o.freq,
          bsq := bsq.set o.psq 0x00000000#32, psq := (o.psq + 1) % p.win,
          bsaw := bsaw.set o.psaw 0x00000000#32, psaw := (o.psaw + 1) % p.win }
      results := s.results ++
        [(fmul scale (fadd nsq (Fp.ofBits (bsq.getD o.psq 0x00000000#32)))).toBits,
         (fmul scale (fadd nsaw (Fp.ofBits (bsaw.getD o.psaw 0x00000000#32)))).toBits] }

/-- OSC.RESET clears the phase and the rings and keeps freq (R131). Nothing else changes. -/
def Obligations.OscResetResult : Prop :=
  ∀ (s : State) (k : Byte) (o : OscState), s.oscs[k.toNat]? = some o →
    exec (.oscReset k) s = .next { s with
      oscs := s.oscs.set k.toNat
        { phase := 0x00000000#32, freq := o.freq, bsq := List.replicate s.params.win 0x00000000#32,
          bsaw := List.replicate s.params.win 0x00000000#32, psq := 0, psaw := 0 } }

/-- OSC.GET returns the register's word and changes nothing (R132; 10_state.md R43). A reg outside the table is a
case of MalformedCommandEffect. -/
def Obligations.OscGetResult : Prop :=
  ∀ (s : State) (k : Byte) (o : OscState), s.oscs[k.toNat]? = some o →
    (∀ row ∈ ([ (0x00#8, o.phase), (0x01#8, o.freq), (0x02#8, BitVec.ofNat 32 o.psq),
                (0x03#8, BitVec.ofNat 32 o.psaw) ] : List (Byte × Word)),
      exec (.oscGet k row.1) s = .next { s with results := s.results ++ [row.2] }) ∧
    (∀ i : Nat, i < s.params.win → s.params.win ≤ 64 →
      exec (.oscGet k (BitVec.ofNat 8 (0x40 + i))) s =
        .next { s with results := s.results ++ [o.bsq.getD i 0x00000000#32] } ∧
      exec (.oscGet k (BitVec.ofNat 8 (0x80 + i))) s =
        .next { s with results := s.results ++ [o.bsaw.getD i 0x00000000#32] })

/-- The advance and wrap of R121: from a phase in [0, 1) and a clamped increment, s is below 1.5, the subtraction of
1.0 is exact, and p1 is in [0, 1). -/
def Obligations.WrapIsExact : Prop :=
  ∀ (p : Config.Params) (w : Word) (x : Fp), legalParams p = true → unitPhase w = true →
    ∃ m, fadd (Fp.ofBits w) (clampInc p x) = .fin false m ∧ 2 * m < 3 * unitMag ∧
      oscWrap (.fin false m) = .fin false (if unitMag ≤ m then m - unitMag else m) ∧
      (if unitMag ≤ m then m - unitMag else m) < unitMag

/-- The wrap and the square's sign flip at 0.5 never fall in the same sample, and after a wrap the square is +1
(R134). -/
def Obligations.OneDiscontinuityPerSample : Prop :=
  ∀ (p : Config.Params) (w : Word) (x : Fp), legalParams p = true → unitPhase w = true →
    let s := fadd (Fp.ofBits w) (clampInc p x)
    oscWrapped s = true → flt (Fp.ofBits w) fpHalf = false ∧ naiveSquare (oscWrap s) = fpOne

/-- An event implies a positive increment, and the sub-sample offset is in [0, 1] (R123). -/
def Obligations.OffsetWithinSample : Prop :=
  ∀ (p : Config.Params) (w : Word) (x : Fp), legalParams p = true → unitPhase w = true →
    let inc := clampInc p x
    let s := fadd (Fp.ofBits w) inc
    let within (num : Fp) : Prop :=
      flt fpZero inc = true ∧ fle fpZero (subSample num inc) = true ∧ fle (subSample num inc) fpOne = true
    (oscEvent (Fp.ofBits w) s = .wrap → within (oscWrap s)) ∧
    (oscEvent (Fp.ofBits w) s = .half → within (fsub s fpHalf))

/-- What ResE reads (R124): with pf = t * O finite, i is the floor of pf clamped to [0, L*O - 1], fr is pf - i, and
ResE(t) is E[i] + fr * (E[i+1] - E[i]). Entry k of a listed table is its k-th word; of every legal table the entries
up to L*O are finite and the last is zero (00_scope.md R11); so a correction decays to zero at the end of its window:
ResE(L) is zero. -/
def Obligations.ResidualEndsAtZero : Prop :=
  (∀ p : Config.Params, legalParams p = true → feq (resE p (itof p.win)) fpZero = true) ∧
  (∀ (p : Config.Params) (t : Fp) (neg : Bool) (mag : Nat), legalParams p = true →
    fmul t (itof p.oversamp) = .fin neg mag →
    let floor : Int := signedMag neg mag / (unitMag : Int)
    let last : Int := (p.win : Int) * p.oversamp - 1
    let i : Nat := (if floor < 0 then 0 else if last < floor then last else floor).toNat
    resE p t = fadd (tableEntry p i)
      (fmul (fsub (.fin neg mag) (itof i)) (fsub (tableEntry p (i + 1)) (tableEntry p i)))) ∧
  (∀ (p : Config.Params) (ws : List Word) (k : Nat) (w : Word),
    p.table = .listed ws → ws[k]? = some w → tableEntry p k = Fp.ofBits w) ∧
  (∀ p : Config.Params, legalParams p = true →
    (∀ k, k ≤ p.win * p.oversamp → isfinite (tableEntry p k) = true) ∧
    feq (tableEntry p (p.win * p.oversamp)) fpZero = true)

/-- BlepInsert adds jump * ResE(j + d) to entry (p + j) mod L, once for each j below L, on top of what earlier steps
left there, and keeps the ring's length; the read index reaches that entry after j samples (R125). -/
def Obligations.BlepInsertAddsOneTermPerEntry : Prop :=
  ∀ (p : Config.Params) (ring : List Word) (rd : Nat) (d jump : Fp), ring.length = p.win → rd < p.win →
    (blepInsert p ring rd d jump).length = p.win ∧
    ∀ j, j < p.win →
      (blepInsert p ring rd d jump)[(rd + j) % p.win]? =
        (ring[(rd + j) % p.win]?.map fun b => (fadd (Fp.ofBits b) (fmul jump (resE p (fadd (itof j) d)))).toBits) ∧
      Nat.iterate (ringNext p) j rd = (rd + j) % p.win

/-- Zero frequency (R133): while the increment is 0 the phase holds and no step is inserted; after L samples both
rings are empty, and from then on both outputs are the scale times the naive values. -/
def Obligations.ZeroIncrementHoldsAndDrains : Prop :=
  ∀ (p : Config.Params) (o : OscState) (dts : List Word) (dt : Word), legalParams p = true → oscOk p o = true →
    (∀ x ∈ dt :: dts, oscInc p o (operandF x) = fpZero) →
    let o' := oscRun p o dts
    o'.phase = o.phase ∧ o'.freq = o.freq ∧
    (oscSample p o (operandF dt)).1.bsq = o.bsq.set o.psq 0x00000000#32 ∧
    (oscSample p o (operandF dt)).1.bsaw = o.bsaw.set o.psaw 0x00000000#32 ∧
    (p.win ≤ dts.length →
      o'.bsq = List.replicate p.win 0x00000000#32 ∧ o'.bsaw = List.replicate p.win 0x00000000#32 ∧
      (oscSample p o' (operandF dt)).2 =
        [(fmul (Fp.ofBits p.oscScale) (naiveSquare (Fp.ofBits o.phase))).toBits,
         (fmul (Fp.ofBits p.oscScale) (naiveSaw (Fp.ofBits o.phase))).toBits])

/-- Naive match (R136): a correction of +0.0 leaves the naive values exactly, for every phase in [0, 1); neither naive
value is -0.0; and adding +0.0 keeps every datum but -0.0. R136 says this of every x: for a NaN the statement says
only that the sum is a NaN, since its bits are open (notes/assumptions/4.md, 13.md). -/
def Obligations.NaiveMatchWithoutCorrection : Prop :=
  ∀ (p : Config.Params) (w : Word), unitPhase w = true →
    oscOutput p (naiveSquare (Fp.ofBits w)) fpZero = fmul (Fp.ofBits p.oscScale) (naiveSquare (Fp.ofBits w)) ∧
    oscOutput p (naiveSaw (Fp.ofBits w)) fpZero = fmul (Fp.ofBits p.oscScale) (naiveSaw (Fp.ofBits w)) ∧
    naiveSquare (Fp.ofBits w) ≠ .fin true 0 ∧ naiveSaw (Fp.ofBits w) ≠ .fin true 0 ∧
    ∀ v : Word, v ≠ 0x80000000#32 →
      if (Fp.ofBits v).isNaN then (fadd (Fp.ofBits v) fpZero).isNaN = true
      else fadd (Fp.ofBits v) fpZero = Fp.ofBits v

/-- R137's first sentence, and R31's last (10_state.md), as the spec words them: with any finite table and any finite
scale, every output from power-on is finite and every ring entry stays finite. Expected to FAIL: a finite scale, or a
table entry, near the largest binary32 value overflows (notes/assumptions/10.md). -/
def Obligations.OscOutputsFiniteForEveryTable : Prop :=
  ∀ (p : Config.Params) (f dt : Word) (dts : List Word), legalParams p = true →
    let o := oscRun p { OscState.powerOn p.win with freq := clampFreq f } dts
    (∀ w ∈ (oscSample p o (operandF dt)).2, finiteWord w = true) ∧ (∀ w ∈ o.bsq ++ o.bsaw, finiteWord w = true)

/-- R31 (every ring entry is finite) and R137 with bounds. With table entries of magnitude at most 2^a, a at most 118,
a bound on every ring entry holds at power-on and is kept by every step; with a scale of magnitude at most 2^b besides,
a + b at most 118, an oscillator within the bound has finite rings and returns finite outputs; and so does every run
from power-on. So for parameters with room below overflow, the reference CORE's among them, R31 and R137
hold: the invariant finiteInv holds at reset and at power-on, every step keeps it, and under it every ring entry
and every output is finite. The bounds are the model's (notes/assumptions/5.md, 10.md). -/
def Obligations.OscOutputsFiniteForBoundedTable : Prop :=
  (∀ (p : Config.Params) (a : Nat), ringsWithin p a (OscState.powerOn p.win) = true) ∧
  (∀ (s t : State) (a : Nat), s.inv = true → a ≤ 118 → tableWithin s.params a = true →
    (∀ o ∈ s.oscs, ringsWithin s.params a o = true) → step s = .next t →
    ∀ o ∈ t.oscs, ringsWithin t.params a o = true) ∧
  (∀ (p : Config.Params) (o : OscState) (dt : Word) (a b : Nat), legalParams p = true → oscOk p o = true →
    a + b ≤ 118 → tableWithin p a = true → magAtMost (2 ^ b * unitMag) (Fp.ofBits p.oscScale) = true →
    ringsWithin p a o = true →
    (∀ w ∈ (oscSample p o (operandF dt)).2, finiteWord w = true) ∧ (∀ w ∈ o.bsq ++ o.bsaw, finiteWord w = true)) ∧
  (∀ (p : Config.Params) (f dt : Word) (dts : List Word) (a b : Nat), legalParams p = true →
    a + b ≤ 118 → tableWithin p a = true → magAtMost (2 ^ b * unitMag) (Fp.ofBits p.oscScale) = true →
    let o := oscRun p { OscState.powerOn p.win with freq := clampFreq f } dts
    (∀ w ∈ (oscSample p o (operandF dt)).2, finiteWord w = true) ∧ (∀ w ∈ o.bsq ++ o.bsaw, finiteWord w = true)) ∧
  describedParams Config.defaultParams = true ∧ State.reset.finiteInv = true ∧
  (∀ (c : Config.Counts) (p : Config.Params), legalCounts c = true → describedParams p = true →
    (State.powerOn c p).finiteInv = true) ∧
  (∀ s t : State, s.finiteInv = true → step s = .next t → t.finiteInv = true) ∧
  (∀ s : State, s.finiteInv = true → ∀ o ∈ s.oscs,
    (∀ w ∈ o.bsq ++ o.bsaw, finiteWord w = true) ∧
    ∀ dt : Word, ∀ w ∈ (oscSample s.params o (operandF dt)).2, finiteWord w = true)

/-! ### FrequencyDivider (43_divider.md) -/

/-- DivCount (R151) on the integers, for a count and a divisor in their ranges (R150: count + 1 never overflows). -/
def Obligations.DivCountRule : Prop :=
  ∀ d : DivState, divOk d = true →
    let c := d.count.toInt + 1
    (divCount d).count.toInt = (if d.n.toInt ≤ c then 0 else c) ∧
    (divCount d).phase =
      (if d.mode then (if d.n.toInt ≤ c then !d.phase else d.phase)
       else (if d.n.toInt ≤ c ∨ c = 0 then !d.phase else d.phase)) ∧
    (divCount d).n = d.n ∧ (divCount d).maxN = d.maxN ∧ (divCount d).mode = d.mode ∧ (divCount d).ed = d.ed

/-- DIV.PROC (R152): the detector takes the sample, an edge is counted, and the phase and the level are returned.
Nothing else changes. The sign of -DIV_LEVEL when DIV_LEVEL is a zero is the model's choice (notes/assumptions/19.md). -/
def Obligations.DivProcResult : Prop :=
  ∀ (s : State) (k : Byte) (clk : Word) (d : DivState), s.divs[k.toNat]? = some d →
    let e := edFeed s.params d.ed (Fp.ofBits clk)
    let d' := if e.prev = e.cur then { d with ed := e } else divCount { d with ed := e }
    let level := Fp.ofBits s.params.divLevel
    exec (.divProc k clk) s = .next { s with
      divs    := s.divs.set k.toNat d'
      results := s.results ++
        [if d'.phase then 1#32 else 0#32, (if d'.phase then level else level.negate).toBits] }

/-- DIV.SETN clamps the operand into [1, maxN], signed (R153). Nothing else changes. -/
def Obligations.DivSetnResult : Prop :=
  ∀ (s : State) (k : Byte) (n : Word) (d : DivState), s.divs[k.toNat]? = some d →
    exec (.divSetn k n) s = .next { s with
      divs := s.divs.set k.toNat { d with
        n := BitVec.ofInt 32 (if n.toInt < 1 then 1 else if d.maxN.toInt < n.toInt then d.maxN.toInt else n.toInt) } }

/-- DIV.SETMAXN clamps the operand into [1, 64], signed, and lowers N to it (R154). Nothing else changes. -/
def Obligations.DivSetmaxnResult : Prop :=
  ∀ (s : State) (k : Byte) (m : Word) (d : DivState), s.divs[k.toNat]? = some d →
    let maxN := if m.toInt < 1 then 1 else if 64 < m.toInt then 64 else m.toInt
    exec (.divSetmaxn k m) s = .next { s with
      divs := s.divs.set k.toNat { d with
        maxN := BitVec.ofInt 32 maxN
        n    := if maxN < d.n.toInt then BitVec.ofInt 32 maxN else d.n } }

/-- DIV.SETMODE takes 0 and 1 and ignores every other value (R155). Nothing else changes. -/
def Obligations.DivSetmodeResult : Prop :=
  ∀ (s : State) (k : Byte) (mode : Word) (d : DivState), s.divs[k.toNat]? = some d →
    exec (.divSetmode k mode) s = .next { s with
      divs := s.divs.set k.toNat { d with
        mode := if mode.toNat = 0 then false else if mode.toNat = 1 then true else d.mode } }

/-- DIV.RESET (R156): maxN is kept. Nothing else changes. -/
def Obligations.DivResetResult : Prop :=
  ∀ (s : State) (k : Byte) (d : DivState), s.divs[k.toNat]? = some d →
    exec (.divReset k) s = .next { s with
      divs := s.divs.set k.toNat
        { count := BitVec.ofInt 32 (-1), n := 0#32, maxN := d.maxN, mode := false, phase := false,
          ed := { cur := false, prev := false, armed := false } } }

/-- DIV.GET returns the register's word and changes nothing (R157; 10_state.md R44). A reg outside the table is a
case of MalformedCommandEffect. -/
def Obligations.DivGetResult : Prop :=
  ∀ (s : State) (k : Byte) (d : DivState), s.divs[k.toNat]? = some d → ∀ row ∈ ([
      (0x00#8, d.count), (0x01#8, d.n), (0x02#8, d.maxN), (0x03#8, if d.mode then 1#32 else 0#32),
      (0x04#8, if d.phase then 1#32 else 0#32), (0x08#8, if d.ed.cur then 1#32 else 0#32),
      (0x09#8, if d.ed.prev then 1#32 else 0#32), (0x0A#8, if d.ed.armed then 1#32 else 0#32),
      (0x0B#8, flagsOf d.ed) ] : List (Byte × Word)),
    exec (.divGet k row.1) s = .next { s with results := s.results ++ [row.2] }

/-- Reconfiguration is glitch-free (R158): a setter changes neither phase nor count, and if SETN leaves count at or
above N, the next counted edge wraps count to 0 and flips phase in both modes. -/
def Obligations.ReconfigurationIsGlitchFree : Prop :=
  ∀ d : DivState, divOk d = true → ∀ x : Word,
    ((divWithN d x).phase = d.phase ∧ (divWithN d x).count = d.count) ∧
    ((divWithMaxN d x).phase = d.phase ∧ (divWithMaxN d x).count = d.count) ∧
    ((divWithMode d x).phase = d.phase ∧ (divWithMode d x).count = d.count) ∧
    ((divWithN d x).n.toInt ≤ d.count.toInt →
      (divCount (divWithN d x)).count = 0#32 ∧ (divCount (divWithN d x)).phase = !d.phase)

/-- Edge lock (R159): the phase changes only on a sample with a detected edge, and a driving signal that stops
changing holds the phase and the count for ever. -/
def Obligations.PhaseIsEdgeLocked : Prop :=
  (∀ (p : Config.Params) (d : DivState) (x : Fp),
    (divFeed p d x).phase ≠ d.phase → (divFeed p d x).ed.anyEdge = true) ∧
  (∀ (p : Config.Params) (d : DivState) (x : Fp) (n : Nat),
    let d' := (List.replicate n x).foldl (divFeed p) (divFeed p d x)
    d'.phase = (divFeed p d x).phase ∧ d'.count = (divFeed p d x).count)

/-- Division ratio (R160): after e counted edges from a reset, with N held constant, count is (e - 1) mod N in both
modes; count-down has flipped on edges 1, N+1, 2N+1, …, and count-up on edges N+1, 2N+1, …. -/
def Obligations.DivisionRatio : Prop :=
  ∀ (d : DivState) (n e : Nat), d.count.toInt = -1 → d.phase = false → d.n = BitVec.ofNat 32 n → 1 ≤ n → n ≤ 64 → 1 ≤ e →
    (countedEdges d e).count.toInt = ((e - 1) % n : Nat) ∧
    (countedEdges d e).phase =
      (if d.mode then decide ((e - 1) / n % 2 = 1) else decide ((e - 1) / n % 2 = 0))

/-! ### WaveformConverter (44_converter.md) -/

/-- CONV.TOSAW, step by step as R181 writes it. Nothing but the converter and the result word changes. -/
def Obligations.ConvTosawResult : Prop :=
  ∀ (s : State) (k : Byte) (value freq dt : Word) (c : ConvState), s.convs[k.toNat]? = some c →
    let e := edFeed s.params c.ed (Fp.ofBits value)
    let x := fmul (Fp.ofBits freq) (Fp.ofBits dt)
    let inc := if fgt x fpZero && isfinite x then x else fpZero
    let start := if e.prev = true ∧ e.cur = false then fpZero else Fp.ofBits c.phase
    let ph0 := fadd start inc
    let ph := if fge ph0 fpOne then fsub ph0 (ffloor ph0) else ph0
    exec (.convTosaw k value freq dt) s = .next { s with
      convs   := s.convs.set k.toNat { phase := ph.toBits, ed := e }
      results := s.results ++
        [(fsub (fmul (Fp.ofBits s.params.convGain) ph) (Fp.ofBits s.params.convOffset)).toBits] }

/-- CONV.RESET (R182). Nothing else changes. -/
def Obligations.ConvResetResult : Prop :=
  ∀ (s : State) (k : Byte) (c : ConvState), s.convs[k.toNat]? = some c →
    exec (.convReset k) s = .next { s with
      convs := s.convs.set k.toNat { phase := 0x00000000#32, ed := { cur := false, prev := false, armed := false } } }

/-- CONV.GET returns the register's word and changes nothing (R183; 10_state.md R45). A reg outside the table is a
case of MalformedCommandEffect. -/
def Obligations.ConvGetResult : Prop :=
  ∀ (s : State) (k : Byte) (c : ConvState), s.convs[k.toNat]? = some c → ∀ row ∈ ([
      (0x00#8, c.phase), (0x08#8, if c.ed.cur then 1#32 else 0#32), (0x09#8, if c.ed.prev then 1#32 else 0#32),
      (0x0A#8, if c.ed.armed then 1#32 else 0#32), (0x0B#8, flagsOf c.ed) ] : List (Byte × Word)),
    exec (.convGet k row.1) s = .next { s with results := s.results ++ [row.2] }

/-- Lock-step (R184): on a sample with a trailing edge the new phase is the wrapped increment, whatever the phase was
before. -/
def Obligations.TrailingEdgeRestartsRamp : Prop :=
  ∀ (p : Config.Params) (c : ConvState) (value freq dt : Fp), (edFeed p c.ed value).trailing = true →
    (convSample p c value freq dt).1.phase = (convWrap (convInc (fmul freq dt))).toBits

/-- The converter's wrap takes the fractional part exactly, for every finite phase at or above 1 (R181, corner
case). -/
def Obligations.ConverterWrapIsExact : Prop :=
  ∀ m : Nat, representable m = true → unitMag ≤ m → m < overflowMag →
    convWrap (.fin false m) = .fin false (m % unitMag)

/-! ### The whole machine -/

/-- A command other than CORE.RESET leaves every instance it does not address as it was (10_state.md R47). -/
def Obligations.OtherInstancesUntouched : Prop :=
  ∀ (i : Instr) (s t : State) (u : UnitClass) (j : Nat), exec i s = .next t → i ≠ .coreReset →
    target i ≠ some (u, j) → sameUnit u j s t

/-- What a unit command does to its instance and returns depends on that instance and the parameters only
(10_state.md R47). -/
def Obligations.OnlyTheAddressedInstanceIsRead : Prop :=
  ∀ (i : Instr) (u : UnitClass) (j : Nat) (s1 s2 t1 t2 : State), target i = some (u, j) → sameUnit u j s1 s2 →
    s1.params = s2.params → exec i s1 = .next t1 → exec i s2 = .next t2 →
    sameUnit u j t1 t2 ∧ t1.results.drop s1.results.length = t2.results.drop s2.results.length

/-- Repeating OSC.SETF, DIV.SETN, DIV.SETMAXN, DIV.SETMODE or a RESET leaves the same state (20_memory.md R56). -/
def Obligations.SettersAndResetsIdempotent : Prop :=
  ∀ (i : Instr) (s t : State), idempotentCommand i = true → exec i s = .next t → exec i t = .next t

/-- In a tick of the reference wiring, when the divider's phase falls from 1 to 0, the converter's detector reports a
trailing edge and its ramp restarts in the same tick (70_reset_and_hazards.md R246). The converter's detector has
followed the divider's level, and the low level is below TH_LO. -/
def Obligations.RampRestartsWithDividerToggle : Prop :=
  ∀ (s : State) (k j i : Byte) (freqN dt : Word) (o : OscState) (d : DivState) (c : ConvState),
    s.oscs[k.toNat]? = some o → s.divs[j.toNat]? = some d → s.convs[i.toNat]? = some c →
    c.ed.armed = true → c.ed.cur = true → d.phase = true → legalParams s.params = true →
    flt (Fp.ofBits s.params.divLevel).negate (Fp.ofBits s.params.thLo) = true →
    ∃ t d' c', hostTick k j i freqN dt s = .next t ∧ t.divs[j.toNat]? = some d' ∧ t.convs[i.toNat]? = some c' ∧
      (d'.phase = false → c'.ed.trailing = true ∧
        c'.phase = (convWrap (convInc (fmul (Fp.ofBits freqN) (Fp.ofBits dt)))).toBits)

/-! ### Binary32 (00_scope.md R17, R18) -/

/-- A bit pattern is kept by unpacking and packing it. -/
def Obligations.BitPatternsRoundTrip : Prop := ∀ w : Word, (Fp.ofBits w).toBits = w

/-- The binary32 operations on finite data are the exact result rounded once (R18): fadd, fsub, fmul and fdiv give
the exact sum, difference, product and quotient, rounded by roundRatio; ffloor gives the greatest whole number not
above the datum, exactly; and roundRatio goes to the nearest representable magnitude, a tie to the even significand.
The sign of a zero result, the infinity at 2^128 and the division by zero are IEEE 754's (notes/assumptions/13.md). -/
def Obligations.RoundingIsToNearestEven : Prop :=
  (∀ num den : Nat, 0 < den →
    let r := roundRatio num den
    representable r = true ∧
    ∀ m : Nat, representable m = true →
      ((num : Int) - r * den).natAbs ≤ ((num : Int) - m * den).natAbs ∧
      (((num : Int) - r * den).natAbs = ((num : Int) - m * den).natAbs → m ≠ r → significand r % 2 = 0)) ∧
  (∀ (n m : Bool) (x y : Nat),
    let u := signedMag n x
    let v := signedMag m y
    fadd (.fin n x) (.fin m y) =
      (if u + v = 0 then .fin (n && m) 0 else roundedOnce (decide (u + v < 0)) (u + v).natAbs 1) ∧
    fsub (.fin n x) (.fin m y) =
      (if u - v = 0 then .fin (n && !m) 0 else roundedOnce (decide (u - v < 0)) (u - v).natAbs 1) ∧
    fmul (.fin n x) (.fin m y) = roundedOnce (n ^^ m) (x * y) (2 ^ 149) ∧
    (y ≠ 0 → fdiv (.fin n x) (.fin m y) = roundedOnce (n ^^ m) (x * 2 ^ 149) y) ∧
    (y = 0 → x ≠ 0 → fdiv (.fin n x) (.fin m y) = .inf (n ^^ m)) ∧
    (y = 0 → x = 0 → (fdiv (.fin n x) (.fin m y)).isNaN = true)) ∧
  (∀ (n : Bool) (x : Nat), ∃ r, ffloor (.fin n x) = .fin n r ∧
    signedMag n r = signedMag n x / (2 ^ 149 : Int) * 2 ^ 149)
end

