-- ==== Sys2Proof/Laws/Decode.lean ====
section
/-! SUPPORT. The fields of a command word, and the host link word by word. -/

namespace Sys2Proof.Laws

open Sys2Proof

@[simp] theorem fieldOp_header (op k reg : Byte) : fieldOp (header op k reg) = op := by
  apply BitVec.eq_of_getLsbD_eq
  intro i hi
  simp only [fieldOp, header, BitVec.getLsbD_append, BitVec.getLsbD_extractLsb']
  interval_cases i <;> simp

@[simp] theorem fieldIdx_header (op k reg : Byte) : fieldIdx (header op k reg) = k := by
  apply BitVec.eq_of_getLsbD_eq
  intro i hi
  simp only [fieldIdx, header, BitVec.getLsbD_append, BitVec.getLsbD_extractLsb']
  interval_cases i <;> simp

@[simp] theorem fieldRsv_header (op k reg : Byte) : fieldRsv (header op k reg) = 0#8 := by
  apply BitVec.eq_of_getLsbD_eq
  intro i hi
  simp only [fieldRsv, header, BitVec.getLsbD_append, BitVec.getLsbD_extractLsb']
  interval_cases i <;> simp

@[simp] theorem fieldReg_header (op k reg : Byte) : fieldReg (header op k reg) = reg := by
  apply BitVec.eq_of_getLsbD_eq
  intro i hi
  simp only [fieldReg, header, BitVec.getLsbD_append, BitVec.getLsbD_extractLsb']
  interval_cases i <;> simp

/-- The four bytes of a word, read back (20_memory.md R53). -/
@[simp] theorem wordOfBytes_extract (w : Word) :
    wordOfBytes (w.extractLsb' 0 8) (w.extractLsb' 8 8) (w.extractLsb' 16 8) (w.extractLsb' 24 8) = w := by
  apply BitVec.eq_of_getLsbD_eq
  intro i hi
  simp only [wordOfBytes, BitVec.getLsbD_append, BitVec.getLsbD_extractLsb']
  interval_cases i <;> simp

@[simp] theorem takeWord_wordBytes (w : Word) (rest : List Byte) : takeWord (wordBytes w ++ rest) = some (w, rest) := by
  simp [takeWord, wordBytes]

/-- A list of words sent whole is taken back whole. -/
@[simp] theorem takeWords_flatMap (ws : List Word) (rest : List Byte) :
    takeWords ws.length (ws.flatMap wordBytes ++ rest) = some (ws, rest) := by
  induction ws with
  | nil => rfl
  | cons w ws ih => simp [takeWords, ih]

end Sys2Proof.Laws
end

