-- ==== Sys2Proof/Laws/Float.lean ====
section
/-! SUPPORT. Lemmas about rounding and about the binary32 operations on finite data. -/

namespace Sys2Proof.Laws

open Sys2Proof

/-! ### Representable magnitudes and rounding -/

theorem representable_iff (m : Nat) : representable m = true ↔ 2 ^ (m.log2 - 23) ∣ m := by
  simp [representable, Nat.dvd_iff_mod_eq_zero]

theorem representable_zero : representable 0 = true := by decide

/-- A number below 2^24 times a power of two is representable. -/
theorem representable_mul_pow (n s : Nat) (h : n < 2 ^ 24) : representable (n * 2 ^ s) = true := by
  rw [representable_iff]
  rcases Nat.eq_zero_or_pos n with rfl | hn
  · simp
  · have hl : (n * 2 ^ s).log2 = n.log2 + s := by
      rw [Nat.log2_eq_iff (by positivity)]
      have h1 := Nat.log2_self_le (Nat.pos_iff_ne_zero.mp hn)
      have h2 := Nat.lt_log2_self (n := n)
      constructor
      · rw [Nat.pow_add]; exact Nat.mul_le_mul_right _ h1
      · rw [show n.log2 + s + 1 = (n.log2 + 1) + s by omega, Nat.pow_add]
        exact Nat.mul_lt_mul_of_pos_right h2 (by positivity)
    have hn24 : n.log2 < 24 := (Nat.log2_lt (Nat.pos_iff_ne_zero.mp hn)).mpr h
    rw [hl]
    exact Dvd.dvd.mul_left (pow_dvd_pow 2 (by omega)) n

/-- A power of two is representable. -/
theorem representable_pow (s : Nat) : representable (2 ^ s) = true := by
  simpa using representable_mul_pow 1 s (by decide)

/-- A magnitude with at most 24 bits is representable. -/
theorem representable_of_lt (n : Nat) (h : n < 2 ^ 24) : representable n = true := by
  simpa using representable_mul_pow n 0 h

/-- The quotient a magnitude rounds from, in the units of its own last place. -/
theorem roundRatio_parts (num den : Nat) (hd : 0 < den) :
    ∃ s n r, num = n * (den * 2 ^ s) + r ∧ r < den * 2 ^ s ∧ n < 2 ^ 24 ∧ (0 < s → 2 ^ 23 ≤ n) ∧
      roundRatio num den =
        (if den * 2 ^ s < 2 * r ∨ (2 * r = den * 2 ^ s ∧ n % 2 = 1) then n + 1 else n) * 2 ^ s := by
  have hu : 0 < den * 2 ^ ((num / den).log2 - 23) := by positivity
  refine ⟨(num / den).log2 - 23, num / (den * 2 ^ ((num / den).log2 - 23)),
    num % (den * 2 ^ ((num / den).log2 - 23)), ?_, Nat.mod_lt _ hu, ?_, ?_, rfl⟩
  · rw [Nat.mul_comm]; exact (Nat.div_add_mod _ _).symm
  · rw [← Nat.div_div_eq_div_mul, Nat.div_lt_iff_lt_mul (by positivity), ← Nat.pow_add]
    refine lt_of_lt_of_le Nat.lt_log2_self (Nat.pow_le_pow_right (by decide) (by omega))
  · intro hs
    rw [← Nat.div_div_eq_div_mul, Nat.le_div_iff_mul_le (by positivity), ← Nat.pow_add]
    have hq : num / den ≠ 0 := by rintro h; simp [h] at hs
    refine le_trans (Nat.pow_le_pow_right (by decide) (by omega)) (Nat.log2_self_le hq)

/-- A rounded magnitude is representable. -/
theorem roundRatio_representable (num den : Nat) (hd : 0 < den) : representable (roundRatio num den) = true := by
  obtain ⟨s, n, r, -, -, hn, -, heq⟩ := roundRatio_parts num den hd
  rw [heq]
  split
  · rcases Nat.lt_or_ge (n + 1) (2 ^ 24) with h | h
    · exact representable_mul_pow _ _ h
    · rw [show n + 1 = 2 ^ 24 by omega, ← Nat.pow_add]; exact representable_pow _
  · exact representable_mul_pow _ _ hn

/-- Rounding does not pass a representable magnitude upwards. -/
theorem roundRatio_le (num den m : Nat) (hd : 0 < den) (hm : representable m = true) (h : num ≤ m * den) :
    roundRatio num den ≤ m := by
  obtain ⟨s, n, r, hnum, hr, hn, hn', heq⟩ := roundRatio_parts num den hd
  rw [representable_iff] at hm
  have hp : 0 < 2 ^ s := by positivity
  have hnm : n * 2 ^ s ≤ m := by
    have : n * 2 ^ s * den ≤ m * den := by
      calc n * 2 ^ s * den = n * (den * 2 ^ s) := by ring
        _ ≤ num := by omega
        _ ≤ m * den := h
    exact Nat.le_of_mul_le_mul_right this hd
  have hdvd : 2 ^ s ∣ m := by
    rcases Nat.eq_zero_or_pos s with rfl | hs
    · simp
    · refine dvd_trans (pow_dvd_pow 2 ?_) hm
      have h23 : 2 ^ (23 + s) ≤ m := le_trans (by
        rw [Nat.pow_add]; exact Nat.mul_le_mul_right _ (hn' hs)) hnm
      have hm0 : m ≠ 0 := by have : 0 < 2 ^ (23 + s) := by positivity
                             omega
      have : 23 + s ≤ m.log2 := (Nat.le_log2 hm0).mpr h23
      omega
  obtain ⟨k, rfl⟩ := hdvd
  have hnk : n ≤ k := by
    rw [Nat.mul_comm (2 ^ s)] at hnm
    exact Nat.le_of_mul_le_mul_right hnm hp
  rw [heq, Nat.mul_comm (2 ^ s) k]
  refine Nat.mul_le_mul_right _ ?_
  split
  · rename_i hc
    by_contra hlt
    have : n = k := by omega
    subst this
    have hr0 : 0 < r := by
      have : 0 < den * 2 ^ s := by positivity
      omega
    have : n * (den * 2 ^ s) = 2 ^ s * n * den := by ring
    omega
  · exact hnk

/-- Rounding does not pass a representable magnitude downwards. -/
theorem le_roundRatio (num den m : Nat) (hd : 0 < den) (hm : representable m = true) (h : m * den ≤ num) :
    m ≤ roundRatio num den := by
  obtain ⟨s, n, r, hnum, hr, hn, hn', heq⟩ := roundRatio_parts num den hd
  rw [representable_iff] at hm
  have hlow : m ≤ n * 2 ^ s := by
    rcases Nat.lt_or_ge m (2 ^ (23 + s)) with hlt | hge
    · rcases Nat.eq_zero_or_pos s with rfl | hs
      · have : m * den < (n + 1) * den := by
          have : n * (den * 2 ^ 0) = n * den := by ring
          have : (n + 1) * den = n * den + den := by ring
          simp only [Nat.pow_zero, Nat.mul_one] at *
          omega
        have := Nat.lt_of_mul_lt_mul_right this
        simp; omega
      · refine le_trans hlt.le ?_
        rw [Nat.pow_add]; exact Nat.mul_le_mul_right _ (hn' hs)
    · have hm0 : m ≠ 0 := by have : 0 < 2 ^ (23 + s) := by positivity
                             omega
      have hl : 23 + s ≤ m.log2 := (Nat.le_log2 hm0).mpr hge
      have hdvd : 2 ^ s ∣ m := dvd_trans (pow_dvd_pow 2 (by omega)) hm
      obtain ⟨k, rfl⟩ := hdvd
      have hk : k < n + 1 := by
        have : k * (den * 2 ^ s) < (n + 1) * (den * 2 ^ s) := by
          have h1 : 2 ^ s * k * den = k * (den * 2 ^ s) := by ring
          have h2 : (n + 1) * (den * 2 ^ s) = n * (den * 2 ^ s) + den * 2 ^ s := by ring
          omega
        exact Nat.lt_of_mul_lt_mul_right this
      rw [Nat.mul_comm]; exact Nat.mul_le_mul_right _ (by omega)
  rw [heq]
  refine le_trans hlow (Nat.mul_le_mul_right _ ?_)
  split <;> omega

/-- A representable magnitude rounds to itself. -/
theorem roundRatio_exact (m den : Nat) (hd : 0 < den) (hm : representable m = true) :
    roundRatio (m * den) den = m :=
  le_antisymm (roundRatio_le _ _ _ hd hm le_rfl) (le_roundRatio _ _ _ hd hm le_rfl)

/-- A representable magnitude rounds to itself, the ratio being of whole units. -/
theorem roundRatio_one (m : Nat) (hm : representable m = true) : roundRatio m 1 = m := by
  simpa using roundRatio_exact m 1 (by decide) hm

/-! ### The operations on finite data -/

theorem fadd_fin (n m : Bool) (a b : Nat) :
    fadd (.fin n a) (.fin m b) =
      if signedMag n a + signedMag m b = 0 then .fin (n && m) 0
      else finOrInf (decide (signedMag n a + signedMag m b < 0)) (roundRatio (signedMag n a + signedMag m b).natAbs 1) :=
  rfl

theorem fsub_fin (n m : Bool) (a b : Nat) :
    fsub (.fin n a) (.fin m b) =
      if signedMag n a + signedMag (!m) b = 0 then .fin (n && !m) 0
      else finOrInf (decide (signedMag n a + signedMag (!m) b < 0))
        (roundRatio (signedMag n a + signedMag (!m) b).natAbs 1) :=
  rfl

theorem fmul_fin (n m : Bool) (a b : Nat) :
    fmul (.fin n a) (.fin m b) = finOrInf (n ^^ m) (roundRatio (a * b) unitMag) := rfl

theorem fdiv_fin (n m : Bool) (a b : Nat) (hb : b ≠ 0) :
    fdiv (.fin n a) (.fin m b) = finOrInf (n ^^ m) (roundRatio (a * unitMag) b) := if_neg hb

@[simp] theorem signedMag_false (a : Nat) : signedMag false a = a := rfl
@[simp] theorem signedMag_true (a : Nat) : signedMag true a = -(a : Int) := rfl

/-- The sum of two data that are at least +0, small enough not to overflow. -/
theorem fadd_nonneg (a b : Nat) (h : roundRatio (a + b) 1 < overflowMag) :
    fadd (.fin false a) (.fin false b) = .fin false (roundRatio (a + b) 1) := by
  rw [fadd_fin]
  simp only [signedMag_false, Bool.and_self]
  split
  · have ha : a = 0 := by omega
    have hb : b = 0 := by omega
    subst ha; subst hb; rfl
  · have : ((a : Int) + b).natAbs = a + b := by omega
    rw [this, finOrInf, if_neg (by omega)]
    simp only [Fp.fin.injEq, and_true]
    exact decide_eq_false (by omega)

/-- The difference of two data that are at least +0, when it is not negative and is representable. -/
theorem fsub_exact (a b : Nat) (hb : b ≤ a) (hr : representable (a - b) = true) (ho : a - b < overflowMag) :
    fsub (.fin false a) (.fin false b) = .fin false (a - b) := by
  rw [fsub_fin]
  simp only [signedMag_false, Bool.not_false, signedMag_true, Bool.and_true]
  split
  · have : a - b = 0 := by omega
    rw [this]
  · have : ((a : Int) + -b).natAbs = a - b := by omega
    rw [this, roundRatio_one _ hr, finOrInf, if_neg (by omega)]
    congr 1
    exact decide_eq_false (by omega)

/-! ### Bit patterns -/

@[simp] theorem withSign_sign (neg : Bool) (low : Nat) : (withSign neg low).getLsbD 31 = neg := by
  simp only [withSign, BitVec.getLsbD_append]
  cases neg <;> simp

@[simp] theorem withSign_exp (neg : Bool) (low : Nat) (h : low < 2 ^ 31) :
    ((withSign neg low).extractLsb' 23 8).toNat = low / 2 ^ 23 := by
  simp only [withSign, BitVec.extractLsb'_toNat, BitVec.toNat_append, BitVec.toNat_ofNat, BitVec.toNat_ofBool,
    Nat.shiftRight_eq_div_pow, Nat.mod_eq_of_lt h]
  rw [← Nat.shiftLeft_add_eq_or_of_lt h, Nat.shiftLeft_eq]
  cases neg
  · simp; omega
  · simp; omega

@[simp] theorem withSign_frac (neg : Bool) (low : Nat) (h : low < 2 ^ 31) :
    ((withSign neg low).extractLsb' 0 23).toNat = low % 2 ^ 23 := by
  simp only [withSign, BitVec.extractLsb'_toNat, BitVec.toNat_append, BitVec.toNat_ofNat, BitVec.toNat_ofBool,
    Nat.shiftRight_zero, Nat.mod_eq_of_lt h]
  rw [← Nat.shiftLeft_add_eq_or_of_lt h, Nat.shiftLeft_eq]
  cases neg
  · simp
  · simp; omega

/-- A representable magnitude that does not overflow is read back from its bit pattern. -/
theorem ofBits_toBits_fin (neg : Bool) (mag : Nat) (hm : representable mag = true) (ho : mag < overflowMag) :
    Fp.ofBits (Fp.toBits (.fin neg mag)) = .fin neg mag := by
  obtain ⟨s, n, hs, hn, hn24, hn23, hs253⟩ : ∃ s n, mag.log2 - 23 = s ∧ mag = n * 2 ^ s ∧ n < 2 ^ 24 ∧
      (0 < s → 2 ^ 23 ≤ n) ∧ s ≤ 253 := by
    rw [representable_iff] at hm
    obtain ⟨n, hn⟩ := hm
    rcases Nat.eq_zero_or_pos mag with rfl | hpos
    · exact ⟨0, 0, by simp, by simp, by decide, by omega, by omega⟩
    · have hne : mag ≠ 0 := by omega
      have hlt := Nat.lt_log2_self (n := mag)
      have hle := Nat.log2_self_le hne
      have hlog' : ∀ e, mag < 2 ^ 149 * 2 ^ e → mag.log2 < 149 + e := fun e h =>
        (Nat.log2_lt hne).mpr (by rw [Nat.pow_add]; exact h)
      have hlog := hlog' 128 ho
      refine ⟨_, n, rfl, by rw [Nat.mul_comm]; exact hn, ?_, ?_, by omega⟩
      · have : 2 ^ (mag.log2 - 23) * n < 2 ^ (mag.log2 - 23) * 2 ^ 24 := by
          rw [← hn, ← Nat.pow_add]
          exact lt_of_lt_of_le hlt (Nat.pow_le_pow_right (by decide) (by omega))
        exact Nat.lt_of_mul_lt_mul_left this
      · intro h0
        have : 2 ^ (mag.log2 - 23) * 2 ^ 23 ≤ 2 ^ (mag.log2 - 23) * n := by
          rw [← hn, ← Nat.pow_add]
          exact le_trans (Nat.pow_le_pow_right (by decide) (by omega)) hle
        exact Nat.le_of_mul_le_mul_left this (by positivity)
  have hmb : magBits mag = s * 2 ^ 23 + n := by
    simp only [magBits, hs]
    rw [hn, Nat.mul_div_cancel _ (by positivity)]
  have hlow : s * 2 ^ 23 + n < 2 ^ 31 := by omega
  have hex : (s * 2 ^ 23 + n) / 2 ^ 23 = s + n / 2 ^ 23 := by omega
  have hfr : (s * 2 ^ 23 + n) % 2 ^ 23 = n % 2 ^ 23 := by omega
  simp only [Fp.toBits, hmb, Fp.ofBits, withSign_sign, withSign_exp _ _ hlow, withSign_frac _ _ hlow, hex, hfr]
  rcases Nat.lt_or_ge n (2 ^ 23) with hlt | hge
  · have hs0 : s = 0 := by by_contra h; exact absurd (hn23 (by omega)) (by omega)
    subst hs0
    have h1 : n / 2 ^ 23 = 0 := by omega
    have h2 : n % 2 ^ 23 = n := by omega
    rw [h1, h2, if_neg (by omega), if_pos (by omega), hn, Nat.pow_zero, Nat.mul_one]
  · have h1 : n / 2 ^ 23 = 1 := by omega
    have h2 : 2 ^ 23 + n % 2 ^ 23 = n := by omega
    rw [h1, h2, if_neg (by omega), if_neg (by omega), hn, Nat.add_sub_cancel]

/-- Every finite bit pattern stands for a representable magnitude that does not overflow. -/
theorem ofBits_fin (w : Word) (neg : Bool) (mag : Nat) (h : Fp.ofBits w = .fin neg mag) :
    representable mag = true ∧ mag < overflowMag := by
  have hf : (w.extractLsb' 0 23).toNat < 2 ^ 23 := (w.extractLsb' 0 23).isLt
  have he : (w.extractLsb' 23 8).toNat < 2 ^ 8 := (w.extractLsb' 23 8).isLt
  simp only [Fp.ofBits] at h
  split at h
  · split at h <;> cases h
  · split at h
    · cases h
      exact ⟨representable_of_lt _ (by omega), lt_trans hf (by decide)⟩
    · cases h
      refine ⟨representable_mul_pow _ _ (by omega), ?_⟩
      calc _ < 2 ^ 24 * 2 ^ ((w.extractLsb' 23 8).toNat - 1) :=
            Nat.mul_lt_mul_of_pos_right (by omega) (by positivity)
        _ ≤ 2 ^ 24 * 2 ^ 253 := Nat.mul_le_mul_left _ (Nat.pow_le_pow_right (by decide) (by omega))
        _ = overflowMag := by decide

/-! ### Comparisons -/

@[simp] theorem flt_nan_left (w : Word) (a : Fp) : flt (.nan w) a = false := by cases a <;> rfl
@[simp] theorem flt_nan_right (w : Word) (a : Fp) : flt a (.nan w) = false := by cases a <;> rfl
@[simp] theorem flt_fin (n m : Bool) (a b : Nat) :
    flt (.fin n a) (.fin m b) = decide (signedMag n a < signedMag m b) := rfl
@[simp] theorem fgt_eq (a b : Fp) : fgt a b = flt b a := rfl
@[simp] theorem fge_eq (a b : Fp) : fge a b = fle b a := rfl
@[simp] theorem fle_fin (n m : Bool) (a b : Nat) :
    fle (.fin n a) (.fin m b) = decide (signedMag n a ≤ signedMag m b) := by
  simp [fle, Fp.isNaN, ← decide_not]

end Sys2Proof.Laws
end

