-- ==== Sys2Proof/Laws/State.lean ====
section
/-! SUPPORT. One lemma per field per update of the state, so that no later proof unfolds a record update. -/

namespace Sys2Proof.Laws

open Sys2Proof.Machine

/-! ### Returning result words -/

@[simp] theorem pushResults_params (s : State) (ws : List Word) : (s.pushResults ws).params = s.params := rfl
@[simp] theorem pushResults_status (s : State) (ws : List Word) : (s.pushResults ws).status = s.status := rfl
@[simp] theorem pushResults_errcmd (s : State) (ws : List Word) : (s.pushResults ws).errcmd = s.errcmd := rfl
@[simp] theorem pushResults_eds (s : State) (ws : List Word) : (s.pushResults ws).eds = s.eds := rfl
@[simp] theorem pushResults_oscs (s : State) (ws : List Word) : (s.pushResults ws).oscs = s.oscs := rfl
@[simp] theorem pushResults_divs (s : State) (ws : List Word) : (s.pushResults ws).divs = s.divs := rfl
@[simp] theorem pushResults_convs (s : State) (ws : List Word) : (s.pushResults ws).convs = s.convs := rfl
@[simp] theorem pushResults_link (s : State) (ws : List Word) : (s.pushResults ws).link = s.link := rfl
@[simp] theorem pushResults_results (s : State) (ws : List Word) : (s.pushResults ws).results = s.results ++ ws := rfl
@[simp] theorem pushResults_counts (s : State) (ws : List Word) : (s.pushResults ws).counts = s.counts := rfl
@[simp] theorem pushResults_errBit (s : State) (ws : List Word) : (s.pushResults ws).errBit = s.errBit := rfl
@[simp] theorem pushResults_nil (s : State) : s.pushResults [] = s := by simp [State.pushResults]
theorem pushResults_append (s : State) (xs ys : List Word) :
    (s.pushResults xs).pushResults ys = s.pushResults (xs ++ ys) := by simp [State.pushResults]

/-! ### The error latch -/

@[simp] theorem latchError_params (c : Cause) (w : Word) (s : State) : (latchError c w s).params = s.params := by
  unfold latchError; split <;> rfl
@[simp] theorem latchError_eds (c : Cause) (w : Word) (s : State) : (latchError c w s).eds = s.eds := by
  unfold latchError; split <;> rfl
@[simp] theorem latchError_oscs (c : Cause) (w : Word) (s : State) : (latchError c w s).oscs = s.oscs := by
  unfold latchError; split <;> rfl
@[simp] theorem latchError_divs (c : Cause) (w : Word) (s : State) : (latchError c w s).divs = s.divs := by
  unfold latchError; split <;> rfl
@[simp] theorem latchError_convs (c : Cause) (w : Word) (s : State) : (latchError c w s).convs = s.convs := by
  unfold latchError; split <;> rfl
@[simp] theorem latchError_link (c : Cause) (w : Word) (s : State) : (latchError c w s).link = s.link := by
  unfold latchError; split <;> rfl
@[simp] theorem latchError_results (c : Cause) (w : Word) (s : State) : (latchError c w s).results = s.results := by
  unfold latchError; split <;> rfl
@[simp] theorem latchError_counts (c : Cause) (w : Word) (s : State) : (latchError c w s).counts = s.counts := by
  unfold latchError; split <;> rfl
@[simp] theorem latchError_status (c : Cause) (w : Word) (s : State) :
    (latchError c w s).status = if s.errBit then s.status else statusOfCause c := by
  unfold latchError; split <;> rfl
@[simp] theorem latchError_errcmd (c : Cause) (w : Word) (s : State) :
    (latchError c w s).errcmd = if s.errBit then s.errcmd else w := by
  unfold latchError; split <;> rfl

/-- While an error is latched, another one is not recorded (60_exceptions.md R217). -/
theorem latchError_latched (c : Cause) (w : Word) (s : State) (h : s.errBit = true) : latchError c w s = s := by
  simp [latchError, h]

/-! ### Taking an error -/

@[simp] theorem takeError_params (c : Cause) (w : Word) (s : State) :
    (takeError c w s).params = s.params := by simp [takeError]
@[simp] theorem takeError_status (c : Cause) (w : Word) (s : State) :
    (takeError c w s).status = (latchError c w s).status := rfl
@[simp] theorem takeError_errcmd (c : Cause) (w : Word) (s : State) :
    (takeError c w s).errcmd = (latchError c w s).errcmd := rfl
@[simp] theorem takeError_eds (c : Cause) (w : Word) (s : State) :
    (takeError c w s).eds = s.eds := by simp [takeError]
@[simp] theorem takeError_oscs (c : Cause) (w : Word) (s : State) :
    (takeError c w s).oscs = s.oscs := by simp [takeError]
@[simp] theorem takeError_divs (c : Cause) (w : Word) (s : State) :
    (takeError c w s).divs = s.divs := by simp [takeError]
@[simp] theorem takeError_convs (c : Cause) (w : Word) (s : State) :
    (takeError c w s).convs = s.convs := by simp [takeError]
@[simp] theorem takeError_link (c : Cause) (w : Word) (s : State) :
    (takeError c w s).link = s.link := by simp [takeError]
@[simp] theorem takeError_results (c : Cause) (w : Word) (s : State) :
    (takeError c w s).results = s.results ++ List.replicate (resultCount w) 0x00000000#32 := by simp [takeError]
@[simp] theorem takeError_counts (c : Cause) (w : Word) (s : State) : (takeError c w s).counts = s.counts := by
  simp [takeError]

/-- Every cause code sets ERR (10_state.md R22). -/
@[simp] theorem statusOfCause_err (c : Cause) : (statusOfCause c).getLsbD 0 = true := by cases c <;> rfl

/-- After an error, ERR is set (60_exceptions.md R214). -/
@[simp] theorem takeError_errBit (c : Cause) (w : Word) (s : State) : (takeError c w s).errBit = true := by
  unfold State.errBit
  rw [takeError_status, latchError_status]
  split
  · assumption
  · exact statusOfCause_err c

/-! ### Clearing the latch, and the block reset -/

@[simp] theorem clearLatch_params (s : State) : (clearLatch s).params = s.params := rfl
@[simp] theorem clearLatch_status (s : State) : (clearLatch s).status = 0x00000000#32 := rfl
@[simp] theorem clearLatch_errcmd (s : State) : (clearLatch s).errcmd = 0x00000000#32 := rfl
@[simp] theorem clearLatch_eds (s : State) : (clearLatch s).eds = s.eds := rfl
@[simp] theorem clearLatch_oscs (s : State) : (clearLatch s).oscs = s.oscs := rfl
@[simp] theorem clearLatch_divs (s : State) : (clearLatch s).divs = s.divs := rfl
@[simp] theorem clearLatch_convs (s : State) : (clearLatch s).convs = s.convs := rfl
@[simp] theorem clearLatch_link (s : State) : (clearLatch s).link = s.link := rfl
@[simp] theorem clearLatch_results (s : State) : (clearLatch s).results = s.results := rfl
@[simp] theorem blockReset_params (s : State) : (blockReset s).params = s.params := rfl
@[simp] theorem blockReset_status (s : State) : (blockReset s).status = 0x00000000#32 := rfl
@[simp] theorem blockReset_errcmd (s : State) : (blockReset s).errcmd = 0x00000000#32 := rfl
@[simp] theorem blockReset_eds (s : State) : (blockReset s).eds = s.eds.map edClear := rfl
@[simp] theorem blockReset_oscs (s : State) : (blockReset s).oscs = s.oscs.map (oscBlockReset s.params) := rfl
@[simp] theorem blockReset_divs (s : State) : (blockReset s).divs = s.divs.map divBlockReset := rfl
@[simp] theorem blockReset_convs (s : State) : (blockReset s).convs = s.convs.map convClear := rfl
@[simp] theorem blockReset_link (s : State) : (blockReset s).link = s.link := rfl
@[simp] theorem blockReset_results (s : State) : (blockReset s).results = s.results := rfl
@[simp] theorem blockReset_counts (s : State) : (blockReset s).counts = s.counts := by simp [State.counts]

/-! ### The units -/

@[simp] theorem edFeed_armed (p : Config.Params) (e : EdState) (x : Fp) : (edFeed p e x).armed = true := by
  unfold edFeed; split <;> rfl
@[simp] theorem edFeed_cur (p : Config.Params) (e : EdState) (x : Fp) : (edFeed p e x).cur = classify p e.cur x := by
  unfold edFeed; split <;> rfl
@[simp] theorem edFeed_prev (p : Config.Params) (e : EdState) (x : Fp) :
    (edFeed p e x).prev = if e.armed then e.cur else classify p e.cur x := by
  unfold edFeed; split <;> simp_all
@[simp] theorem edClear_cur (e : EdState) : (edClear e).cur = false := rfl
@[simp] theorem edClear_prev (e : EdState) : (edClear e).prev = false := rfl
@[simp] theorem edClear_armed (e : EdState) : (edClear e).armed = false := rfl

@[simp] theorem divCount_n (d : DivState) : (divCount d).n = d.n := by
  unfold divCount; dsimp only; repeat' split
  all_goals rfl
@[simp] theorem divCount_maxN (d : DivState) : (divCount d).maxN = d.maxN := by
  unfold divCount; dsimp only; repeat' split
  all_goals rfl
@[simp] theorem divCount_mode (d : DivState) : (divCount d).mode = d.mode := by
  unfold divCount; dsimp only; repeat' split
  all_goals rfl
@[simp] theorem divCount_ed (d : DivState) : (divCount d).ed = d.ed := by
  unfold divCount; dsimp only; repeat' split
  all_goals rfl
@[simp] theorem divFeed_ed (p : Config.Params) (d : DivState) (clk : Fp) : (divFeed p d clk).ed = edFeed p d.ed clk := by
  unfold divFeed; dsimp only; split <;> simp
@[simp] theorem divFeed_n (p : Config.Params) (d : DivState) (clk : Fp) : (divFeed p d clk).n = d.n := by
  unfold divFeed; dsimp only; split <;> simp
@[simp] theorem divFeed_maxN (p : Config.Params) (d : DivState) (clk : Fp) : (divFeed p d clk).maxN = d.maxN := by
  unfold divFeed; dsimp only; split <;> simp
@[simp] theorem divFeed_mode (p : Config.Params) (d : DivState) (clk : Fp) : (divFeed p d clk).mode = d.mode := by
  unfold divFeed; dsimp only; split <;> simp
@[simp] theorem divWithN_phase (d : DivState) (n : Word) : (divWithN d n).phase = d.phase := rfl
@[simp] theorem divWithN_count (d : DivState) (n : Word) : (divWithN d n).count = d.count := rfl
@[simp] theorem divWithMaxN_phase (d : DivState) (m : Word) : (divWithMaxN d m).phase = d.phase := rfl
@[simp] theorem divWithMaxN_count (d : DivState) (m : Word) : (divWithMaxN d m).count = d.count := rfl
@[simp] theorem divWithMode_phase (d : DivState) (m : Word) : (divWithMode d m).phase = d.phase := by
  unfold divWithMode; repeat' split
  all_goals rfl
@[simp] theorem divWithMode_count (d : DivState) (m : Word) : (divWithMode d m).count = d.count := by
  unfold divWithMode; repeat' split
  all_goals rfl

@[simp] theorem oscInsert_phase (p : Config.Params) (o : OscState) (inc s : Fp) :
    (oscInsert p o inc s).phase = o.phase := by unfold oscInsert; split <;> rfl
@[simp] theorem oscInsert_freq (p : Config.Params) (o : OscState) (inc s : Fp) :
    (oscInsert p o inc s).freq = o.freq := by unfold oscInsert; split <;> rfl
@[simp] theorem oscInsert_psq (p : Config.Params) (o : OscState) (inc s : Fp) :
    (oscInsert p o inc s).psq = o.psq := by unfold oscInsert; split <;> rfl
@[simp] theorem oscInsert_psaw (p : Config.Params) (o : OscState) (inc s : Fp) :
    (oscInsert p o inc s).psaw = o.psaw := by unfold oscInsert; split <;> rfl
@[simp] theorem oscSample_freq (p : Config.Params) (o : OscState) (dt : Fp) : (oscSample p o dt).1.freq = o.freq := by
  simp [oscSample, oscConsume]
@[simp] theorem oscClear_freq (p : Config.Params) (o : OscState) : (oscClear p o).freq = o.freq := rfl
@[simp] theorem divClear_maxN (d : DivState) : (divClear d).maxN = d.maxN := rfl
@[simp] theorem blepTerm_length (p : Config.Params) (rd : Nat) (d jump : Fp) (ring : List Word) (j : Nat) :
    (blepTerm p rd d jump ring j).length = ring.length := by simp [blepTerm]

/-- Inserting a step keeps the ring's length. -/
@[simp] theorem blepInsert_length (p : Config.Params) (ring : List Word) (rd : Nat) (d jump : Fp) :
    (blepInsert p ring rd d jump).length = ring.length := by
  unfold blepInsert
  induction List.range p.win generalizing ring with
  | nil => rfl
  | cons j js ih => simp [ih]

end Sys2Proof.Laws
end

