-- ==== Sys2Proof/Laws/Ops.lean ====
section
/-! SUPPORT. What the shared operations can do: one lemma each for an instance that exists and one for an IDX that
names none, and one inversion lemma for a step. -/

namespace Sys2Proof.Laws

open Sys2Proof.Machine

/-! ### Reading and changing the instance IDX selects -/

@[simp] theorem returnWord_some (i : Instr) (s : State) (v : Word) : returnWord i s (some v) = .next (s.pushResults [v]) := rfl
@[simp] theorem returnWord_none (i : Instr) (s : State) :
    returnWord i s none = .next (takeError .badReg (commandWord i) s) := rfl

/-- What a register read can do. -/
theorem returnWord_cases (i : Instr) (s t : State) (v : Option Word) (h : returnWord i s v = .next t) :
    (∃ x, v = some x ∧ t = s.pushResults [x]) ∨ (v = none ∧ t = takeError .badReg (commandWord i) s) := by
  cases v with
  | none => exact .inr ⟨rfl, (Host.Outcome.next.inj h).symm⟩
  | some x => exact .inl ⟨x, rfl, (Host.Outcome.next.inj h).symm⟩

theorem onEd_some (i : Instr) (k : Byte) (s : State) (f : EdState → EdState × List Word) (e : EdState)
    (h : s.eds[k.toNat]? = some e) :
    onEd i k s f = .next ({ s with eds := s.eds.set k.toNat (f e).1 }.pushResults (f e).2) := by
  simp only [onEd, instanceIndex, h]
theorem onEd_none (i : Instr) (k : Byte) (s : State) (f : EdState → EdState × List Word) (h : s.eds[k.toNat]? = none) :
    onEd i k s f = .next (takeError .badIndex (commandWord i) s) := by
  simp only [onEd, instanceIndex, h]

/-- What a command on ED[k] can do: change that instance and return words, or take BAD_INDEX. -/
theorem onEd_cases (i : Instr) (k : Byte) (s t : State) (f : EdState → EdState × List Word) (h : onEd i k s f = .next t) :
    (∃ e, s.eds[k.toNat]? = some e ∧
      t = { s with eds := s.eds.set k.toNat (f e).1 }.pushResults (f e).2) ∨
    (s.eds[k.toNat]? = none ∧ t = takeError .badIndex (commandWord i) s) := by
  cases hk : s.eds[k.toNat]? with
  | none => rw [onEd_none i k s f hk] at h; exact .inr ⟨rfl, (Host.Outcome.next.inj h).symm⟩
  | some e => rw [onEd_some i k s f e hk] at h; exact .inl ⟨e, rfl, (Host.Outcome.next.inj h).symm⟩

theorem readEd_some (i : Instr) (k : Byte) (s : State) (f : EdState → Option Word) (e : EdState)
    (h : s.eds[k.toNat]? = some e) : readEd i k s f = returnWord i s (f e) := by
  simp only [readEd, instanceIndex, h]
theorem readEd_none (i : Instr) (k : Byte) (s : State) (f : EdState → Option Word) (h : s.eds[k.toNat]? = none) :
    readEd i k s f = .next (takeError .badIndex (commandWord i) s) := by
  simp only [readEd, instanceIndex, h]

/-- What a read of ED[k] can do: return a word, or take BAD_REG or BAD_INDEX; nothing else changes. -/
theorem readEd_cases (i : Instr) (k : Byte) (s t : State) (f : EdState → Option Word) (h : readEd i k s f = .next t) :
    (∃ e x, s.eds[k.toNat]? = some e ∧ f e = some x ∧ t = s.pushResults [x]) ∨
    (∃ cause, t = takeError cause (commandWord i) s) := by
  cases hk : s.eds[k.toNat]? with
  | none => rw [readEd_none i k s f hk] at h; exact .inr ⟨_, (Host.Outcome.next.inj h).symm⟩
  | some e =>
    rw [readEd_some i k s f e hk] at h
    rcases returnWord_cases _ _ _ _ h with ⟨x, hx, ht⟩ | ⟨-, ht⟩
    · exact .inl ⟨e, x, rfl, hx, ht⟩
    · exact .inr ⟨_, ht⟩

theorem onOsc_some (i : Instr) (k : Byte) (s : State) (f : OscState → OscState × List Word) (o : OscState)
    (h : s.oscs[k.toNat]? = some o) :
    onOsc i k s f = .next ({ s with oscs := s.oscs.set k.toNat (f o).1 }.pushResults (f o).2) := by
  simp only [onOsc, instanceIndex, h]
theorem onOsc_none (i : Instr) (k : Byte) (s : State) (f : OscState → OscState × List Word) (h : s.oscs[k.toNat]? = none) :
    onOsc i k s f = .next (takeError .badIndex (commandWord i) s) := by
  simp only [onOsc, instanceIndex, h]

/-- What a command on OSC[k] can do: change that instance and return words, or take BAD_INDEX. -/
theorem onOsc_cases (i : Instr) (k : Byte) (s t : State) (f : OscState → OscState × List Word) (h : onOsc i k s f = .next t) :
    (∃ o, s.oscs[k.toNat]? = some o ∧
      t = { s with oscs := s.oscs.set k.toNat (f o).1 }.pushResults (f o).2) ∨
    (s.oscs[k.toNat]? = none ∧ t = takeError .badIndex (commandWord i) s) := by
  cases hk : s.oscs[k.toNat]? with
  | none => rw [onOsc_none i k s f hk] at h; exact .inr ⟨rfl, (Host.Outcome.next.inj h).symm⟩
  | some o => rw [onOsc_some i k s f o hk] at h; exact .inl ⟨o, rfl, (Host.Outcome.next.inj h).symm⟩

theorem readOsc_some (i : Instr) (k : Byte) (s : State) (f : OscState → Option Word) (o : OscState)
    (h : s.oscs[k.toNat]? = some o) : readOsc i k s f = returnWord i s (f o) := by
  simp only [readOsc, instanceIndex, h]
theorem readOsc_none (i : Instr) (k : Byte) (s : State) (f : OscState → Option Word) (h : s.oscs[k.toNat]? = none) :
    readOsc i k s f = .next (takeError .badIndex (commandWord i) s) := by
  simp only [readOsc, instanceIndex, h]

/-- What a read of OSC[k] can do: return a word, or take BAD_REG or BAD_INDEX; nothing else changes. -/
theorem readOsc_cases (i : Instr) (k : Byte) (s t : State) (f : OscState → Option Word) (h : readOsc i k s f = .next t) :
    (∃ o x, s.oscs[k.toNat]? = some o ∧ f o = some x ∧ t = s.pushResults [x]) ∨
    (∃ cause, t = takeError cause (commandWord i) s) := by
  cases hk : s.oscs[k.toNat]? with
  | none => rw [readOsc_none i k s f hk] at h; exact .inr ⟨_, (Host.Outcome.next.inj h).symm⟩
  | some o =>
    rw [readOsc_some i k s f o hk] at h
    rcases returnWord_cases _ _ _ _ h with ⟨x, hx, ht⟩ | ⟨-, ht⟩
    · exact .inl ⟨o, x, rfl, hx, ht⟩
    · exact .inr ⟨_, ht⟩

theorem onDiv_some (i : Instr) (k : Byte) (s : State) (f : DivState → DivState × List Word) (d : DivState)
    (h : s.divs[k.toNat]? = some d) :
    onDiv i k s f = .next ({ s with divs := s.divs.set k.toNat (f d).1 }.pushResults (f d).2) := by
  simp only [onDiv, instanceIndex, h]
theorem onDiv_none (i : Instr) (k : Byte) (s : State) (f : DivState → DivState × List Word) (h : s.divs[k.toNat]? = none) :
    onDiv i k s f = .next (takeError .badIndex (commandWord i) s) := by
  simp only [onDiv, instanceIndex, h]

/-- What a command on DIV[k] can do: change that instance and return words, or take BAD_INDEX. -/
theorem onDiv_cases (i : Instr) (k : Byte) (s t : State) (f : DivState → DivState × List Word) (h : onDiv i k s f = .next t) :
    (∃ d, s.divs[k.toNat]? = some d ∧
      t = { s with divs := s.divs.set k.toNat (f d).1 }.pushResults (f d).2) ∨
    (s.divs[k.toNat]? = none ∧ t = takeError .badIndex (commandWord i) s) := by
  cases hk : s.divs[k.toNat]? with
  | none => rw [onDiv_none i k s f hk] at h; exact .inr ⟨rfl, (Host.Outcome.next.inj h).symm⟩
  | some d => rw [onDiv_some i k s f d hk] at h; exact .inl ⟨d, rfl, (Host.Outcome.next.inj h).symm⟩

theorem readDiv_some (i : Instr) (k : Byte) (s : State) (f : DivState → Option Word) (d : DivState)
    (h : s.divs[k.toNat]? = some d) : readDiv i k s f = returnWord i s (f d) := by
  simp only [readDiv, instanceIndex, h]
theorem readDiv_none (i : Instr) (k : Byte) (s : State) (f : DivState → Option Word) (h : s.divs[k.toNat]? = none) :
    readDiv i k s f = .next (takeError .badIndex (commandWord i) s) := by
  simp only [readDiv, instanceIndex, h]

/-- What a read of DIV[k] can do: return a word, or take BAD_REG or BAD_INDEX; nothing else changes. -/
theorem readDiv_cases (i : Instr) (k : Byte) (s t : State) (f : DivState → Option Word) (h : readDiv i k s f = .next t) :
    (∃ d x, s.divs[k.toNat]? = some d ∧ f d = some x ∧ t = s.pushResults [x]) ∨
    (∃ cause, t = takeError cause (commandWord i) s) := by
  cases hk : s.divs[k.toNat]? with
  | none => rw [readDiv_none i k s f hk] at h; exact .inr ⟨_, (Host.Outcome.next.inj h).symm⟩
  | some d =>
    rw [readDiv_some i k s f d hk] at h
    rcases returnWord_cases _ _ _ _ h with ⟨x, hx, ht⟩ | ⟨-, ht⟩
    · exact .inl ⟨d, x, rfl, hx, ht⟩
    · exact .inr ⟨_, ht⟩

theorem onConv_some (i : Instr) (k : Byte) (s : State) (f : ConvState → ConvState × List Word) (c : ConvState)
    (h : s.convs[k.toNat]? = some c) :
    onConv i k s f = .next ({ s with convs := s.convs.set k.toNat (f c).1 }.pushResults (f c).2) := by
  simp only [onConv, instanceIndex, h]
theorem onConv_none (i : Instr) (k : Byte) (s : State) (f : ConvState → ConvState × List Word) (h : s.convs[k.toNat]? = none) :
    onConv i k s f = .next (takeError .badIndex (commandWord i) s) := by
  simp only [onConv, instanceIndex, h]

/-- What a command on CONV[k] can do: change that instance and return words, or take BAD_INDEX. -/
theorem onConv_cases (i : Instr) (k : Byte) (s t : State) (f : ConvState → ConvState × List Word) (h : onConv i k s f = .next t) :
    (∃ c, s.convs[k.toNat]? = some c ∧
      t = { s with convs := s.convs.set k.toNat (f c).1 }.pushResults (f c).2) ∨
    (s.convs[k.toNat]? = none ∧ t = takeError .badIndex (commandWord i) s) := by
  cases hk : s.convs[k.toNat]? with
  | none => rw [onConv_none i k s f hk] at h; exact .inr ⟨rfl, (Host.Outcome.next.inj h).symm⟩
  | some c => rw [onConv_some i k s f c hk] at h; exact .inl ⟨c, rfl, (Host.Outcome.next.inj h).symm⟩

theorem readConv_some (i : Instr) (k : Byte) (s : State) (f : ConvState → Option Word) (c : ConvState)
    (h : s.convs[k.toNat]? = some c) : readConv i k s f = returnWord i s (f c) := by
  simp only [readConv, instanceIndex, h]
theorem readConv_none (i : Instr) (k : Byte) (s : State) (f : ConvState → Option Word) (h : s.convs[k.toNat]? = none) :
    readConv i k s f = .next (takeError .badIndex (commandWord i) s) := by
  simp only [readConv, instanceIndex, h]

/-- What a read of CONV[k] can do: return a word, or take BAD_REG or BAD_INDEX; nothing else changes. -/
theorem readConv_cases (i : Instr) (k : Byte) (s t : State) (f : ConvState → Option Word) (h : readConv i k s f = .next t) :
    (∃ c x, s.convs[k.toNat]? = some c ∧ f c = some x ∧ t = s.pushResults [x]) ∨
    (∃ cause, t = takeError cause (commandWord i) s) := by
  cases hk : s.convs[k.toNat]? with
  | none => rw [readConv_none i k s f hk] at h; exact .inr ⟨_, (Host.Outcome.next.inj h).symm⟩
  | some c =>
    rw [readConv_some i k s f c hk] at h
    rcases returnWord_cases _ _ _ _ h with ⟨x, hx, ht⟩ | ⟨-, ht⟩
    · exact .inl ⟨c, x, rfl, hx, ht⟩
    · exact .inr ⟨_, ht⟩

/-! ### One step -/

/-- What a step can do: wait, run the fetched command, or take the error of a word that matches no row. -/
theorem step_cases (s : State) :
    (fetch s.link = .waiting ∧ step s = .next s) ∨
    (∃ i rest, fetch s.link = .command i rest ∧ step s = exec i { s with link := rest }) ∨
    (∃ c w rest, fetch s.link = .illegal c w rest ∧ step s = .next (takeError c w { s with link := rest })) := by
  cases h : fetch s.link with
  | waiting => exact .inl ⟨rfl, by simp [step, h]⟩
  | command i rest => exact .inr (.inl ⟨i, rest, rfl, by simp [step, h]⟩)
  | illegal c w rest => exact .inr (.inr ⟨c, w, rest, rfl, by simp [step, h]⟩)

end Sys2Proof.Laws
end

