-- ==== Sys2Proof/Laws/PerInstr.lean ====
section
/-! SUPPORT. Laws of every instruction as syntax, one lemma per constructor. -/

namespace Sys2Proof.Laws

open Sys2Proof

/-- An instruction has as many operand words as its command word announces (30_encoding.md R71, R72). -/
def OperandLength.Statement (i : Instr) : Prop := (operandWords i).length = operandCount (commandWord i)

/-- The command word of an instruction has RSV = 0 (30_encoding.md R78). -/
def ReservedZero.Statement (i : Instr) : Prop := fieldRsv (commandWord i) = 0#8

theorem OperandLength.coreNop : OperandLength.Statement .coreNop := by
  simp [OperandLength.Statement, operandWords, operandCount, commandWord]
theorem OperandLength.coreReset : OperandLength.Statement .coreReset := by
  simp [OperandLength.Statement, operandWords, operandCount, commandWord]
theorem OperandLength.coreGet (reg : Byte) : OperandLength.Statement (.coreGet reg) := by
  simp [OperandLength.Statement, operandWords, operandCount, commandWord]
theorem OperandLength.edSet (k : Byte) (x : Word) : OperandLength.Statement (.edSet k x) := by
  simp [OperandLength.Statement, operandWords, operandCount, commandWord]
theorem OperandLength.edReset (k : Byte) : OperandLength.Statement (.edReset k) := by
  simp [OperandLength.Statement, operandWords, operandCount, commandWord]
theorem OperandLength.edRising (k : Byte) : OperandLength.Statement (.edRising k) := by
  simp [OperandLength.Statement, operandWords, operandCount, commandWord]
theorem OperandLength.edTrailing (k : Byte) : OperandLength.Statement (.edTrailing k) := by
  simp [OperandLength.Statement, operandWords, operandCount, commandWord]
theorem OperandLength.edAny (k : Byte) : OperandLength.Statement (.edAny k) := by
  simp [OperandLength.Statement, operandWords, operandCount, commandWord]
theorem OperandLength.edGet (k reg : Byte) : OperandLength.Statement (.edGet k reg) := by
  simp [OperandLength.Statement, operandWords, operandCount, commandWord]
theorem OperandLength.oscSetf (k : Byte) (f : Word) : OperandLength.Statement (.oscSetf k f) := by
  simp [OperandLength.Statement, operandWords, operandCount, commandWord]
theorem OperandLength.oscProc (k : Byte) (dt : Word) : OperandLength.Statement (.oscProc k dt) := by
  simp [OperandLength.Statement, operandWords, operandCount, commandWord]
theorem OperandLength.oscReset (k : Byte) : OperandLength.Statement (.oscReset k) := by
  simp [OperandLength.Statement, operandWords, operandCount, commandWord]
theorem OperandLength.oscGet (k reg : Byte) : OperandLength.Statement (.oscGet k reg) := by
  simp [OperandLength.Statement, operandWords, operandCount, commandWord]
theorem OperandLength.divProc (k : Byte) (clk : Word) : OperandLength.Statement (.divProc k clk) := by
  simp [OperandLength.Statement, operandWords, operandCount, commandWord]
theorem OperandLength.divSetn (k : Byte) (n : Word) : OperandLength.Statement (.divSetn k n) := by
  simp [OperandLength.Statement, operandWords, operandCount, commandWord]
theorem OperandLength.divSetmaxn (k : Byte) (m : Word) : OperandLength.Statement (.divSetmaxn k m) := by
  simp [OperandLength.Statement, operandWords, operandCount, commandWord]
theorem OperandLength.divSetmode (k : Byte) (mode : Word) : OperandLength.Statement (.divSetmode k mode) := by
  simp [OperandLength.Statement, operandWords, operandCount, commandWord]
theorem OperandLength.divReset (k : Byte) : OperandLength.Statement (.divReset k) := by
  simp [OperandLength.Statement, operandWords, operandCount, commandWord]
theorem OperandLength.divGet (k reg : Byte) : OperandLength.Statement (.divGet k reg) := by
  simp [OperandLength.Statement, operandWords, operandCount, commandWord]
theorem OperandLength.convTosaw (k : Byte) (value freq dt : Word) : OperandLength.Statement (.convTosaw k value freq dt) := by
  simp [OperandLength.Statement, operandWords, operandCount, commandWord]
theorem OperandLength.convReset (k : Byte) : OperandLength.Statement (.convReset k) := by
  simp [OperandLength.Statement, operandWords, operandCount, commandWord]
theorem OperandLength.convGet (k reg : Byte) : OperandLength.Statement (.convGet k reg) := by
  simp [OperandLength.Statement, operandWords, operandCount, commandWord]

theorem ReservedZero.coreNop : ReservedZero.Statement .coreNop := by
  simp [ReservedZero.Statement, commandWord]
theorem ReservedZero.coreReset : ReservedZero.Statement .coreReset := by
  simp [ReservedZero.Statement, commandWord]
theorem ReservedZero.coreGet (reg : Byte) : ReservedZero.Statement (.coreGet reg) := by
  simp [ReservedZero.Statement, commandWord]
theorem ReservedZero.edSet (k : Byte) (x : Word) : ReservedZero.Statement (.edSet k x) := by
  simp [ReservedZero.Statement, commandWord]
theorem ReservedZero.edReset (k : Byte) : ReservedZero.Statement (.edReset k) := by
  simp [ReservedZero.Statement, commandWord]
theorem ReservedZero.edRising (k : Byte) : ReservedZero.Statement (.edRising k) := by
  simp [ReservedZero.Statement, commandWord]
theorem ReservedZero.edTrailing (k : Byte) : ReservedZero.Statement (.edTrailing k) := by
  simp [ReservedZero.Statement, commandWord]
theorem ReservedZero.edAny (k : Byte) : ReservedZero.Statement (.edAny k) := by
  simp [ReservedZero.Statement, commandWord]
theorem ReservedZero.edGet (k reg : Byte) : ReservedZero.Statement (.edGet k reg) := by
  simp [ReservedZero.Statement, commandWord]
theorem ReservedZero.oscSetf (k : Byte) (f : Word) : ReservedZero.Statement (.oscSetf k f) := by
  simp [ReservedZero.Statement, commandWord]
theorem ReservedZero.oscProc (k : Byte) (dt : Word) : ReservedZero.Statement (.oscProc k dt) := by
  simp [ReservedZero.Statement, commandWord]
theorem ReservedZero.oscReset (k : Byte) : ReservedZero.Statement (.oscReset k) := by
  simp [ReservedZero.Statement, commandWord]
theorem ReservedZero.oscGet (k reg : Byte) : ReservedZero.Statement (.oscGet k reg) := by
  simp [ReservedZero.Statement, commandWord]
theorem ReservedZero.divProc (k : Byte) (clk : Word) : ReservedZero.Statement (.divProc k clk) := by
  simp [ReservedZero.Statement, commandWord]
theorem ReservedZero.divSetn (k : Byte) (n : Word) : ReservedZero.Statement (.divSetn k n) := by
  simp [ReservedZero.Statement, commandWord]
theorem ReservedZero.divSetmaxn (k : Byte) (m : Word) : ReservedZero.Statement (.divSetmaxn k m) := by
  simp [ReservedZero.Statement, commandWord]
theorem ReservedZero.divSetmode (k : Byte) (mode : Word) : ReservedZero.Statement (.divSetmode k mode) := by
  simp [ReservedZero.Statement, commandWord]
theorem ReservedZero.divReset (k : Byte) : ReservedZero.Statement (.divReset k) := by
  simp [ReservedZero.Statement, commandWord]
theorem ReservedZero.divGet (k reg : Byte) : ReservedZero.Statement (.divGet k reg) := by
  simp [ReservedZero.Statement, commandWord]
theorem ReservedZero.convTosaw (k : Byte) (value freq dt : Word) : ReservedZero.Statement (.convTosaw k value freq dt) := by
  simp [ReservedZero.Statement, commandWord]
theorem ReservedZero.convReset (k : Byte) : ReservedZero.Statement (.convReset k) := by
  simp [ReservedZero.Statement, commandWord]
theorem ReservedZero.convGet (k reg : Byte) : ReservedZero.Statement (.convGet k reg) := by
  simp [ReservedZero.Statement, commandWord]

end Sys2Proof.Laws
end

