-- ==== Sys2Proof/Laws/Rings.lean ====
section
/-! SUPPORT. The bounds on the residual table and the correction rings, entry by entry, and rounding once. -/

namespace Sys2Proof.Laws

open Sys2Proof.Machine

@[simp] theorem magAtMost_fin (bound : Nat) (neg : Bool) (mag : Nat) :
    magAtMost bound (.fin neg mag) = decide (mag ≤ bound) := rfl

/-- A bounded datum is finite. -/
theorem isfinite_of_magAtMost (bound : Nat) (a : Fp) (h : magAtMost bound a = true) : isfinite a = true := by
  cases a with
  | nan bits => cases h
  | inf neg => cases h
  | fin neg mag => rfl

/-- A larger bound holds too. -/
theorem magAtMost_mono (low high : Nat) (a : Fp) (hle : low ≤ high) (h : magAtMost low a = true) :
    magAtMost high a = true := by
  cases a with
  | nan bits => cases h
  | inf neg => cases h
  | fin neg mag => simp only [magAtMost_fin, decide_eq_true_eq] at h ⊢; omega

theorem tableWithin_iff (p : Config.Params) (a : Nat) :
    tableWithin p a = true ↔ ∀ k, k ≤ p.win * p.oversamp → magAtMost (2 ^ a * unitMag) (tableEntry p k) = true := by
  simp [tableWithin]

theorem ringWithin_iff (p : Config.Params) (a : Nat) (ring : List Word) (rd : Nat) :
    ringWithin p a ring rd = true ↔ ∀ j, j < p.win →
      magAtMost ((p.win - 1 - j) * termBound a) (Fp.ofBits (ring.getD ((rd + j) % p.win) 0x00000000#32)) = true := by
  simp [ringWithin]

theorem ringsWithin_iff (p : Config.Params) (a : Nat) (o : OscState) :
    ringsWithin p a o = true ↔ ringWithin p a o.bsq o.psq = true ∧ ringWithin p a o.bsaw o.psaw = true := by
  simp [ringsWithin]

/-- The exponent field of a sign, an exponent and a fraction put together. -/
theorem extract_exponent (neg : Bool) (exp : BitVec 8) (frac : BitVec 23) :
    BitVec.extractLsb' 23 8 (BitVec.ofBool neg ++ (exp ++ frac)) = exp := by
  apply BitVec.eq_of_getLsbD_eq
  intro i hi
  rw [BitVec.getLsbD_extractLsb', BitVec.getLsbD_append, BitVec.getLsbD_append]
  simp [hi, show 23 + i < 31 by omega, show ¬ 23 + i < 23 by omega]

/-- An entry of the open table has magnitude below 2^115. -/
theorem residualBits_magAtMost (f : Config.ResidualBits) :
    magAtMost (2 ^ 115 * unitMag) (Fp.ofBits (Config.residualBits f)) = true := by
  obtain ⟨neg, ⟨e, he⟩, frac⟩ := f
  have hexp : ((Config.residualBits ⟨neg, ⟨e, he⟩, frac⟩).extractLsb' 23 8).toNat = e := by
    have : (Config.residualBits ⟨neg, ⟨e, he⟩, frac⟩).extractLsb' 23 8 = BitVec.ofNat 8 e :=
      extract_exponent neg (BitVec.ofNat 8 e) frac
    rw [this, BitVec.toNat_ofNat]; omega
  have hfrac := ((Config.residualBits ⟨neg, ⟨e, he⟩, frac⟩).extractLsb' 0 23).isLt
  simp only [Fp.ofBits, hexp]
  rw [if_neg (by omega)]
  have hunit : 2 ^ 115 * unitMag = 2 ^ 24 * 2 ^ 240 := by
    rw [unitMag, show (2 : Nat) ^ 240 = 2 ^ 91 * 2 ^ 149 by rw [← Nat.pow_add], ← Nat.mul_assoc, ← Nat.pow_add 2 24 91]
  split
  · have : 2 ^ 24 * 1 ≤ 2 ^ 24 * 2 ^ 240 := Nat.mul_le_mul_left _ Nat.one_le_two_pow
    simp only [magAtMost_fin, decide_eq_true_eq, hunit]; omega
  · have hpow : (2 : Nat) ^ (e - 1) ≤ 2 ^ 240 := Nat.pow_le_pow_right (by omega) (by omega)
    simp only [magAtMost_fin, decide_eq_true_eq, hunit]
    exact Nat.mul_le_mul (by omega) hpow

/-- The open table leaves the room that the default scale needs. -/
theorem tableEntry_open_magAtMost (p : Config.Params) (h : p.table = .unspecified) (k : Nat) :
    magAtMost (2 ^ 115 * unitMag) (tableEntry p k) = true := by
  simp only [tableEntry, h]
  split
  · exact residualBits_magAtMost _
  · simp [fpZero]

theorem roomAt_iff (p : Config.Params) (a : Nat) :
    roomAt p a = true ↔
      tableWithin p a = true ∧ magAtMost (2 ^ (118 - a) * unitMag) (Fp.ofBits p.oscScale) = true := by
  simp [roomAt]

theorem describedParams_iff (p : Config.Params) :
    describedParams p = true ↔ legalParams p = true ∧ ∃ a, a < 119 ∧ roomAt p a = true := by
  simp [describedParams]

theorem finiteInv_iff (s : State) :
    s.finiteInv = true ↔ s.inv = true ∧
      ∃ a, a < 119 ∧ roomAt s.params a = true ∧ ∀ o ∈ s.oscs, ringsWithin s.params a o = true := by
  simp [State.finiteInv]

/-- Rounding once is the rounding that the operations use. -/
theorem roundedOnce_eq (neg : Bool) (num den : Nat) :
    roundedOnce neg num den = finOrInf neg (roundRatio num den) := rfl

end Sys2Proof.Laws
end

