-- ==== Sys2Proof/Tests/Slice0.lean ====
section
/-! SUPPORT. Tests. Expected values come from the spec: its worked encodings (30_encoding.md R85), its vectors
(95_test_vectors.md) and its rules, as each comment says. The witnesses show that the hypotheses of the statements can
be met. -/

namespace Sys2Proof.Tests

open Sys2Proof Sys2Proof.Machine

/-! ### Well-formedness: each check refuses an ill-formed command (30_encoding.md R73; 10_state.md R41 to R45) -/

def one : Config.Counts := { ned := 1, nosc := 1, ndiv := 1, nconv := 1 }

theorem test_wf_refuses_ed_index : WellFormed one 2 (.edSet 1#8 0#32) = false := by decide
theorem test_wf_refuses_osc_index : WellFormed one 2 (.oscProc 1#8 0#32) = false := by decide
theorem test_wf_refuses_div_index : WellFormed one 2 (.divReset 1#8) = false := by decide
theorem test_wf_refuses_conv_index : WellFormed one 2 (.convTosaw 1#8 0#32 0#32 0#32) = false := by decide
theorem test_wf_refuses_core_reg : WellFormed one 2 (.coreGet 0x0C#8) = false := by decide
theorem test_wf_refuses_ed_reg : WellFormed one 2 (.edGet 0#8 0x04#8) = false := by decide
theorem test_wf_refuses_osc_reg : WellFormed one 2 (.oscGet 0#8 0x42#8) = false := by decide
theorem test_wf_refuses_osc_reg_high : WellFormed one 2 (.oscGet 0#8 0x82#8) = false := by decide
theorem test_wf_refuses_div_reg : WellFormed one 2 (.divGet 0#8 0x05#8) = false := by decide
theorem test_wf_refuses_conv_reg : WellFormed one 2 (.convGet 0#8 0x01#8) = false := by decide
theorem test_wf_accepts_osc_reg : WellFormed one 2 (.oscGet 0#8 0x41#8) = true := by decide

/-! ### Decoding: one word for each constructor, written from 30_encoding.md R70 and R77 -/

theorem test_decode_core :
    decodeTableWord 32 0x00000000 = some .coreNop ∧ decodeTableWord 32 0x01000000 = some .coreReset ∧
    decodeTableWord 32 0x0F00000B = some (.coreGet 0x0B#8) := by decide
theorem test_decode_ed :
    decodeTableWord 32 0x10030000 = some (.edSet 3#8 0#32) ∧ decodeTableWord 32 0x11040000 = some (.edReset 4#8) ∧
    decodeTableWord 32 0x12050000 = some (.edRising 5#8) ∧ decodeTableWord 32 0x13060000 = some (.edTrailing 6#8) ∧
    decodeTableWord 32 0x14070000 = some (.edAny 7#8) ∧ decodeTableWord 32 0x1F080003 = some (.edGet 8#8 3#8) := by
  decide
theorem test_decode_osc :
    decodeTableWord 32 0x20010000 = some (.oscSetf 1#8 0#32) ∧ decodeTableWord 32 0x21FF0000 = some (.oscProc 255#8 0#32) ∧
    decodeTableWord 32 0x22030000 = some (.oscReset 3#8) ∧ decodeTableWord 32 0x2F0400BF = some (.oscGet 4#8 0xBF#8) := by
  decide
theorem test_decode_div :
    decodeTableWord 32 0x30010000 = some (.divProc 1#8 0#32) ∧ decodeTableWord 32 0x31020000 = some (.divSetn 2#8 0#32) ∧
    decodeTableWord 32 0x32030000 = some (.divSetmaxn 3#8 0#32) ∧
    decodeTableWord 32 0x33040000 = some (.divSetmode 4#8 0#32) ∧
    decodeTableWord 32 0x34050000 = some (.divReset 5#8) ∧ decodeTableWord 32 0x3F06000B = some (.divGet 6#8 0x0B#8) := by
  decide
theorem test_decode_conv :
    decodeTableWord 32 0x40010000 = some (.convTosaw 1#8 0#32 0#32 0#32) ∧
    decodeTableWord 32 0x41020000 = some (.convReset 2#8) ∧ decodeTableWord 32 0x4F030008 = some (.convGet 3#8 8#8) := by
  decide

/-- Operand words in order, bytes least significant first (20_memory.md R53): CONV.TOSAW 0, -5.0, 100.0, 0.001 (R85). -/
theorem test_decode_operands :
    fetch [0x00#8, 0x00#8, 0x00#8, 0x40#8, 0x00#8, 0x00#8, 0xA0#8, 0xC0#8, 0x00#8, 0x00#8, 0xC8#8, 0x42#8,
           0x6F#8, 0x12#8, 0x83#8, 0x3A#8, 0x01#8] =
      .command (.convTosaw 0#8 0xC0A00000#32 0x42C80000#32 0x3A83126F#32) [0x01#8] := by decide

/-- Rejections by name (30_encoding.md R79), in the check order of 60_exceptions.md R212. -/
theorem test_decode_rejects :
    decode 0x50000000#32 [] = .illegal .illegalClass ∧ decode 0x15000000#32 [] = .illegal .illegalOp ∧
    decode 0x10000100#32 [0#32] = .illegal .reserved ∧ decode 0x11000001#32 [] = .illegal .reserved ∧
    decode 0x0F000100#32 [] = .illegal .reserved ∧ decode 0x01010000#32 [] = .illegal .badIndex ∧
    decode 0x00010001#32 [] = .illegal .reserved := by decide

/-- The rows of the table do not overlap (30_encoding.md R77). -/
theorem test_rows_disjoint :
    opcodeRows.Pairwise (fun r r' => (r.pattern &&& r'.mask != r'.pattern) ∧ (r'.pattern &&& r.mask != r.pattern)) := by
  decide

/-! ### The assembler (30_encoding.md R82 to R85) -/

theorem test_asm_conv : Asm.assemble "conv.tosaw 0, -5.0, 100.0, 0.001 ; X6" =
    some [0x40000000#32, 0xC0A00000#32, 0x42C80000#32, 0x3A83126F#32] := by decide +kernel
theorem test_asm_literals : Asm.assemble "ED.SET 0, nan\nED.SET 0, -inf\nED.SET 0, 1e-3\n.word 0x50000000\nDIV.SETN 0, -7" =
    some [0x10000000#32, 0x7FC00000#32, 0x10000000#32, 0xFF800000#32, 0x10000000#32, 0x3A83126F#32, 0x50000000#32,
          0x31000000#32, 0xFFFFFFF9#32] := by decide +kernel
theorem test_asm_rejects : Asm.assemble "DIV.SETN 256, 4" = none ∧ Asm.assemble "OSC.PROC 0" = none := by decide +kernel

/-! ### Binary32 (00_scope.md R18): constants and roundings worked by hand -/

def bits (a : Fp) : Word := a.toBits
def val (w : Word) : Fp := Fp.ofBits w

theorem test_constants :
    bits fpHalf = 0x3F000000#32 ∧ bits fpOne = 0x3F800000#32 ∧ bits fpNegOne = 0xBF800000#32 ∧
    bits fpTwo = 0x40000000#32 ∧ bits fpNegTwo = 0xC0000000#32 := by decide
/-- 1 + 2^-24 is a tie: it goes to the even 1.0; 1 + 2^-23 + 2^-24 goes to 1 + 2^-22. -/
theorem test_add_ties_to_even :
    bits (fadd (val 0x3F800000#32) (val 0x33800000#32)) = 0x3F800000#32 ∧
    bits (fadd (val 0x3F800001#32) (val 0x33800000#32)) = 0x3F800002#32 := by decide
/-- The largest finite value doubled overflows to an infinity. -/
theorem test_mul_overflows : fmul (val 0x7F7FFFFF#32) fpTwo = .inf false := by decide
/-- Half the least normal is a subnormal; half the least subnormal is a tie and goes to 0. -/
theorem test_mul_subnormal :
    bits (fmul (val 0x00800000#32) fpHalf) = 0x00400000#32 ∧ bits (fmul (val 0x00000001#32) fpHalf) = 0#32 := by decide
/-- 1/3 rounds to 0x3EAAAAAB. -/
theorem test_div_rounds : bits (fdiv fpOne (val 0x40400000#32)) = 0x3EAAAAAB#32 := by decide
/-- x - x is +0, and floor rounds towards minus infinity. -/
theorem test_sub_zero_and_floor :
    bits (fsub fpOne fpOne) = 0#32 ∧ bits (ffloor (val 0xBF000000#32)) = 0xBF800000#32 ∧
    bits (ffloor (val 0x40200000#32)) = 0x40000000#32 := by decide

/-! ### Machines to test on -/

/-- The toy table T (95_test_vectors.md). -/
def toy : Config.Params :=
  { Config.defaultParams with
    win := 2, oversamp := 2,
    table := .listed [0xBF000000#32, 0xBEC00000#32, 0xBE800000#32, 0xBE000000#32, 0x00000000#32] }

/-- A CORE with the toy table, at power-on. -/
def toyCore : State := State.powerOn one toy

/-- The state a command leads to. -/
def after (a : Answer) : Option State :=
  match a with
  | .next t    => some t
  | .fault _   => none
  | .refused _ => none

/-- The words a command returns. -/
def returned (a : Answer) : Option (List Word) := (after a).map State.results

/-- A state with these words waiting on the link. -/
def sent (s : State) (ws : List Word) : State := { s with link := ws.flatMap wordBytes }

def withEd (e : EdState) : State := { toyCore with eds := [e] }
def withOsc (o : OscState) : State := { toyCore with oscs := [o] }
def withDiv (d : DivState) : State := { toyCore with divs := [d] }
def withConv (c : ConvState) : State := { toyCore with convs := [c] }

def low : EdState := { cur := false, prev := false, armed := true }
def high : EdState := { cur := true, prev := true, armed := true }
/-- An oscillator at 1 Hz. -/
def osc1 : OscState := { OscState.powerOn 2 with freq := 0x3F800000#32 }
/-- The oscillator of V-OSC-B after row 3: the next sample wraps. -/
def oscRow3 : OscState := { osc1 with phase := 0x3F400000#32, psq := 1, psaw := 1 }
/-- A divider with N = 4 whose detector is high. -/
def div4 : DivState := { DivState.powerOn with n := 4#32, ed := high }

/-- P5, tick 7: the divider's fall (N = 2, count 1, phase 1) on a wrapped and corrected square. -/
def tick7 : State :=
  { toyCore with
    oscs := [{ osc1 with phase := 0x3F000000#32, bsq := [0x3F000000#32, 0#32] }]
    divs := [{ DivState.powerOn with count := 1#32, n := 2#32, maxN := 8#32, phase := true, ed := high }]
    convs := [{ phase := 0x3F400000#32, ed := high }] }

/-! ### Block control (45_core_control.md; V-CORE-1) -/

theorem test_core_nop : after (step (sent toyCore [0#32])) = some toyCore := by decide
theorem test_core_reset :
    after (exec .coreReset { toyCore with status := 0x41#32, errcmd := 0x21010000#32, divs := [div4], oscs := [oscRow3] }) =
      some toyCore := by decide
theorem test_core_get_params :
    returned (exec (.coreGet 0x03#8) State.reset) = some [0x01010101#32] ∧
    returned (exec (.coreGet 0x04#8) State.reset) = some [0x14401020#32] := by decide
theorem test_core_get_id : returned (exec (.coreGet 0x02#8) State.reset) = some [0x524E0007#32] := by decide

/-! ### Edge detector (V-ED-1) -/

def edAfter (e : EdState) (x : Word) : Option (List EdState) := (after (exec (.edSet 0#8 x) (withEd e))).map State.eds

/-- Rows 1 and 6: the first set reports no edge; a rise does. -/
theorem test_ed_set_rise :
    edAfter EdState.powerOn 0x40A00000#32 = some [high] ∧
    edAfter low 0x3FC00000#32 = some [{ cur := true, prev := false, armed := true }] := by decide
/-- Rows 7 to 10: a NaN and both zeros hold; the least negative subnormal falls. -/
theorem test_ed_set_hold :
    edAfter high 0x7FC00000#32 = some [high] ∧ edAfter high 0x80000000#32 = some [high] ∧
    edAfter high 0x80000001#32 = some [{ cur := false, prev := true, armed := true }] := by decide
theorem test_ed_reset : (after (exec (.edReset 0#8) (withEd high))).map State.eds = some [EdState.powerOn] := by decide
theorem test_ed_rising :
    returned (exec (.edRising 0#8) (withEd { low with cur := true })) = some [1#32] ∧
    returned (exec (.edRising 0#8) (withEd high)) = some [0#32] := by decide
theorem test_ed_trailing :
    returned (exec (.edTrailing 0#8) (withEd { low with prev := true })) = some [1#32] ∧
    returned (exec (.edTrailing 0#8) (withEd { low with cur := true })) = some [0#32] := by decide
theorem test_ed_any : returned (exec (.edAny 0#8) (withEd high)) = some [0#32] ∧
    returned (exec (.edAny 0#8) (withEd { low with prev := true })) = some [1#32] := by decide
/-- FLAGS with prev = 0, cur = 1 is 5 (41_edge_detector.md R108). -/
theorem test_ed_get_flags : returned (exec (.edGet 0#8 3#8) (withEd { low with cur := true })) = some [5#32] := by decide

/-! ### Oscillator (V-OSC-B, V-OSC-X) -/

/-- Row 1: no event. -/
theorem test_osc_proc_plain :
    returned (exec (.oscProc 0#8 0x3E800000#32) (withOsc osc1)) = some [0x40A00000#32, 0xC0200000#32] := by
  decide +kernel
/-- Row 4: WRAP with d = 0; both rings get a step. -/
theorem test_osc_proc_wrap :
    (after (exec (.oscProc 0#8 0x3E800000#32) (withOsc oscRow3))).map (fun s => (s.results, s.oscs)) =
      some ([0#32, 0#32], [{ osc1 with bsq := [0xBF000000#32, 0#32], bsaw := [0x3F000000#32, 0#32], psq := 0, psaw := 0 }]) := by
  decide +kernel
/-- A negative, -0 or NaN frequency is stored as +0.0; +Inf is kept. -/
theorem test_osc_setf :
    (after (exec (.oscSetf 0#8 0xC0400000#32) (withOsc osc1))).map State.oscs = some [OscState.powerOn 2] ∧
    (after (exec (.oscSetf 0#8 0x7FC00000#32) (withOsc osc1))).map State.oscs = some [OscState.powerOn 2] ∧
    (after (exec (.oscSetf 0#8 0x7F800000#32) (withOsc osc1))).map State.oscs =
      some [{ osc1 with freq := 0x7F800000#32 }] := by decide
/-- +Inf * 0 is a NaN, and the increment is +0 (V-OSC-X). -/
theorem test_osc_proc_nan :
    (after (exec (.oscProc 0#8 0#32) (withOsc { osc1 with freq := 0x7F800000#32 }))).map State.results =
      some [0x40A00000#32, 0xC0A00000#32] := by decide +kernel
theorem test_osc_reset :
    (after (exec (.oscReset 0#8) (withOsc { oscRow3 with bsq := [1#32, 2#32] }))).map State.oscs = some [osc1] := by decide
theorem test_osc_get :
    returned (exec (.oscGet 0#8 0x41#8) (withOsc { osc1 with bsq := [1#32, 2#32] })) = some [2#32] ∧
    (after (exec (.oscGet 0#8 0x42#8) toyCore)).map (fun s => (s.results, s.status, s.errcmd)) =
      some ([0#32], 0x51#32, 0x2F000042#32) := by decide

/-! ### Divider (V-DIV-1 to V-DIV-6) -/

/-- V-DIV-1: the first counted edge flips in count-down mode and does not in count-up mode. -/
theorem test_div_proc :
    returned (exec (.divProc 0#8 0xC0A00000#32) (withDiv div4)) = some [1#32, 0x40A00000#32] ∧
    returned (exec (.divProc 0#8 0xC0A00000#32) (withDiv { div4 with mode := true })) = some [0#32, 0xC0A00000#32] := by
  decide
/-- V-DIV-6: N lowered below count; the next edge wraps with `>=`. -/
theorem test_div_proc_wraps :
    (after (exec (.divProc 0#8 0xC0A00000#32) (withDiv { div4 with n := 2#32, count := 6#32, phase := true }))).map
      (fun s => s.divs.map fun d => (d.count, d.phase)) = some [(0#32, false)] := by decide
/-- V-DIV-2, rows 1 to 3. -/
theorem test_div_setn :
    (after (exec (.divSetn 0#8 0#32) toyCore)).map (fun s => s.divs.map DivState.n) = some [1#32] ∧
    (after (exec (.divSetn 0#8 100#32) toyCore)).map (fun s => s.divs.map DivState.n) = some [20#32] ∧
    (after (exec (.divSetn 0#8 0xFFFFFFF9#32) toyCore)).map (fun s => s.divs.map DivState.n) = some [1#32] := by decide
/-- V-DIV-2, rows 5 and 7. -/
theorem test_div_setmaxn :
    (after (exec (.divSetmaxn 0#8 100#32) (withDiv div4))).map (fun s => s.divs.map fun d => (d.n, d.maxN)) =
      some [(4#32, 64#32)] ∧
    (after (exec (.divSetmaxn 0#8 0#32) (withDiv div4))).map (fun s => s.divs.map fun d => (d.n, d.maxN)) =
      some [(1#32, 1#32)] := by decide
/-- V-DIV-2, row 8. -/
theorem test_div_setmode :
    (after (exec (.divSetmode 0#8 1#32) toyCore)).map (fun s => s.divs.map DivState.mode) = some [true] ∧
    (after (exec (.divSetmode 0#8 7#32) (withDiv { div4 with mode := true }))).map (fun s => s.divs.map DivState.mode) =
      some [true] := by decide
/-- V-DIV-3: maxN is kept. -/
theorem test_div_reset :
    (after (exec (.divReset 0#8) (withDiv { div4 with maxN := 8#32, mode := true, phase := true, count := 3#32 }))).map
      State.divs = some [{ DivState.powerOn with maxN := 8#32 }] := by decide
/-- COUNT reads -1 as 0xFFFFFFFF; ED_FLAGS after a fall is 6 (43_divider.md R157). -/
theorem test_div_get :
    returned (exec (.divGet 0#8 0#8) toyCore) = some [0xFFFFFFFF#32] ∧
    returned (exec (.divGet 0#8 0x0B#8) (withDiv { div4 with ed := { low with prev := true } })) = some [6#32] := by decide

/-! ### Converter (V-CONV-1, V-CONV-2) -/

/-- V-CONV-1 row 2: the falling sample returns -4.0. -/
theorem test_conv_tosaw_edge :
    returned (exec (.convTosaw 0#8 0xC0A00000#32 0x42C80000#32 0x3A83126F#32)
      (withConv { phase := 0x3DCCCCCD#32, ed := high })) = some [0xC0800000#32] := by decide
/-- V-CONV-2: an increment of 2.5 wraps by its fraction; +Inf gives +0. -/
theorem test_conv_tosaw_inc :
    (after (exec (.convTosaw 0#8 0x40A00000#32 0x40200000#32 0x3F800000#32) toyCore)).map
      (fun s => (s.results, s.convs.map ConvState.phase)) = some ([0#32], [0x3F000000#32]) ∧
    returned (exec (.convTosaw 0#8 0x40A00000#32 0x7F800000#32 0x3A83126F#32) toyCore) = some [0xC0A00000#32] := by
  decide
theorem test_conv_reset :
    (after (exec (.convReset 0#8) (withConv { phase := 0x3DCCCCCD#32, ed := high }))).map State.convs =
      some [ConvState.powerOn] := by decide
theorem test_conv_get :
    returned (exec (.convGet 0#8 0#8) (withConv { phase := 0x3DCCCCCD#32, ed := high })) = some [0x3DCCCCCD#32] ∧
    returned (exec (.convGet 0#8 0x09#8) (withConv { phase := 0x3DCCCCCD#32, ed := high })) = some [1#32] := by decide

/-! ### Errors and the link (V-ERR-1, P4) -/

/-- RESERVED before BAD_INDEX; the operand is consumed and two zero words are returned. -/
theorem test_err_reserved :
    (after (step (sent toyCore [0x21010100#32, 0x3F800000#32]))).map (fun s => (s.results, s.status, s.errcmd, s.link)) =
      some ([0#32, 0#32], 0x31#32, 0x21010100#32, []) := by decide
/-- BAD_INDEX before BAD_REG. -/
theorem test_err_index :
    (after (step (sent toyCore [0x2F010042#32]))).map (fun s => (s.results, s.status, s.errcmd)) =
      some ([0#32], 0x41#32, 0x2F010042#32) := by decide
/-- P4 line 3: a second error is not recorded. -/
theorem test_err_first_kept :
    (after (step (sent { toyCore with status := 0x41#32, errcmd := 0x21010000#32 } [0x50000000#32]))).map
      (fun s => (s.results, s.status, s.errcmd)) = some ([], 0x41#32, 0x21010000#32) := by decide
/-- 20_memory.md R54: three bytes are no word. -/
theorem test_partial_word_waits :
    after (step { toyCore with link := [0x00#8, 0x00#8, 0x00#8] }) = some { toyCore with link := [0x00#8, 0x00#8, 0x00#8] } := by
  decide
/-- The first instruction after reset runs from its table word. -/
theorem test_first_instruction :
    (after (step (State.reset.withFetchWord 32 0x0F000002))).map State.results = some [0x524E0007#32] := by decide

/-! ### Witnesses: the hypotheses of each statement can be met -/

/-- The link of WorkedEncodings' first line with a byte of a later command. -/
theorem witness_EncodeOfDecode :
    fetch [0x00#8, 0x00#8, 0x00#8, 0x21#8, 0x00#8, 0x00#8, 0x80#8, 0x3E#8, 0x01#8] =
      .command (.oscProc 0#8 0x3E800000#32) [0x01#8] := by decide
theorem witness_DecodingAgreesWithOpcodeTable :
    (OpcodeRow.mk "ED.SET" 0x10000000#32 0xFF00FFFF#32) ∈ opcodeRows ∧
    (OpcodeRow.mk "ED.SET" 0x10000000#32 0xFF00FFFF#32).matchesWord 0x10FF0000#32 = true := by decide
/-- Each clause of the length rule: equal bits 31:24, an unassigned class, an unassigned OP, and a sent command that
fails a check. -/
theorem witness_CommandLengthRule :
    fieldOp 0x21000000#32 = fieldOp 0x21FFFFFF#32 ∧ 5 ≤ (fieldClass 0x50000000#32).toNat ∧
    assignedOp 0x15000000#32 = false ∧
    (sent toyCore [0x21010100#32, 0x3F800000#32]).link =
      wordBytes 0x21010100#32 ++ ([0x3F800000#32].flatMap wordBytes ++ []) ∧
    [0x3F800000#32].length = operandCount 0x21010100#32 ∧ firstCause one 2 0x21010100#32 ≠ none := by decide
/-- At the boundaries: 3 bytes of a word, and 11 of the 12 operand bytes of CONV.TOSAW. -/
theorem witness_PartialCommandWaits :
    ([0x00#8, 0x00#8, 0x00#8] : List Byte).length < 4 ∧
    (List.replicate 11 0x00#8).length < 4 * operandCount 0x40000000#32 := by decide
/-- Both forms of the hypothesis: the bytes that stand on the link, and what the fetch reads. -/
theorem witness_StepRunsDecodedInstruction :
    (sent toyCore [0x31000000#32, 0x00000004#32]).link = encodeBytes (.divSetn 0#8 4#32) ++ [] ∧
    fetch (sent toyCore [0x31000000#32, 0x00000004#32]).link = .command (.divSetn 0#8 4#32) [] := by decide
/-- One word for each cause of 60_exceptions.md R211. -/
theorem witness_MalformedCommandEffect :
    firstCause toyCore.counts toyCore.params.win 0x50000000#32 = some .illegalClass ∧
    firstCause toyCore.counts toyCore.params.win 0x02000000#32 = some .illegalOp ∧
    firstCause toyCore.counts toyCore.params.win 0x11000001#32 = some .reserved ∧
    firstCause toyCore.counts toyCore.params.win 0x22010000#32 = some .badIndex ∧
    firstCause toyCore.counts toyCore.params.win 0x2F000042#32 = some .badReg ∧
    (sent toyCore [0x2F000042#32]).link = wordBytes 0x2F000042#32 ++ (([] : List Word).flatMap wordBytes ++ []) ∧
    ([] : List Word).length = operandCount 0x2F000042#32 := by decide
theorem witness_CheckedCommandRuns :
    firstCause toyCore.counts toyCore.params.win 0x2F000041#32 = none ∧
    (sent toyCore [0x2F000041#32]).link = wordBytes 0x2F000041#32 ++ (([] : List Word).flatMap wordBytes ++ []) ∧
    ([] : List Word).length = operandCount 0x2F000041#32 := by decide
theorem witness_ErrorLatchIsSticky :
    ({ toyCore with status := 0x41#32 } : State).status.getLsbD 0 = true ∧
    (after (step (sent { toyCore with status := 0x41#32 } [0x50000000#32]))).isSome = true ∧
    WellFormed toyCore.counts toyCore.params.win (.edSet 0#8 0#32) = true ∧ Instr.edSet 0#8 0#32 ≠ .coreReset ∧
    (after (exec (.edSet 0#8 0#32) toyCore)).isSome = true := by decide
theorem witness_InvariantHoldsAtReset : legalCounts one = true ∧ legalParams toy = true := by decide
theorem witness_EveryStepKeepsInvariant :
    (sent toyCore [0x21000000#32, 0x3E800000#32]).inv = true ∧
    (after (step (sent toyCore [0x21000000#32, 0x3E800000#32]))).isSome = true := by decide +kernel
theorem witness_ConstantsNeverChange : (after (step (sent toyCore [0x01000000#32]))).isSome = true := by decide
theorem witness_CoreGetResult : legalCounts toyCore.counts = true ∧ legalParams toyCore.params = true := by decide
/-- Each clause of ClassifyHysteresis: above, below, inside, a NaN, equal to TH_HI, equal to TH_LO. -/
theorem witness_ClassifyHysteresis :
    legalParams toy = true ∧ flt (val toy.thHi) (val 0x40A00000#32) = true ∧ flt (val 0xC0A00000#32) (val toy.thLo) = true ∧
    flt (val toy.thHi) (val 0x3F000000#32) = false ∧ flt (val 0x3F000000#32) (val toy.thLo) = false ∧
    (val 0x7FC00000#32).isNaN = true ∧ feq (val 0x3F800000#32) (val toy.thHi) = true ∧
    feq (val 0x80000000#32) (val toy.thLo) = true := by decide
/-- The instance every result statement of its class asks for. -/
theorem witness_EdSetResult : toyCore.eds[(0#8).toNat]? = some EdState.powerOn := by decide
theorem witness_EdResetResult : (withEd high).eds[(0#8).toNat]? = some high := by decide
theorem witness_EdQueriesReturnFlags : (withEd low).eds[(0#8).toNat]? = some low := by decide
theorem witness_EdGetResult : (withEd { low with cur := true }).eds[(0#8).toNat]? = some { low with cur := true } := by
  decide
/-- The one-sample clauses, and a trace with a rise, a fall, a rise and a fall. -/
theorem witness_SchmittTrigger :
    low.armed = true ∧ low.cur = false ∧ (edFeed toy low (val 0x40A00000#32)).cur = true ∧
    high.cur = true ∧ (edFeed toy high (val 0xC0A00000#32)).cur = false ∧
    fle (val toy.thLo) (val 0x3F800000#32) = true ∧ fle (val 0x3F800000#32) (val toy.thHi) = true ∧
    (edTrace toy low [val 0x40A00000#32, val 0xC0A00000#32, val 0x40A00000#32, val 0xC0A00000#32]).map EdState.rising =
      [true, false, true, false] ∧
    (edTrace toy low [val 0x40A00000#32, val 0xC0A00000#32, val 0x40A00000#32, val 0xC0A00000#32]).map EdState.trailing =
      [false, true, false, true] := by
  decide
theorem witness_OscSetfResult : toyCore.oscs[(0#8).toNat]? = some (OscState.powerOn 2) := by decide
theorem witness_OscProcResult : (withOsc osc1).oscs[(0#8).toNat]? = some osc1 := by decide
theorem witness_OscResetResult : (withOsc oscRow3).oscs[(0#8).toNat]? = some oscRow3 := by decide
/-- At the last ring entry, i = L - 1. -/
theorem witness_OscGetResult :
    (withOsc osc1).oscs[(0#8).toNat]? = some osc1 ∧ 1 < (withOsc osc1).params.win ∧ (withOsc osc1).params.win ≤ 64 := by
  decide
theorem witness_WrapIsExact : legalParams toy = true ∧ unitPhase 0x3F7FFFFF#32 = true := by decide
theorem witness_OneDiscontinuityPerSample :
    legalParams toy = true ∧ unitPhase 0x3F400000#32 = true ∧
    oscWrapped (fadd (val 0x3F400000#32) (clampInc toy (val 0x3E800000#32))) = true := by decide
/-- A WRAP, and a HALF at s = 0.5 exactly. -/
theorem witness_OffsetWithinSample :
    legalParams toy = true ∧ unitPhase 0x3F400000#32 = true ∧ unitPhase 0x3E800000#32 = true ∧
    oscEvent (val 0x3F400000#32) (fadd (val 0x3F400000#32) (clampInc toy (val 0x3E800000#32))) = .wrap ∧
    oscEvent (val 0x3E800000#32) (fadd (val 0x3E800000#32) (clampInc toy (val 0x3E800000#32))) = .half := by decide
/-- t = -0.5 (i clamped to 0), t = 0 (i = 0) and t = L = 2 (i clamped to L*O - 1); and the table's last word. -/
theorem witness_ResidualEndsAtZero :
    legalParams toy = true ∧ fmul (val 0xBF000000#32) (itof toy.oversamp) = .fin true unitMag ∧
    fmul (val 0x00000000#32) (itof toy.oversamp) = .fin false 0 ∧
    fmul (val 0x40000000#32) (itof toy.oversamp) = .fin false (4 * unitMag) ∧
    ([0xBF000000#32, 0xBEC00000#32, 0xBE800000#32, 0xBE000000#32, 0x00000000#32] : List Word)[4]? = some 0x00000000#32 := by
  decide
/-- Half way between E[0] = -0.5 and E[1] = -0.375: t = 0.25 is pf = 0.5, and the value is -0.4375. -/
theorem test_residual_interpolates : bits (resE toy (val 0x3E800000#32)) = 0xBEE00000#32 := by decide
theorem witness_BlepInsertAddsOneTermPerEntry :
    ([0#32, 0#32] : List Word).length = toy.win ∧ 1 < toy.win := by decide
/-- V-OSC-Z: a pending correction, then zero frequency for L samples. -/
theorem witness_ZeroIncrementHoldsAndDrains :
    legalParams toy = true ∧
    oscOk toy { OscState.powerOn 2 with phase := 0x3F000000#32, bsq := [0x3F000000#32, 0#32] } = true ∧
    (∀ x ∈ ([0x3E800000#32, 0x3E800000#32, 0x3E800000#32] : List Word),
      oscInc toy { OscState.powerOn 2 with phase := 0x3F000000#32, bsq := [0x3F000000#32, 0#32] } (operandF x) = fpZero) ∧
    toy.win ≤ [0x3E800000#32, 0x3E800000#32].length := by
  refine ⟨by decide, by decide, fun x hx => ?_, by decide⟩
  simp only [List.mem_cons, List.not_mem_nil, or_false, or_self] at hx
  subst hx; decide
theorem witness_NaiveMatchWithoutCorrection : unitPhase 0x3F000000#32 = true ∧ (0x7FC00000#32 : Word) ≠ 0x80000000#32 := by
  decide
theorem witness_OscOutputsFiniteForEveryTable : legalParams toy = true := by decide
/-- The bounds a = 0 and b = 118, at the limit of a + b, and a step of an oscillator with a pending correction. -/
theorem witness_OscOutputsFiniteForBoundedTable :
    (sent tick7 [0x21000000#32, 0x3E800000#32]).inv = true ∧ tableWithin toy 0 = true ∧ 0 + 118 ≤ 118 ∧
    (∀ o ∈ tick7.oscs, oscOk toy o = true ∧ ringsWithin toy 0 o = true) ∧
    (after (step (sent tick7 [0x21000000#32, 0x3E800000#32]))).isSome = true ∧
    legalParams toy = true ∧ magAtMost (2 ^ 118 * unitMag) (val toy.oscScale) = true ∧
    legalCounts one = true ∧ describedParams toy = true ∧
    (sent tick7 [0x21000000#32, 0x3E800000#32]).finiteInv = true := by decide +kernel
/-- R125 by hand for L = 2, O = 1, E = [0, max, 0], a HALF step at d = 0: t = 1 reads E[1] = max, and R18's product
-2 * max is -Inf, so R31's last sentence contradicts R125 there (log 10). -/
theorem test_ring_overflow_is_forced :
    blepInsert { toy with oversamp := 1, table := .listed [0#32, 0x7F7FFFFF#32, 0#32] } [0#32, 0#32] 0 fpZero fpNegTwo =
      [0#32, 0xFF800000#32] := by decide +kernel
/-- R128 by hand: 0x7F7FFFFF * (1 + 1) is +Inf by R18, so R137 contradicts R128 there (log 10). -/
theorem test_output_overflow_is_forced :
    oscOutput { toy with oscScale := 0x7F7FFFFF#32 } fpOne fpOne = .inf false := by decide +kernel
/-- The largest finite residual in a table of L = 2, O = 1 leaves no room, and the default scale leaves room for 2^115. -/
theorem test_described_params :
    describedParams { toy with oversamp := 1, table := .listed [0#32, 0x7F7FFFFF#32, 0#32] } = false ∧
    describedParams { toy with oversamp := 1, table := .listed [0#32, 0x79000000#32, 0#32] } = true := by decide +kernel
/-- Both ends of the count's range. -/
theorem witness_DivCountRule :
    divOk DivState.powerOn = true ∧ divOk { DivState.powerOn with count := 63#32, n := 20#32 } = true := by decide
theorem witness_DivProcResult : (withDiv div4).divs[(0#8).toNat]? = some div4 := by decide
theorem witness_DivSetnResult : toyCore.divs[(0#8).toNat]? = some DivState.powerOn := by decide
theorem witness_DivSetmaxnResult : (withDiv { div4 with n := 20#32 }).divs[(0#8).toNat]? = some { div4 with n := 20#32 } := by
  decide
theorem witness_DivSetmodeResult : (withDiv { div4 with mode := true }).divs[(0#8).toNat]? = some { div4 with mode := true } := by
  decide
theorem witness_DivResetResult : (withDiv { div4 with phase := true }).divs[(0#8).toNat]? = some { div4 with phase := true } := by
  decide
theorem witness_DivGetResult : (withDiv { div4 with count := 3#32 }).divs[(0#8).toNat]? = some { div4 with count := 3#32 } := by
  decide
/-- V-DIV-6: SETN 2 under a count of 6; and the boundary count = N. -/
theorem witness_ReconfigurationIsGlitchFree :
    divOk { div4 with n := 8#32, count := 6#32 } = true ∧
    (divWithN { div4 with n := 8#32, count := 6#32 } 2#32).n.toInt ≤ (6#32).toInt ∧
    (divWithN { div4 with n := 8#32, count := 6#32 } 6#32).n.toInt = (6#32).toInt := by decide
theorem witness_PhaseIsEdgeLocked : (divFeed toy div4 (val 0xC0A00000#32)).phase ≠ div4.phase := by decide
theorem witness_DivisionRatio :
    div4.count.toInt = -1 ∧ div4.phase = false ∧ div4.n = BitVec.ofNat 32 4 ∧ 1 ≤ 4 ∧ 4 ≤ 64 := by decide
theorem witness_ConvTosawResult : (withConv { phase := 0#32, ed := high }).convs[(0#8).toNat]? = some { phase := 0#32, ed := high } := by
  decide
theorem witness_ConvResetResult : (withConv { phase := 0#32, ed := low }).convs[(0#8).toNat]? = some { phase := 0#32, ed := low } := by
  decide
theorem witness_ConvGetResult : toyCore.convs[(0#8).toNat]? = some ConvState.powerOn := by decide
theorem witness_TrailingEdgeRestartsRamp : (edFeed toy high (val 0xC0A00000#32)).trailing = true := by decide
/-- At the boundary 1.0, and at 2.5. -/
theorem witness_ConverterWrapIsExact :
    representable unitMag = true ∧ unitMag < overflowMag ∧
    representable (5 * 2 ^ 148) = true ∧ unitMag ≤ 5 * 2 ^ 148 ∧ 5 * 2 ^ 148 < overflowMag := by decide
theorem witness_OtherInstancesUntouched :
    (after (exec (.edSet 0#8 0#32) toyCore)).isSome = true ∧ Instr.edSet 0#8 0#32 ≠ .coreReset ∧
    target (.edSet 0#8 0#32) ≠ some (.div, 0) := by decide
theorem witness_OnlyTheAddressedInstanceIsRead :
    target (.divProc 0#8 0xC0A00000#32) = some (.div, 0) ∧
    sameUnit .div 0 (withDiv div4) { withDiv div4 with eds := [high, low] } ∧
    (withDiv div4).params = ({ withDiv div4 with eds := [high, low] } : State).params ∧
    (after (exec (.divProc 0#8 0xC0A00000#32) (withDiv div4))).isSome = true ∧
    (after (exec (.divProc 0#8 0xC0A00000#32) { withDiv div4 with eds := [high, low] })).isSome = true := by
  refine ⟨by decide, rfl, rfl, by decide, by decide⟩
theorem witness_SettersAndResetsIdempotent :
    idempotentCommand (.divSetn 0#8 100#32) = true ∧ (after (exec (.divSetn 0#8 100#32) toyCore)).isSome = true := by decide
theorem witness_RampRestartsWithDividerToggle :
    tick7.oscs[(0#8).toNat]? ≠ none ∧ tick7.divs[(0#8).toNat]? ≠ none ∧
    tick7.convs[(0#8).toNat]? = some { phase := 0x3F400000#32, ed := high } ∧ high.armed = true ∧ high.cur = true ∧
    legalParams tick7.params = true ∧ flt (val tick7.params.divLevel).negate (val tick7.params.thLo) = true ∧
    (after (hostTick 0#8 0#8 0#8 0x3F000000#32 0x3E800000#32 tick7)).map (fun s => (s.divs.map DivState.phase, s.results)) =
      some ([false], [0xC0200000#32, 0x40200000#32, 0x00000000#32, 0xC0A00000#32, 0xC0700000#32]) := by decide +kernel
theorem witness_RoundingIsToNearestEven : 0 < 1 ∧ representable (2 ^ 24) = true := by decide

end Sys2Proof.Tests
end

