-- ==== Sys2Proof/Proofs/Fetch.lean ====
section
/-! PROOFS. The fetch reads back the bytes of an instruction, and a step runs what the fetch reads. -/

namespace Sys2Proof.Proofs

open Sys2Proof Sys2Proof.Machine Sys2Proof.Laws

/-! ### Decoding a command word the encoder made (30_encoding.md R77, R78) -/

theorem decodePlain_header (op k : Byte) (i : Instr) : decodePlain (header op k 0#8) i = .instr i := by
  simp [decodePlain]

theorem decodeGet_header (op k reg : Byte) (i : Instr) : decodeGet (header op k reg) i = .instr i := by
  simp [decodeGet]

theorem decodeBlock_header (op reg : Byte) (i : Instr) : decodeBlock (header op 0#8 reg) (.instr i) = .instr i := by
  simp [decodeBlock]

theorem decode_commandWord (i : Instr) : decode (commandWord i) (operandWords i) = .instr i := by
  cases i <;>
    simp [decode, commandWord, operandWords, decodePlain_header, decodeGet_header, decodeBlock_header]

/-- The lengths of R72 are those of the encoder, one law for each instruction. -/
theorem operandWords_length (i : Instr) : (operandWords i).length = operandCount (commandWord i) :=
  match i with
  | .coreNop           => OperandLength.coreNop
  | .coreReset         => OperandLength.coreReset
  | .coreGet reg       => OperandLength.coreGet reg
  | .edSet k x         => OperandLength.edSet k x
  | .edReset k         => OperandLength.edReset k
  | .edRising k        => OperandLength.edRising k
  | .edTrailing k      => OperandLength.edTrailing k
  | .edAny k           => OperandLength.edAny k
  | .edGet k reg       => OperandLength.edGet k reg
  | .oscSetf k f       => OperandLength.oscSetf k f
  | .oscProc k dt      => OperandLength.oscProc k dt
  | .oscReset k        => OperandLength.oscReset k
  | .oscGet k reg      => OperandLength.oscGet k reg
  | .divProc k clk     => OperandLength.divProc k clk
  | .divSetn k n       => OperandLength.divSetn k n
  | .divSetmaxn k m    => OperandLength.divSetmaxn k m
  | .divSetmode k mode => OperandLength.divSetmode k mode
  | .divReset k        => OperandLength.divReset k
  | .divGet k reg      => OperandLength.divGet k reg
  | .convTosaw k v f d => OperandLength.convTosaw k v f d
  | .convReset k       => OperandLength.convReset k
  | .convGet k reg     => OperandLength.convGet k reg

/-! ### The link -/

/-- The words of a command stand whole at the front of the link, and decode. -/
theorem fetch_command_of_decode (w : Word) (operands : List Word) (rest : List Byte) (i : Instr)
    (hlen : operands.length = operandCount w) (hdec : decode w operands = .instr i) :
    fetch (wordBytes w ++ (operands.flatMap wordBytes ++ rest)) = .command i rest := by
  simp only [fetch, takeWord_wordBytes, ← hlen, takeWords_flatMap, hdec]

theorem encodeBytes_append (i : Instr) (rest : List Byte) :
    encodeBytes i ++ rest = wordBytes (commandWord i) ++ ((operandWords i).flatMap wordBytes ++ rest) := by
  simp [encodeBytes, encode]

theorem fetch_encodeBytes (i : Instr) (rest : List Byte) : fetch (encodeBytes i ++ rest) = .command i rest := by
  rw [encodeBytes_append]
  exact fetch_command_of_decode _ _ _ _ (operandWords_length i) (decode_commandWord i)

theorem wordBytes_length (w : Word) : (wordBytes w).length = 4 := rfl

theorem encodeBytes_length (i : Instr) : (encodeBytes i).length = 4 * (1 + operandCount (commandWord i)) := by
  rw [← operandWords_length i]
  simp only [encodeBytes, encode, List.length_flatMap, wordBytes_length, List.map_cons, List.map_const',
    List.sum_cons, List.sum_replicate_nat]
  omega

/-! ### One step -/

theorem step_of_fetch_command (s : State) (i : Instr) (rest : List Byte) (h : fetch s.link = .command i rest) :
    step s = exec i { s with link := rest } := by
  rcases step_cases s with ⟨hw, -⟩ | ⟨j, rest', hc, hs⟩ | ⟨c, w, rest', hill, -⟩
  · cases h.symm.trans hw
  · cases h.symm.trans hc
    exact hs
  · cases h.symm.trans hill

/-- Settles O9: the bytes of an instruction are read back by the fetch, and a step runs what the fetch reads. -/
theorem stepRunsDecodedInstruction : Obligations.StepRunsDecodedInstruction :=
  ⟨fun s i rest hl => step_of_fetch_command s i rest (hl ▸ fetch_encodeBytes i rest), encodeBytes_length,
    step_of_fetch_command⟩

end Sys2Proof.Proofs
end

