-- ==== Sys2Proof/Proofs/Binary32.lean ====
section
/-! PROOFS. Binary32 data (00_scope.md R17, R18): a bit pattern survives unpacking and packing, and the operations
on finite data are the exact result rounded once, to the nearest magnitude, a tie to the even significand. -/

namespace Sys2Proof.Proofs

open Sys2Proof Sys2Proof.Machine Sys2Proof.Laws

/-! ### A normal form of representable magnitudes: n * 2^s, n below 2^24, and at least 2^23 unless s is 0 -/

/-- How many low bits the significand of a magnitude in normal form drops. -/
theorem log2_mul_pow_sub (n s : Nat) (hn : n < 2 ^ 24) (hn' : 0 < s → 2 ^ 23 ≤ n) :
    (n * 2 ^ s).log2 - 23 = s := by
  rcases Nat.eq_zero_or_pos s with rfl | hs
  · rcases Nat.eq_zero_or_pos n with rfl | hpos
    · simp
    · have : n.log2 < 24 := (Nat.log2_lt hpos.ne').mpr hn
      rw [Nat.pow_zero, Nat.mul_one]
      omega
  · have hlow := Nat.mul_le_mul_right (2 ^ s) (hn' hs)
    have hhigh := Nat.mul_lt_mul_of_pos_right hn (Nat.two_pow_pos s)
    rw [← Nat.pow_add] at hlow hhigh
    have hne : n * 2 ^ s ≠ 0 := (lt_of_lt_of_le (Nat.two_pow_pos _) hlow).ne'
    have hge : 23 + s ≤ (n * 2 ^ s).log2 := (Nat.le_log2 hne).mpr hlow
    have hlt : (n * 2 ^ s).log2 < 24 + s := (Nat.log2_lt hne).mpr hhigh
    omega

theorem significand_mul_pow (n s : Nat) (hn : n < 2 ^ 24) (hn' : 0 < s → 2 ^ 23 ≤ n) :
    significand (n * 2 ^ s) = n := by
  rw [significand, log2_mul_pow_sub n s hn hn', Nat.mul_div_cancel _ (Nat.two_pow_pos s)]

theorem magBits_mul_pow (n s : Nat) (hn : n < 2 ^ 24) (hn' : 0 < s → 2 ^ 23 ≤ n) :
    magBits (n * 2 ^ s) = s * 2 ^ 23 + n := by
  simp only [magBits, log2_mul_pow_sub n s hn hn', Nat.mul_div_cancel _ (Nat.two_pow_pos s)]

/-- The next magnitude after one with an odd significand has an even one, also where it is the next power of two. -/
theorem significand_succ_even (n s : Nat) (hn : n < 2 ^ 24) (hn' : 0 < s → 2 ^ 23 ≤ n) (hodd : n % 2 = 1) :
    significand ((n + 1) * 2 ^ s) % 2 = 0 := by
  rcases Nat.lt_or_ge (n + 1) (2 ^ 24) with hlt | hge
  · rw [significand_mul_pow _ _ hlt fun hs => (hn' hs).trans n.le_succ]
    omega
  · have hcarry : (n + 1) * 2 ^ s = 2 ^ 23 * 2 ^ (s + 1) := by
      rw [show n + 1 = 2 ^ 24 by omega, ← Nat.pow_add, ← Nat.pow_add]
      congr 1; omega
    rw [hcarry, significand_mul_pow _ _ (by decide) fun _ => le_rfl]
    decide

/-- No representable magnitude lies strictly between two neighbours in units of the last place. -/
theorem representable_le_or_ge (m n s : Nat) (hm : representable m = true) (hn' : 0 < s → 2 ^ 23 ≤ n) :
    m ≤ n * 2 ^ s ∨ (n + 1) * 2 ^ s ≤ m := by
  rcases le_or_gt m (n * 2 ^ s) with hle | hlt
  · exact .inl hle
  · have hdvd : 2 ^ s ∣ m := by
      rcases Nat.eq_zero_or_pos s with rfl | hs
      · simp
      · have hpow : 2 ^ (23 + s) ≤ m := by
          rw [Nat.pow_add]; exact (Nat.mul_le_mul_right _ (hn' hs)).trans hlt.le
        have hlog : 23 + s ≤ m.log2 := (Nat.le_log2 (by omega)).mpr hpow
        exact (pow_dvd_pow 2 (by omega)).trans ((representable_iff m).mp hm)
    obtain ⟨k, rfl⟩ := hdvd
    rw [Nat.mul_comm (2 ^ s)] at hlt ⊢
    exact .inr (Nat.mul_le_mul_right _ (Nat.lt_of_mul_lt_mul_right hlt))

/-! ### Rounding goes to the nearest, a tie to the even significand -/

/-- How far the exact ratio is from a magnitude, in units of 1 / den. -/
def roundingError (num den m : Nat) : Nat := ((num : Int) - m * den).natAbs

/-- One of the two truncated differences is zero; the other is the error. -/
theorem roundingError_eq (num den m : Nat) :
    roundingError num den m = (num - m * den) + (m * den - num) := by
  rw [roundingError, ← Nat.cast_mul]
  omega

/-- The ratio lies between two neighbours in units of the last place, and a representable magnitude lies at or beyond
one of them; a tie is between the two, and is rounded up from an odd significand and down to an even one. -/
theorem roundRatio_nearest_even (num den m : Nat) (hd : 0 < den) (hm : representable m = true) :
    roundingError num den (roundRatio num den) ≤ roundingError num den m ∧
    (roundingError num den (roundRatio num den) = roundingError num den m → m ≠ roundRatio num den →
      significand (roundRatio num den) % 2 = 0) := by
  obtain ⟨s, n, r, hnum, hr, hn, hn', heq⟩ := roundRatio_parts num den hd
  have hlow : n * 2 ^ s * den = n * (den * 2 ^ s) := by ring
  have hhigh : (n + 1) * 2 ^ s * den = n * (den * 2 ^ s) + den * 2 ^ s := by ring
  have hgap : m * den ≤ n * 2 ^ s * den ∨ (n + 1) * 2 ^ s * den ≤ m * den :=
    (representable_le_or_ge m n s hm hn').imp (Nat.mul_le_mul_right den) (Nat.mul_le_mul_right den)
  have hinj : ∀ c, m ≠ c → m * den ≠ c * den := fun c hne h => hne (Nat.eq_of_mul_eq_mul_right hd h)
  simp only [roundingError_eq]
  by_cases hup : den * 2 ^ s < 2 * r ∨ (2 * r = den * 2 ^ s ∧ n % 2 = 1)
  · rw [if_pos hup] at heq
    rw [heq]
    refine ⟨by omega, fun htie hmr => significand_succ_even n s hn hn' ?_⟩
    have hne := hinj _ hmr
    omega
  · rw [if_neg hup] at heq
    rw [heq]
    refine ⟨by omega, fun htie hmr => ?_⟩
    have hne := hinj _ hmr
    rw [significand_mul_pow n s hn hn']
    omega

/-! ### The operations on finite data -/

theorem signedMag_not (m : Bool) (y : Nat) : signedMag (!m) y = -signedMag m y := by
  cases m <;> simp

theorem fsub_fin_exact (n m : Bool) (x y : Nat) :
    fsub (.fin n x) (.fin m y) =
      if signedMag n x - signedMag m y = 0 then .fin (n && !m) 0
      else roundedOnce (decide (signedMag n x - signedMag m y < 0)) (signedMag n x - signedMag m y).natAbs 1 := by
  rw [fsub_fin, signedMag_not, ← Int.sub_eq_add_neg, roundedOnce_eq]

theorem fdiv_fin_zero (n m : Bool) (x : Nat) :
    fdiv (.fin n x) (.fin m 0) = if x = 0 then nanOf .div (.fin n x) (.fin m 0) else .inf (n ^^ m) := by
  rw [fdiv, if_pos rfl]

theorem natCast_unitMag : (unitMag : Int) = 2 ^ 149 := by
  rw [unitMag, Nat.cast_pow, Nat.cast_ofNat]

/-- The floor of a negative quotient is the ceiling of its magnitude, negated. -/
theorem neg_ediv_eq_neg_ceil (x u : Nat) (hu : 0 < u) : -(x : Int) / u = -((x + u - 1) / u : Nat) := by
  have hdiv : u * ((x + u - 1) / u) + (x + u - 1) % u = x + u - 1 := Nat.div_add_mod _ _
  have hmod : (x + u - 1) % u < u := Nat.mod_lt _ hu
  generalize (x + u - 1) / u = q at *
  have hsplit : -(x : Int) = ((u * q - x : Nat) : Int) + -(q : Int) * u := by
    rw [Nat.cast_sub (by omega)]
    push_cast
    ring
  rw [hsplit, Int.add_mul_ediv_right _ _ (by omega), Int.ediv_eq_zero_of_lt (by omega) (by omega), Int.zero_add]

/-- Floor drops the fraction of a datum that is not negative and rounds the magnitude of a negative one up. -/
theorem ffloor_fin_exact (n : Bool) (x : Nat) :
    ∃ r, ffloor (.fin n x) = .fin n r ∧ signedMag n r = signedMag n x / (2 ^ 149 : Int) * 2 ^ 149 := by
  rw [← natCast_unitMag]
  cases n with
  | false => exact ⟨x / unitMag * unitMag, by rw [ffloor], by simp⟩
  | true =>
    refine ⟨(x + unitMag - 1) / unitMag * unitMag, by rw [ffloor], ?_⟩
    rw [signedMag_true, signedMag_true, neg_ediv_eq_neg_ceil x unitMag (Nat.two_pow_pos 149), Nat.cast_mul,
      Int.neg_mul]

/-- Settles O60: R18's single rounding, first for `roundRatio`, then for each operation. -/
theorem roundingIsToNearestEven : Obligations.RoundingIsToNearestEven := by
  refine ⟨fun num den hd => ⟨roundRatio_representable num den hd, fun m hm => roundRatio_nearest_even num den m hd hm⟩,
    fun n m x y => ⟨fadd_fin n m x y, fsub_fin_exact n m x y, fmul_fin n m x y, fdiv_fin n m x y, ?_, ?_⟩,
    ffloor_fin_exact⟩
  · rintro rfl hx
    rw [fdiv_fin_zero, if_neg hx]
  · rintro rfl rfl
    rfl

/-! ### Bit patterns -/

theorem withSign_toNat (neg : Bool) (low : Nat) (h : low < 2 ^ 31) :
    (withSign neg low).toNat = neg.toNat * 2 ^ 31 + low := by
  rw [withSign, BitVec.toNat_append, BitVec.toNat_ofBool, BitVec.toNat_ofNat, Nat.mod_eq_of_lt h,
    ← Nat.shiftLeft_add_eq_or_of_lt h, Nat.shiftLeft_eq]

/-- Sign, exponent field and fraction make up the pattern (20_memory.md R52). -/
theorem withSign_fields (w : Word) :
    withSign (w.getLsbD 31) ((w.extractLsb' 23 8).toNat * 2 ^ 23 + (w.extractLsb' 0 23).toNat) = w := by
  have hf := (w.extractLsb' 0 23).isLt
  have he := (w.extractLsb' 23 8).isLt
  apply BitVec.eq_of_toNat_eq
  rw [withSign_toNat _ _ (by omega)]
  have hw := w.isLt
  have hsign : (w.getLsbD 31).toNat = w.toNat / 2 ^ 31 % 2 := Nat.toNat_testBit _ _
  rw [hsign, BitVec.extractLsb'_toNat, BitVec.extractLsb'_toNat, Nat.shiftRight_eq_div_pow, Nat.shiftRight_zero]
  omega

/-- Settles O59: an infinity, a NaN, a subnormal and a normal pattern each pack to the fields they came from. -/
theorem bitPatternsRoundTrip : Obligations.BitPatternsRoundTrip := by
  intro w
  have hw := withSign_fields w
  have hf := (w.extractLsb' 0 23).isLt
  simp only [Fp.ofBits]
  split
  next hexp =>
    split
    next hfrac => rwa [hexp, hfrac] at hw
    next => rfl
  next =>
    split
    next hexp =>
      have hsub : magBits (w.extractLsb' 0 23).toNat = (w.extractLsb' 0 23).toNat := by
        simpa using magBits_mul_pow (w.extractLsb' 0 23).toNat 0 (by omega) (by omega)
      rwa [hexp, Nat.zero_mul, Nat.zero_add, ← hsub] at hw
    next hexp =>
      rw [Fp.toBits, magBits_mul_pow _ _ (by omega) (by omega)]
      convert hw using 2
      omega

end Sys2Proof.Proofs
end

