-- ==== Sys2Proof/Proofs/Commands.lean ====
section
/-! PROOFS. What a command can do, said once as an inversion of `exec`: it changes at most the unit it addresses,
by one of the unit's own transitions (10_state.md R47). So no step changes a constant (R24), and no command reaches
another unit. -/

namespace Sys2Proof.Proofs

open Sys2Proof Sys2Proof.Machine Sys2Proof.Laws

/-! ### The transitions of one unit -/

/-- What a command can make of a detector (41_edge_detector.md R103, R104). -/
inductive EdStep (p : Config.Params) (e : EdState) : EdState → Prop where
  | feed (x : Fp) : EdStep p e (edFeed p e x)
  | clear : EdStep p e (edClear e)

/-- What a command can make of an oscillator (42_oscillator.md R129 to R131). -/
inductive OscStep (p : Config.Params) (o : OscState) : OscState → Prop where
  | setf (f : Word) : OscStep p o { o with freq := clampFreq f }
  | sample (dt : Fp) : OscStep p o (oscSample p o dt).1
  | clear : OscStep p o (oscClear p o)

/-- What a command can make of a divider (43_divider.md R152 to R156). -/
inductive DivStep (p : Config.Params) (d : DivState) : DivState → Prop where
  | feed (clk : Fp) : DivStep p d (divFeed p d clk)
  | withN (n : Word) : DivStep p d (divWithN d n)
  | withMaxN (m : Word) : DivStep p d (divWithMaxN d m)
  | withMode (mode : Word) : DivStep p d (divWithMode d mode)
  | clear : DivStep p d (divClear d)

/-- What a command can make of a converter (44_converter.md R181, R182). -/
inductive ConvStep (p : Config.Params) (c : ConvState) : ConvState → Prop where
  | sample (value freq dt : Fp) : ConvStep p c (convSample p c value freq dt).1
  | clear : ConvStep p c (convClear c)

/-! ### The effects of a command -/

/-- The states a command can lead to: only result words are returned, an error is taken, everything is reset, or the
addressed unit makes one transition and words are returned. -/
inductive Effect (i : Instr) (s : State) : State → Prop where
  | returned (ws : List Word) : Effect i s (s.pushResults ws)
  | error (c : Cause) : Effect i s (takeError c (commandWord i) s)
  | reset (hi : i = .coreReset) : Effect i s (blockReset s)
  | ed (k : Nat) (e e' : EdState) (ws : List Word) (hi : target i = some (.ed, k)) (hk : s.eds[k]? = some e)
      (hstep : EdStep s.params e e') : Effect i s ({ s with eds := s.eds.set k e' }.pushResults ws)
  | osc (k : Nat) (o o' : OscState) (ws : List Word) (hi : target i = some (.osc, k)) (hk : s.oscs[k]? = some o)
      (hstep : OscStep s.params o o') : Effect i s ({ s with oscs := s.oscs.set k o' }.pushResults ws)
  | div (k : Nat) (d d' : DivState) (ws : List Word) (hi : target i = some (.div, k)) (hk : s.divs[k]? = some d)
      (hstep : DivStep s.params d d') : Effect i s ({ s with divs := s.divs.set k d' }.pushResults ws)
  | conv (k : Nat) (c c' : ConvState) (ws : List Word) (hi : target i = some (.conv, k)) (hk : s.convs[k]? = some c)
      (hstep : ConvStep s.params c c') : Effect i s ({ s with convs := s.convs.set k c' }.pushResults ws)

section
variable {i : Instr} {k : Byte} {s t : State}

theorem effect_unchanged : Effect i s s := by
  simpa only [pushResults_nil] using Effect.returned (i := i) (s := s) []

theorem returnWord_effect {v : Option Word} (h : returnWord i s v = .next t) : Effect i s t := by
  rcases returnWord_cases i s t v h with ⟨x, -, rfl⟩ | ⟨-, rfl⟩
  · exact .returned [x]
  · exact .error _

theorem onEd_effect {f : EdState → EdState × List Word} (hi : target i = some (.ed, k.toNat))
    (hf : ∀ e, EdStep s.params e (f e).1) (h : onEd i k s f = .next t) : Effect i s t := by
  rcases onEd_cases i k s t f h with ⟨e, he, rfl⟩ | ⟨-, rfl⟩
  · exact .ed _ e _ _ hi he (hf e)
  · exact .error _

theorem readEd_effect {f : EdState → Option Word} (h : readEd i k s f = .next t) : Effect i s t := by
  rcases readEd_cases i k s t f h with ⟨e, x, -, -, rfl⟩ | ⟨c, rfl⟩
  · exact .returned [x]
  · exact .error c

theorem onOsc_effect {f : OscState → OscState × List Word} (hi : target i = some (.osc, k.toNat))
    (hf : ∀ o, OscStep s.params o (f o).1) (h : onOsc i k s f = .next t) : Effect i s t := by
  rcases onOsc_cases i k s t f h with ⟨o, ho, rfl⟩ | ⟨-, rfl⟩
  · exact .osc _ o _ _ hi ho (hf o)
  · exact .error _

theorem readOsc_effect {f : OscState → Option Word} (h : readOsc i k s f = .next t) : Effect i s t := by
  rcases readOsc_cases i k s t f h with ⟨o, x, -, -, rfl⟩ | ⟨c, rfl⟩
  · exact .returned [x]
  · exact .error c

theorem onDiv_effect {f : DivState → DivState × List Word} (hi : target i = some (.div, k.toNat))
    (hf : ∀ d, DivStep s.params d (f d).1) (h : onDiv i k s f = .next t) : Effect i s t := by
  rcases onDiv_cases i k s t f h with ⟨d, hd, rfl⟩ | ⟨-, rfl⟩
  · exact .div _ d _ _ hi hd (hf d)
  · exact .error _

theorem readDiv_effect {f : DivState → Option Word} (h : readDiv i k s f = .next t) : Effect i s t := by
  rcases readDiv_cases i k s t f h with ⟨d, x, -, -, rfl⟩ | ⟨c, rfl⟩
  · exact .returned [x]
  · exact .error c

theorem onConv_effect {f : ConvState → ConvState × List Word} (hi : target i = some (.conv, k.toNat))
    (hf : ∀ c, ConvStep s.params c (f c).1) (h : onConv i k s f = .next t) : Effect i s t := by
  rcases onConv_cases i k s t f h with ⟨c, hc, rfl⟩ | ⟨-, rfl⟩
  · exact .conv _ c _ _ hi hc (hf c)
  · exact .error _

theorem readConv_effect {f : ConvState → Option Word} (h : readConv i k s f = .next t) : Effect i s t := by
  rcases readConv_cases i k s t f h with ⟨c, x, -, -, rfl⟩ | ⟨c, rfl⟩
  · exact .returned [x]
  · exact .error c

end

/-- Whatever a command leads to is one of its effects. -/
theorem exec_effect (i : Instr) (s t : State) (h : exec i s = .next t) : Effect i s t :=
  match i with
  | .coreNop           => Host.Outcome.next.inj h ▸ effect_unchanged
  | .coreReset         => Host.Outcome.next.inj h ▸ .reset rfl
  | .coreGet _         => returnWord_effect h
  | .edSet _ _         => onEd_effect rfl (fun _ => .feed _) h
  | .edReset _         => onEd_effect rfl (fun _ => .clear) h
  | .edRising _        => readEd_effect h
  | .edTrailing _      => readEd_effect h
  | .edAny _           => readEd_effect h
  | .edGet _ _         => readEd_effect h
  | .oscSetf _ f       => onOsc_effect rfl (fun _ => .setf f) h
  | .oscProc _ _       => onOsc_effect rfl (fun _ => .sample _) h
  | .oscReset _        => onOsc_effect rfl (fun _ => .clear) h
  | .oscGet _ _        => readOsc_effect h
  | .divProc _ _       => onDiv_effect rfl (fun _ => .feed _) h
  | .divSetn _ n       => onDiv_effect rfl (fun _ => .withN n) h
  | .divSetmaxn _ m    => onDiv_effect rfl (fun _ => .withMaxN m) h
  | .divSetmode _ mode => onDiv_effect rfl (fun _ => .withMode mode) h
  | .divReset _        => onDiv_effect rfl (fun _ => .clear) h
  | .divGet _ _        => readDiv_effect h
  | .convTosaw _ _ _ _ => onConv_effect rfl (fun _ => .sample _ _ _) h
  | .convReset _       => onConv_effect rfl (fun _ => .clear) h
  | .convGet _ _       => readConv_effect h

/-! ### Properties that every step keeps -/

/-- A property of the state that does not look at the link is kept by every step if the effects of commands and
errors keep it. -/
theorem step_keeps (P : State → Prop) (hlink : ∀ s rest, P s → P { s with link := rest })
    (herror : ∀ c w s, P s → P (takeError c w s)) (heffect : ∀ i s t, Effect i s t → P s → P t)
    (s t : State) (hs : P s) (h : step s = .next t) : P t := by
  rcases step_cases s with ⟨-, hw⟩ | ⟨i, rest, -, hi⟩ | ⟨c, w, rest, -, he⟩
  · cases hw.symm.trans h
    exact hs
  · exact heffect i _ t (exec_effect i _ t (hi.symm.trans h)) (hlink s rest hs)
  · cases he.symm.trans h
    exact herror c w _ (hlink s rest hs)

/-! ### Constants (10_state.md R24) -/

theorem effect_params {i : Instr} {s t : State} (h : Effect i s t) : t.params = s.params := by
  cases h with
  | returned | reset | ed | osc | div | conv => rfl
  | error c => exact takeError_params _ _ _

theorem effect_counts {i : Instr} {s t : State} (h : Effect i s t) : t.counts = s.counts := by
  cases h with
  | returned => rfl
  | error c => exact takeError_counts _ _ _
  | reset => exact blockReset_counts s
  | ed | osc | div | conv => simp [State.counts]

/-- Settles O17: no effect of a command changes the parameters or the length of a list of instances. -/
theorem constantsNeverChange : Obligations.ConstantsNeverChange := by
  intro s
  refine fun t => step_keeps (fun u => u.params = s.params ∧ u.counts = s.counts) ?_ ?_ ?_ s t ⟨rfl, rfl⟩
  · exact fun _ _ hu => hu
  · rintro c w u ⟨hp, hc⟩
    exact ⟨(takeError_params c w u).trans hp, (takeError_counts c w u).trans hc⟩
  · rintro i u v hv ⟨hp, hc⟩
    exact ⟨(effect_params hv).trans hp, (effect_counts hv).trans hc⟩

/-! ### The frame of a command (10_state.md R47) -/

theorem sameUnit_takeError (u : UnitClass) (j : Nat) (c : Cause) (w : Word) (s : State) :
    sameUnit u j s (takeError c w s) := by
  cases u <;> simp [sameUnit]

/-- Settles O55: the only unit an effect other than the block reset writes is the addressed one. -/
theorem otherInstancesUntouched : Obligations.OtherInstancesUntouched := by
  intro i s t u j h hne hu
  have hother : ∀ u' k, target i = some (u', k) → u = u' → k ≠ j := by
    rintro u' k hi rfl rfl
    exact hu hi
  cases exec_effect i s t h with
  | returned ws => cases u <;> rfl
  | error c => exact sameUnit_takeError u j c _ s
  | reset hi => exact absurd hi hne
  | ed k e e' ws hi =>
    cases u with
    | ed => exact (List.getElem?_set_ne (hother _ _ hi rfl)).symm
    | osc | div | conv => rfl
  | osc k o o' ws hi =>
    cases u with
    | osc => exact (List.getElem?_set_ne (hother _ _ hi rfl)).symm
    | ed | div | conv => rfl
  | div k d d' ws hi =>
    cases u with
    | div => exact (List.getElem?_set_ne (hother _ _ hi rfl)).symm
    | ed | osc | conv => rfl
  | conv k c c' ws hi =>
    cases u with
    | conv => exact (List.getElem?_set_ne (hother _ _ hi rfl)).symm
    | ed | osc | div => rfl

/-! ### What a command reads (10_state.md R47)

The four classes reach their instances in the same way, so that a command reads no other unit is proved once, for
any list of units in the state. -/

/-- The instances of one class as a part of the state, and the two ways a command reaches one. -/
structure Instances (u : UnitClass) (α : Type) where
  get : State → List α
  put : State → List α → State
  on : Instr → Byte → State → (α → α × List Word) → Answer
  read : Instr → Byte → State → (α → Option Word) → Answer
  sameUnit_iff (j : Nat) (s t : State) : sameUnit u j s t ↔ (get s)[j]? = (get t)[j]?
  get_put (s : State) (l : List α) : get (put s l) = l
  get_pushResults (s : State) (ws : List Word) : get (s.pushResults ws) = get s
  get_takeError (c : Cause) (w : Word) (s : State) : get (takeError c w s) = get s
  results_put (s : State) (l : List α) : (put s l).results = s.results
  on_some (i : Instr) (k : Byte) (s : State) (f : α → α × List Word) (x : α) (h : (get s)[k.toNat]? = some x) :
    on i k s f = .next ((put s ((get s).set k.toNat (f x).1)).pushResults (f x).2)
  on_none (i : Instr) (k : Byte) (s : State) (f : α → α × List Word) (h : (get s)[k.toNat]? = none) :
    on i k s f = .next (takeError .badIndex (commandWord i) s)
  read_some (i : Instr) (k : Byte) (s : State) (f : α → Option Word) (x : α) (h : (get s)[k.toNat]? = some x) :
    read i k s f = returnWord i s (f x)
  read_none (i : Instr) (k : Byte) (s : State) (f : α → Option Word) (h : (get s)[k.toNat]? = none) :
    read i k s f = .next (takeError .badIndex (commandWord i) s)

def edInstances : Instances .ed EdState where
  get := State.eds
  put s l := { s with eds := l }
  on := onEd
  read := readEd
  sameUnit_iff _ _ _ := .rfl
  get_put _ _ := rfl
  get_pushResults := pushResults_eds
  get_takeError := takeError_eds
  results_put _ _ := rfl
  on_some := onEd_some
  on_none := onEd_none
  read_some := readEd_some
  read_none := readEd_none

def oscInstances : Instances .osc OscState where
  get := State.oscs
  put s l := { s with oscs := l }
  on := onOsc
  read := readOsc
  sameUnit_iff _ _ _ := .rfl
  get_put _ _ := rfl
  get_pushResults := pushResults_oscs
  get_takeError := takeError_oscs
  results_put _ _ := rfl
  on_some := onOsc_some
  on_none := onOsc_none
  read_some := readOsc_some
  read_none := readOsc_none

def divInstances : Instances .div DivState where
  get := State.divs
  put s l := { s with divs := l }
  on := onDiv
  read := readDiv
  sameUnit_iff _ _ _ := .rfl
  get_put _ _ := rfl
  get_pushResults := pushResults_divs
  get_takeError := takeError_divs
  results_put _ _ := rfl
  on_some := onDiv_some
  on_none := onDiv_none
  read_some := readDiv_some
  read_none := readDiv_none

def convInstances : Instances .conv ConvState where
  get := State.convs
  put s l := { s with convs := l }
  on := onConv
  read := readConv
  sameUnit_iff _ _ _ := .rfl
  get_put _ _ := rfl
  get_pushResults := pushResults_convs
  get_takeError := takeError_convs
  results_put _ _ := rfl
  on_some := onConv_some
  on_none := onConv_none
  read_some := readConv_some
  read_none := readConv_none

/-- Two runs leave the same unit `j` of class `u` and return the same words. -/
def SameEffect (u : UnitClass) (j : Nat) (s1 t1 s2 t2 : State) : Prop :=
  sameUnit u j t1 t2 ∧ t1.results.drop s1.results.length = t2.results.drop s2.results.length

section
variable {u : UnitClass} {α : Type} (U : Instances u α) {i : Instr} {k : Byte} {j : Nat} {s1 s2 t1 t2 : State}

include U in
theorem sameEffect_takeError (c : Cause) (w : Word) (hs : sameUnit u j s1 s2) :
    SameEffect u j s1 (takeError c w s1) s2 (takeError c w s2) := by
  refine ⟨?_, by simp⟩
  rw [U.sameUnit_iff] at hs ⊢
  rwa [U.get_takeError, U.get_takeError]

include U in
theorem sameEffect_pushResults (ws : List Word) (hs : sameUnit u j s1 s2) :
    SameEffect u j s1 (s1.pushResults ws) s2 (s2.pushResults ws) := by
  refine ⟨?_, by simp⟩
  rw [U.sameUnit_iff] at hs ⊢
  rwa [U.get_pushResults, U.get_pushResults]

/-- Two runs of a command on the same unit do the same to it, where the command itself is the same (`f1 = f2`;
it can depend on the parameters). -/
theorem on_sameEffect {f1 f2 : α → α × List Word} (hf : f1 = f2) (hs : sameUnit u k.toNat s1 s2)
    (h1 : U.on i k s1 f1 = .next t1) (h2 : U.on i k s2 f2 = .next t2) : SameEffect u k.toNat s1 t1 s2 t2 := by
  subst hf
  have hget := (U.sameUnit_iff _ _ _).mp hs
  cases hk : (U.get s1)[k.toNat]? with
  | none =>
    cases (U.on_none i k s1 f1 hk).symm.trans h1
    cases (U.on_none i k s2 f1 (hget ▸ hk)).symm.trans h2
    exact sameEffect_takeError U _ _ hs
  | some x =>
    have hk2 := hget ▸ hk
    cases (U.on_some i k s1 f1 x hk).symm.trans h1
    cases (U.on_some i k s2 f1 x hk2).symm.trans h2
    refine ⟨?_, by simp [U.results_put]⟩
    simp [U.sameUnit_iff, U.get_pushResults, U.get_put, List.getElem?_set_self', hk, hk2]

/-- Two reads of the same unit return the same. -/
theorem read_sameEffect {f1 f2 : α → Option Word} (hf : f1 = f2) (hs : sameUnit u k.toNat s1 s2)
    (h1 : U.read i k s1 f1 = .next t1) (h2 : U.read i k s2 f2 = .next t2) : SameEffect u k.toNat s1 t1 s2 t2 := by
  subst hf
  have hget := (U.sameUnit_iff _ _ _).mp hs
  cases hk : (U.get s1)[k.toNat]? with
  | none =>
    cases (U.read_none i k s1 f1 hk).symm.trans h1
    cases (U.read_none i k s2 f1 (hget ▸ hk)).symm.trans h2
    exact sameEffect_takeError U _ _ hs
  | some x =>
    have hr1 := (U.read_some i k s1 f1 x hk).symm.trans h1
    have hr2 := (U.read_some i k s2 f1 x (hget ▸ hk)).symm.trans h2
    cases hx : f1 x with
    | none =>
      rw [hx] at hr1 hr2
      cases hr1
      cases hr2
      exact sameEffect_takeError U _ _ hs
    | some v =>
      rw [hx] at hr1 hr2
      cases hr1
      cases hr2
      exact sameEffect_pushResults U _ hs

end

/-- A unit command does the same in two states that agree on that unit and on the parameters. -/
theorem exec_sameEffect (i : Instr) (u : UnitClass) (j : Nat) (s1 s2 t1 t2 : State) (hi : target i = some (u, j))
    (hs : sameUnit u j s1 s2) (hp : s1.params = s2.params) (h1 : exec i s1 = .next t1) (h2 : exec i s2 = .next t2) :
    SameEffect u j s1 t1 s2 t2 := by
  cases i with
  | coreNop | coreReset | coreGet => cases hi
  | edSet k x => cases hi; exact on_sameEffect edInstances (by rw [hp]) hs h1 h2
  | edReset => cases hi; exact on_sameEffect edInstances rfl hs h1 h2
  | edRising | edTrailing | edAny | edGet => cases hi; exact read_sameEffect edInstances rfl hs h1 h2
  | oscProc => cases hi; exact on_sameEffect oscInstances (by rw [hp]) hs h1 h2
  | oscReset => cases hi; exact on_sameEffect oscInstances (by rw [hp]) hs h1 h2
  | oscSetf => cases hi; exact on_sameEffect oscInstances rfl hs h1 h2
  | oscGet => cases hi; exact read_sameEffect oscInstances (by rw [hp]) hs h1 h2
  | divProc => cases hi; exact on_sameEffect divInstances (by rw [hp]) hs h1 h2
  | divSetn | divSetmaxn | divSetmode | divReset => cases hi; exact on_sameEffect divInstances rfl hs h1 h2
  | divGet => cases hi; exact read_sameEffect divInstances rfl hs h1 h2
  | convTosaw => cases hi; exact on_sameEffect convInstances (by rw [hp]) hs h1 h2
  | convReset => cases hi; exact on_sameEffect convInstances rfl hs h1 h2
  | convGet => cases hi; exact read_sameEffect convInstances rfl hs h1 h2

/-- Settles O56: `SameEffect` is what the statement asks for. -/
theorem onlyTheAddressedInstanceIsRead : Obligations.OnlyTheAddressedInstanceIsRead := exec_sameEffect

end Sys2Proof.Proofs
end

