-- ==== Sys2Proof/Proofs/Invariant.lean ====
section
/-! PROOFS. The invariant of 10_state.md R49: it holds at power-on, every transition of a unit keeps the unit's part of
it, and so every step keeps it. -/

namespace Sys2Proof.Proofs

open Sys2Proof Sys2Proof.Machine Sys2Proof.Laws

/-! ### Legal parameters and clamped increments (00_scope.md R9, R10; 42_oscillator.md R120) -/

theorem legalParams_win (p : Config.Params) (h : legalParams p = true) : 1 ≤ p.win ∧ p.win ≤ 64 := by
  simp only [legalParams, Bool.and_eq_true, decide_eq_true_eq] at h
  omega

theorem legalParams_oversamp (p : Config.Params) (h : legalParams p = true) : 1 ≤ p.oversamp ∧ p.oversamp ≤ 255 := by
  simp only [legalParams, Bool.and_eq_true, decide_eq_true_eq] at h
  omega

/-- A datum above +0 and below a finite one is finite. -/
theorem fin_of_pos_of_flt (x : Fp) (m : Nat) (hpos : flt fpZero x = true) (hlt : flt x (.fin false m) = true) :
    ∃ b, x = .fin false b ∧ b < m := by
  cases x with
  | nan bits => simp at hpos
  | inf neg => cases neg <;> simp_all [flt, fpZero]
  | fin neg b =>
    simp only [fpZero, flt_fin, decide_eq_true_eq] at hpos hlt
    cases neg with
    | true => simp only [signedMag_true, signedMag_false] at hpos; omega
    | false => exact ⟨b, rfl, by simpa using hlt⟩

theorem legalParams_incMax (p : Config.Params) (h : legalParams p = true) :
    ∃ m, Fp.ofBits p.incMax = .fin false m ∧ m < 2 ^ 148 := by
  simp only [legalParams, Bool.and_eq_true, and_assoc] at h
  obtain ⟨-, -, -, hpos, hhalf, -⟩ := h
  exact fin_of_pos_of_flt _ _ hpos hhalf

/-- A clamped increment is +0, or positive and below 0.5, whatever was clamped. -/
theorem clampInc_fin (p : Config.Params) (x : Fp) (h : legalParams p = true) :
    ∃ b, clampInc p x = .fin false b ∧ b < 2 ^ 148 := by
  obtain ⟨m, hm, hlt⟩ := legalParams_incMax p h
  unfold clampInc fmin
  rw [hm]
  split
  next hpos =>
    split
    next hx =>
      obtain ⟨b, rfl, hb⟩ := fin_of_pos_of_flt x m hpos hx
      exact ⟨b, rfl, hb.trans hlt⟩
    next => exact ⟨m, rfl, hlt⟩
  next => exact ⟨0, rfl, by decide⟩

/-! ### Magnitudes of phases -/

theorem unitMag_lt_overflowMag : unitMag < overflowMag := by decide

/-- A representable magnitude has at most 24 significant bits. -/
theorem exists_mul_pow_of_representable (m : Nat) (hm : representable m = true) :
    ∃ n s, n < 2 ^ 24 ∧ m = n * 2 ^ s := by
  obtain ⟨n, hn⟩ := (representable_iff m).mp hm
  refine ⟨n, m.log2 - 23, ?_, by rwa [Nat.mul_comm]⟩
  have hlt : m < 2 ^ (m.log2 - 23) * 2 ^ 24 := by
    rw [← Nat.pow_add]
    exact Nat.lt_log2_self.trans_le (Nat.pow_le_pow_right (by decide) (by omega))
  exact Nat.lt_of_mul_lt_mul_left (hn.symm.trans_lt hlt)

/-- What is left of a representable magnitude below a power of two is representable. -/
theorem representable_mod_two_pow (m e : Nat) (hm : representable m = true) : representable (m % 2 ^ e) = true := by
  obtain ⟨n, s, hn, rfl⟩ := exists_mul_pow_of_representable m hm
  rcases le_or_gt e s with hs | hs
  · rw [Nat.mod_eq_zero_of_dvd ((pow_dvd_pow 2 hs).mul_left n)]
    exact representable_zero
  · rw [show 2 ^ e = 2 ^ (e - s) * 2 ^ s by rw [← Nat.pow_add, Nat.sub_add_cancel hs.le], Nat.mul_mod_mul_right]
    exact representable_mul_pow _ s ((Nat.mod_le _ _).trans_lt hn)

/-- The fractional part of a representable magnitude is representable. -/
theorem representable_mod_unitMag (m : Nat) (hm : representable m = true) : representable (m % unitMag) = true :=
  representable_mod_two_pow m 149 hm

/-- A power of two is taken exactly from a representable magnitude less than twice as large. -/
theorem representable_sub_two_pow (m e : Nat) (hm : representable m = true) (hlo : 2 ^ e ≤ m) (hhi : m < 2 * 2 ^ e) :
    representable (m - 2 ^ e) = true := by
  have hmod : m % 2 ^ e = m - 2 ^ e := by rw [Nat.mod_eq_sub_mod hlo, Nat.mod_eq_of_lt (by omega)]
  exact hmod ▸ representable_mod_two_pow m e hm

theorem unitPhase_iff (w : Word) : unitPhase w = true ↔ ∃ m, Fp.ofBits w = .fin false m ∧ m < unitMag := by
  unfold unitPhase
  cases Fp.ofBits w with
  | nan bits => simp
  | inf neg => simp
  | fin neg m => cases neg <;> simp

theorem unitPhase_toBits (m : Nat) (hm : representable m = true) (hlt : m < unitMag) :
    unitPhase (Fp.toBits (.fin false m)) = true :=
  (unitPhase_iff _).mpr ⟨m, ofBits_toBits_fin false m hm (hlt.trans unitMag_lt_overflowMag), hlt⟩

theorem unitPhase_zero : unitPhase 0x00000000#32 = true := by decide

/-! ### The oscillator's phase (42_oscillator.md R121) -/

/-- A phase plus a clamped increment rounds to at most 1.5. -/
theorem roundRatio_advance_le (a b : Nat) (ha : a < unitMag) (hb : b < 2 ^ 148) :
    roundRatio (a + b) 1 ≤ 3 * 2 ^ 148 := by
  have hunit : unitMag = 2 * 2 ^ 148 := by decide
  exact roundRatio_le _ _ _ (by decide) (representable_mul_pow 3 148 (by decide)) (by omega)

theorem fadd_advance (a b : Nat) (ha : a < unitMag) (hb : b < 2 ^ 148) :
    fadd (.fin false a) (.fin false b) = .fin false (roundRatio (a + b) 1) :=
  fadd_nonneg a b ((roundRatio_advance_le a b ha hb).trans_lt (by decide))

@[simp] theorem oscWrapped_fin (m : Nat) : oscWrapped (.fin false m) = decide (unitMag ≤ m) := by
  simp [oscWrapped, fpOne]

/-- The wrap is exact and ends in [0, 1). -/
theorem oscWrap_fin (m : Nat) (hm : representable m = true) (h : m ≤ 3 * 2 ^ 148) :
    ∃ r, oscWrap (.fin false m) = .fin false r ∧ representable r = true ∧ r < unitMag := by
  have hunit : unitMag = 2 * 2 ^ 148 := by decide
  unfold oscWrap
  rw [oscWrapped_fin]
  split
  next hwrap =>
    have h1 : unitMag ≤ m := of_decide_eq_true hwrap
    have hr : representable (m - unitMag) = true := representable_sub_two_pow m 149 hm h1 (by omega)
    have hlt : m - unitMag < unitMag := by omega
    exact ⟨m - unitMag, fsub_exact m unitMag h1 hr (hlt.trans unitMag_lt_overflowMag), hr, hlt⟩
  next hwrap => exact ⟨m, rfl, hm, by simpa using hwrap⟩

/-- p1, from a phase in [0, 1) and a clamped increment. -/
theorem oscWrap_advance_fin (p : Config.Params) (w : Word) (x : Fp) (hp : legalParams p = true)
    (hw : unitPhase w = true) :
    ∃ r, oscWrap (fadd (Fp.ofBits w) (clampInc p x)) = .fin false r ∧ representable r = true ∧ r < unitMag := by
  obtain ⟨a, ha, hau⟩ := (unitPhase_iff w).mp hw
  obtain ⟨b, hb, hbh⟩ := clampInc_fin p x hp
  rw [ha, hb, fadd_advance a b hau hbh]
  exact oscWrap_fin _ (roundRatio_representable (a + b) 1 (by decide)) (roundRatio_advance_le a b hau hbh)

/-- The phase after a sample is in [0, 1). -/
theorem unitPhase_oscWrap (p : Config.Params) (w : Word) (x : Fp) (hp : legalParams p = true)
    (hw : unitPhase w = true) : unitPhase (oscWrap (fadd (Fp.ofBits w) (clampInc p x))).toBits = true := by
  obtain ⟨r, hr, hrep, hlt⟩ := oscWrap_advance_fin p w x hp hw
  rw [hr]
  exact unitPhase_toBits r hrep hlt

/-! ### The converter's phase (44_converter.md R180, R181) -/

theorem finOrInf_eq_fin (neg n : Bool) (mag r : Nat) (h : finOrInf neg mag = .fin n r) : mag = r ∧ r < overflowMag := by
  unfold finOrInf at h
  split at h
  · cases h
  · cases h
    exact ⟨rfl, by omega⟩

theorem fmul_inf_fin (n m : Bool) (y : Nat) :
    fmul (.inf n) (.fin m y) = if y = 0 then nanOf .mul (.inf n) (.fin m y) else .inf (n ^^ m) := rfl

theorem fmul_fin_inf (n m : Bool) (x : Nat) :
    fmul (.fin n x) (.inf m) = if x = 0 then nanOf .mul (.fin n x) (.inf m) else .inf (n ^^ m) := rfl

/-- A finite product is a datum that binary32 holds. -/
theorem fmul_eq_fin (a b : Fp) (n : Bool) (r : Nat) (h : fmul a b = .fin n r) :
    representable r = true ∧ r < overflowMag := by
  cases a with
  | nan bits => cases b <;> cases h
  | inf neg =>
    cases b with
    | nan bits => cases h
    | inf neg' => cases h
    | fin neg' y => rw [fmul_inf_fin] at h; split at h <;> cases h
  | fin neg x =>
    cases b with
    | nan bits => cases h
    | inf neg' => rw [fmul_fin_inf] at h; split at h <;> cases h
    | fin neg' y =>
      obtain ⟨rfl, hlt⟩ := finOrInf_eq_fin _ _ _ _ ((fmul_fin neg neg' x y).symm.trans h)
      exact ⟨roundRatio_representable _ _ (Nat.two_pow_pos 149), hlt⟩

/-- A kept increment is a positive datum, a dropped one is +0; both are finite. -/
theorem convInc_fin (a b : Fp) :
    ∃ r, convInc (fmul a b) = .fin false r ∧ representable r = true ∧ r < overflowMag := by
  unfold convInc
  split
  next hpos =>
    cases hx : fmul a b with
    | nan bits => simp [hx] at hpos
    | inf neg => simp [hx, isfinite] at hpos
    | fin neg r =>
      cases neg with
      | true => simp [hx, fpZero, isfinite] at hpos; omega
      | false => exact ⟨r, rfl, fmul_eq_fin a b false r hx⟩
  next => exact ⟨0, rfl, representable_zero, by decide⟩

/-- The largest finite magnitude. -/
def maxMag : Nat := (2 ^ 24 - 1) * 2 ^ 253

/-- A phase is too small beside the largest magnitude to carry a sum over it. -/
theorem roundRatio_add_phase_lt (a b : Nat) (ha : a < unitMag) (hb : representable b = true) (hlt : b < overflowMag) :
    roundRatio (a + b) 1 < overflowMag := by
  have hmax : maxMag + 2 * unitMag < overflowMag := by decide
  have hrep : representable maxMag = true := representable_mul_pow _ _ (by decide)
  have hbmax : b ≤ maxMag := by
    rcases representable_le_or_ge b (2 ^ 24 - 1) 253 hb fun _ => by decide with hle | hge
    · exact hle
    · have : (2 ^ 24 - 1 + 1) * 2 ^ 253 = overflowMag := by decide
      omega
  rcases le_or_gt (a + b) maxMag with hle | hgt
  · have := roundRatio_le (a + b) 1 maxMag (by decide) hrep (by omega)
    omega
  · have hnear := (roundRatio_nearest_even (a + b) 1 maxMag (by decide) hrep).1
    rw [roundingError_eq, roundingError_eq] at hnear
    omega

/-- The wrap into [0, 1) is the exact fractional part. -/
theorem convWrap_fin (m : Nat) (hm : representable m = true) :
    convWrap (.fin false m) = .fin false (m % unitMag) := by
  have hmod : m - m / unitMag * unitMag = m % unitMag := by rw [Nat.mod_eq_sub_div_mul]
  have hlt : m % unitMag < unitMag := Nat.mod_lt _ (Nat.two_pow_pos 149)
  unfold convWrap
  split
  next =>
    rw [← hmod]
    refine fsub_exact m _ (Nat.div_mul_le_self _ _) ?_ ?_
    · rw [hmod]; exact representable_mod_unitMag m hm
    · rw [hmod]; exact hlt.trans unitMag_lt_overflowMag
  next hone =>
    rw [Nat.mod_eq_of_lt (by simpa [fpOne] using hone)]

theorem convStart_fin (e : EdState) (w : Word) (hw : unitPhase w = true) :
    ∃ a, convStart e w = .fin false a ∧ a < unitMag := by
  unfold convStart
  split
  · exact ⟨0, rfl, Nat.two_pow_pos 149⟩
  · exact (unitPhase_iff w).mp hw

/-- The phase after a sample is in [0, 1). -/
theorem unitPhase_convSample (p : Config.Params) (c : ConvState) (value freq dt : Fp) (hc : unitPhase c.phase = true) :
    unitPhase (convSample p c value freq dt).1.phase = true := by
  obtain ⟨a, ha, hau⟩ := convStart_fin (edFeed p c.ed value) c.phase hc
  obtain ⟨b, hb, hrep, hlt⟩ := convInc_fin freq dt
  have hsum := roundRatio_representable (a + b) 1 (by decide)
  simp only [convSample, ha, hb, fadd_nonneg a b (roundRatio_add_phase_lt a b hau hrep hlt), convWrap_fin _ hsum]
  exact unitPhase_toBits _ (representable_mod_unitMag _ hsum) (Nat.mod_lt _ (Nat.two_pow_pos 149))

/-! ### The detector -/

theorem edStep_ok (p : Config.Params) (e e' : EdState) (h : EdStep p e e') : edOk e' = true := by
  cases h with
  | feed x => simp [edOk]
  | clear => rfl

/-! ### The oscillator -/

theorem oscOk_iff (p : Config.Params) (o : OscState) :
    oscOk p o = true ↔ unitPhase o.phase = true ∧ nonNegative o.freq = true ∧ o.bsq.length = p.win ∧
      o.bsaw.length = p.win ∧ o.psq = o.psaw ∧ o.psq < p.win := by
  simp only [oscOk, Bool.and_eq_true, beq_iff_eq, decide_eq_true_eq, and_assoc]

theorem nonNegative_zero : nonNegative 0x00000000#32 = true := by decide

theorem nonNegative_clampFreq (f : Word) : nonNegative (clampFreq f) = true := by
  unfold clampFreq
  split
  next hpos =>
    unfold nonNegative
    unfold operandF at hpos
    cases hf : Fp.ofBits f with
    | nan bits => simp [hf] at hpos
    | inf neg => simpa [hf, flt, fpZero] using hpos
    | fin neg m =>
      cases neg with
      | false => rfl
      | true => simp [hf, fpZero] at hpos; omega
  next => decide

@[simp] theorem oscInsert_bsq_length (p : Config.Params) (o : OscState) (inc s : Fp) :
    (oscInsert p o inc s).bsq.length = o.bsq.length := by
  unfold oscInsert; split <;> simp
@[simp] theorem oscInsert_bsaw_length (p : Config.Params) (o : OscState) (inc s : Fp) :
    (oscInsert p o inc s).bsaw.length = o.bsaw.length := by
  unfold oscInsert; split <;> simp

/-- A sample of an oscillator, field by field. -/
theorem oscSample_eq (p : Config.Params) (o : OscState) (dt : Fp) :
    (oscSample p o dt).1 =
      { phase := (oscWrap (fadd (Fp.ofBits o.phase) (oscInc p o dt))).toBits
        freq  := o.freq
        bsq   := ringCleared (oscInsert p o (oscInc p o dt) (fadd (Fp.ofBits o.phase) (oscInc p o dt))).bsq o.psq
        bsaw  := ringCleared (oscInsert p o (oscInc p o dt) (fadd (Fp.ofBits o.phase) (oscInc p o dt))).bsaw o.psaw
        psq   := ringNext p o.psq
        psaw  := ringNext p o.psaw } := by
  simp [oscSample, oscConsume]

theorem oscSample_ok (p : Config.Params) (o : OscState) (dt : Fp) (hp : legalParams p = true)
    (ho : oscOk p o = true) : oscOk p (oscSample p o dt).1 = true := by
  rw [oscOk_iff] at ho ⊢
  obtain ⟨hphase, hfreq, hbsq, hbsaw, heq, hlt⟩ := ho
  rw [oscSample_eq]
  refine ⟨unitPhase_oscWrap p _ _ hp hphase, hfreq, ?_, ?_, congrArg (ringNext p) heq, Nat.mod_lt _ (by omega)⟩
  · simpa [ringCleared] using hbsq
  · simpa [ringCleared] using hbsaw

theorem oscClear_ok (p : Config.Params) (o : OscState) (hp : legalParams p = true)
    (hfreq : nonNegative o.freq = true) : oscOk p (oscClear p o) = true := by
  rw [oscOk_iff]
  exact ⟨unitPhase_zero, hfreq, List.length_replicate, List.length_replicate, rfl, (legalParams_win p hp).1⟩

theorem oscPowerOn_ok (p : Config.Params) (hp : legalParams p = true) : oscOk p (OscState.powerOn p.win) = true :=
  oscClear_ok p (OscState.powerOn p.win) hp nonNegative_zero

theorem oscStep_ok (p : Config.Params) (o o' : OscState) (hp : legalParams p = true) (ho : oscOk p o = true)
    (h : OscStep p o o') : oscOk p o' = true := by
  obtain ⟨hphase, hfreq, hrings⟩ := (oscOk_iff p o).mp ho
  cases h with
  | setf f => exact (oscOk_iff p _).mpr ⟨hphase, nonNegative_clampFreq f, hrings⟩
  | sample dt => exact oscSample_ok p o dt hp ho
  | clear => exact oscClear_ok p o hp hfreq

/-! ### The divider -/

theorem divOk_iff (d : DivState) :
    divOk d = true ↔ 1 ≤ d.maxN.toInt ∧ d.maxN.toInt ≤ 64 ∧
      (d.n.toInt = 0 ∨ 1 ≤ d.n.toInt ∧ d.n.toInt ≤ d.maxN.toInt) ∧
      -1 ≤ d.count.toInt ∧ d.count.toInt ≤ 63 ∧ edOk d.ed = true := by
  simp only [divOk, Bool.and_eq_true, Bool.or_eq_true, beq_iff_eq, decide_eq_true_eq, and_assoc]

theorem toInt_wordI (v : Int) (hlo : -64 ≤ v) (hhi : v ≤ 64) : (wordI v).toInt = v := by
  rw [wordI, BitVec.toInt_ofInt]
  exact Int.bmod_eq_of_le (by omega) (by omega)

theorem clampI_bounds (v lo hi : Int) (h : lo ≤ hi) : lo ≤ clampI v lo hi ∧ clampI v lo hi ≤ hi := by
  unfold clampI
  split
  · exact ⟨le_rfl, h⟩
  · split <;> omega

theorem toInt_count_succ (c : Word) (hlo : -1 ≤ c.toInt) (hhi : c.toInt ≤ 63) : (c + 1#32).toInt = c.toInt + 1 := by
  rw [BitVec.toInt_add]
  exact Int.bmod_eq_of_le (by have : (1#32).toInt = 1 := rfl; omega) (by have : (1#32).toInt = 1 := rfl; omega)

/-- The count after an edge is the same in both modes. -/
theorem divCount_count (d : DivState) :
    (divCount d).count = if d.n.toInt ≤ (d.count + 1#32).toInt then 0#32 else d.count + 1#32 := by
  unfold divCount
  split
  · dsimp only
    split <;> rfl
  · rfl

/-- N is at most 64, so a count that reaches 64 has wrapped. -/
theorem divCount_ok (d : DivState) (h : divOk d = true) : divOk (divCount d) = true := by
  rw [divOk_iff] at h ⊢
  obtain ⟨hlo, hhi, hn, hc, hc', hed⟩ := h
  have hsucc := toInt_count_succ d.count hc hc'
  have hcount : -1 ≤ (divCount d).count.toInt ∧ (divCount d).count.toInt ≤ 63 := by
    rw [divCount_count]
    split
    · decide
    · omega
  rw [divCount_maxN, divCount_n, divCount_ed]
  exact ⟨hlo, hhi, hn, hcount.1, hcount.2, hed⟩

theorem divFeed_ok (p : Config.Params) (d : DivState) (clk : Fp) (h : divOk d = true) :
    divOk (divFeed p d clk) = true := by
  have hfed : divOk { d with ed := edFeed p d.ed clk } = true := by
    obtain ⟨hlo, hhi, hn, hc, hc', -⟩ := (divOk_iff d).mp h
    exact (divOk_iff _).mpr ⟨hlo, hhi, hn, hc, hc', edStep_ok p d.ed _ (.feed clk)⟩
  unfold divFeed
  dsimp only
  split
  · exact divCount_ok _ hfed
  · exact hfed

theorem divWithN_ok (d : DivState) (n : Word) (h : divOk d = true) : divOk (divWithN d n) = true := by
  obtain ⟨hlo, hhi, -, hc, hc', hed⟩ := (divOk_iff d).mp h
  have hb := clampI_bounds (operandI n) 1 d.maxN.toInt hlo
  have hn : (divWithN d n).n.toInt = clampI (operandI n) 1 d.maxN.toInt := toInt_wordI _ (by omega) (by omega)
  exact (divOk_iff _).mpr ⟨hlo, hhi, .inr (hn ▸ hb), hc, hc', hed⟩

theorem divWithMaxN_ok (d : DivState) (m : Word) (h : divOk d = true) : divOk (divWithMaxN d m) = true := by
  obtain ⟨hlo, hhi, hn, hc, hc', hed⟩ := (divOk_iff d).mp h
  have hb := clampI_bounds (operandI m) 1 64 (by decide)
  have hm : (wordI (clampI (operandI m) 1 64)).toInt = clampI (operandI m) 1 64 := toInt_wordI _ (by omega) (by omega)
  have hn' : (divWithMaxN d m).n.toInt =
      if clampI (operandI m) 1 64 < d.n.toInt then clampI (operandI m) 1 64 else d.n.toInt := by
    unfold divWithMaxN
    dsimp only [Config.maxnLimit, Nat.cast_ofNat]
    split
    · exact hm
    · rfl
  have hm' : (divWithMaxN d m).maxN.toInt = clampI (operandI m) 1 64 := hm
  refine (divOk_iff _).mpr ⟨hm' ▸ hb.1, hm' ▸ hb.2, ?_, hc, hc', hed⟩
  rw [hm', hn']
  split <;> omega

theorem divWithMode_ok (d : DivState) (mode : Word) (h : divOk d = true) : divOk (divWithMode d mode) = true := by
  unfold divWithMode
  split
  · exact h
  · split <;> exact h

theorem toInt_countReset : (wordI (-1)).toInt = -1 := rfl

theorem divClear_ok (d : DivState) (hlo : 1 ≤ d.maxN.toInt) (hhi : d.maxN.toInt ≤ 64) : divOk (divClear d) = true :=
  (divOk_iff _).mpr ⟨hlo, hhi, .inl rfl, toInt_countReset.ge, toInt_countReset.le.trans (by decide), rfl⟩

theorem divBlockReset_ok (d : DivState) : divOk (divBlockReset d) = true := by
  have hmaxN : (wordI Config.maxnDefault).toInt = 20 := rfl
  exact divClear_ok _ (hmaxN.symm ▸ by decide) (hmaxN.symm ▸ by decide)

theorem divStep_ok (p : Config.Params) (d d' : DivState) (hd : divOk d = true) (h : DivStep p d d') :
    divOk d' = true := by
  cases h with
  | feed clk => exact divFeed_ok p d clk hd
  | withN n => exact divWithN_ok d n hd
  | withMaxN m => exact divWithMaxN_ok d m hd
  | withMode mode => exact divWithMode_ok d mode hd
  | clear =>
    obtain ⟨hlo, hhi, -⟩ := (divOk_iff d).mp hd
    exact divClear_ok d hlo hhi

/-! ### The converter -/

theorem convOk_iff (c : ConvState) : convOk c = true ↔ unitPhase c.phase = true ∧ edOk c.ed = true := by
  simp only [convOk, Bool.and_eq_true]

theorem convClear_ok (c : ConvState) : convOk (convClear c) = true := (convOk_iff _).mpr ⟨unitPhase_zero, rfl⟩

theorem convStep_ok (p : Config.Params) (c c' : ConvState) (hc : convOk c = true) (h : ConvStep p c c') :
    convOk c' = true := by
  cases h with
  | sample value freq dt =>
    exact (convOk_iff _).mpr
      ⟨unitPhase_convSample p c value freq dt ((convOk_iff c).mp hc).1, edStep_ok p c.ed _ (.feed value)⟩
  | clear => exact convClear_ok c

/-! ### The whole machine (10_state.md R49) -/

theorem inv_iff (s : State) :
    s.inv = true ↔ legalCounts s.counts = true ∧ legalParams s.params = true ∧ latchOk s.status s.errcmd = true ∧
      (∀ e ∈ s.eds, edOk e = true) ∧ (∀ o ∈ s.oscs, oscOk s.params o = true) ∧ (∀ d ∈ s.divs, divOk d = true) ∧
      ∀ c ∈ s.convs, convOk c = true := by
  simp only [State.inv, Bool.and_eq_true, List.all_eq_true, and_assoc]

/-- A latched cause is one of R211's. -/
theorem latchOk_statusOfCause (c : Cause) (w : Word) : latchOk (statusOfCause c) w = true := by
  cases c <;> rfl

theorem latchOk_takeError (c : Cause) (w : Word) (s : State) (h : latchOk s.status s.errcmd = true) :
    latchOk (takeError c w s).status (takeError c w s).errcmd = true := by
  rw [takeError_status, takeError_errcmd, latchError_status, latchError_errcmd]
  split
  · exact h
  · exact latchOk_statusOfCause c w

/-- What holds of every unit of a class, and of the new one, holds of every unit after one is replaced. -/
theorem forall_mem_set {α : Type} {P : α → Prop} {l : List α} {a : α} (k : Nat) (hl : ∀ x ∈ l, P x) (ha : P a) :
    ∀ x ∈ l.set k a, P x :=
  fun x hx => (List.mem_or_eq_of_mem_set hx).elim (hl x) fun hxa => hxa ▸ ha

theorem takeError_inv (c : Cause) (w : Word) (s : State) (h : s.inv = true) : (takeError c w s).inv = true := by
  obtain ⟨hcounts, hparams, hlatch, hunits⟩ := (inv_iff s).mp h
  rw [inv_iff, takeError_counts, takeError_params, takeError_eds, takeError_oscs, takeError_divs, takeError_convs]
  exact ⟨hcounts, hparams, latchOk_takeError c w s hlatch, hunits⟩

theorem blockReset_inv (s : State) (h : s.inv = true) : (blockReset s).inv = true := by
  obtain ⟨hcounts, hparams, -⟩ := (inv_iff s).mp h
  rw [inv_iff, blockReset_counts]
  simp only [blockReset_eds, blockReset_oscs, blockReset_divs, blockReset_convs, List.forall_mem_map]
  exact ⟨hcounts, hparams, rfl, fun e _ => edStep_ok s.params e _ .clear,
    fun o _ => oscClear_ok _ _ hparams nonNegative_zero, fun d _ => divBlockReset_ok d, fun c _ => convClear_ok c⟩

theorem effect_inv (i : Instr) (s t : State) (h : Effect i s t) (hs : s.inv = true) : t.inv = true := by
  have hcounts := effect_counts h
  obtain ⟨hc, hparams, hlatch, heds, hoscs, hdivs, hconvs⟩ := (inv_iff s).mp hs
  cases h with
  | returned ws => exact hs
  | error c => exact takeError_inv c _ s hs
  | reset => exact blockReset_inv s hs
  | ed k e e' ws _ _ hstep =>
    exact (inv_iff _).mpr
      ⟨hcounts ▸ hc, hparams, hlatch, forall_mem_set k heds (edStep_ok _ e e' hstep), hoscs, hdivs, hconvs⟩
  | osc k o o' ws _ hk hstep =>
    have hok := oscStep_ok _ o o' hparams (hoscs o (List.mem_of_getElem? hk)) hstep
    exact (inv_iff _).mpr ⟨hcounts ▸ hc, hparams, hlatch, heds, forall_mem_set k hoscs hok, hdivs, hconvs⟩
  | div k d d' ws _ hk hstep =>
    have hok := divStep_ok _ d d' (hdivs d (List.mem_of_getElem? hk)) hstep
    exact (inv_iff _).mpr ⟨hcounts ▸ hc, hparams, hlatch, heds, hoscs, forall_mem_set k hdivs hok, hconvs⟩
  | conv k c c' ws _ hk hstep =>
    have hok := convStep_ok _ c c' (hconvs c (List.mem_of_getElem? hk)) hstep
    exact (inv_iff _).mpr ⟨hcounts ▸ hc, hparams, hlatch, heds, hoscs, hdivs, forall_mem_set k hconvs hok⟩

/-- Settles O16: every effect of a command keeps the invariant, and so does an error. -/
theorem everyStepKeepsInvariant : Obligations.EveryStepKeepsInvariant :=
  fun s t hs h => step_keeps (fun u => u.inv = true) (fun _ _ hu => hu) takeError_inv effect_inv s t hs h

theorem powerOn_counts (c : Config.Counts) (p : Config.Params) : (State.powerOn c p).counts = c := by
  simp [State.powerOn, State.counts]

theorem powerOn_inv (c : Config.Counts) (p : Config.Params) (hc : legalCounts c = true) (hp : legalParams p = true) :
    (State.powerOn c p).inv = true := by
  rw [inv_iff, powerOn_counts]
  refine ⟨hc, hp, rfl, ?_, ?_, ?_, ?_⟩
  · exact fun e he => List.eq_of_mem_replicate he ▸ rfl
  · exact fun o ho => List.eq_of_mem_replicate ho ▸ oscPowerOn_ok p hp
  · exact fun d hd => List.eq_of_mem_replicate hd ▸ by decide
  · exact fun v hv => List.eq_of_mem_replicate hv ▸ by decide

theorem defaultParams_legal : legalParams Config.defaultParams = true := by decide

/-- Settles O15: the reset state is a power-on state with legal parameters. -/
theorem invariantHoldsAtReset : Obligations.InvariantHoldsAtReset :=
  ⟨powerOn_inv _ _ (by decide) defaultParams_legal, powerOn_inv⟩

end Sys2Proof.Proofs
end

