-- ==== Sys2Proof/Proofs/FiniteRings.lean ====
section
/-! PROOFS. Rings and outputs stay finite for parameters with room (10_state.md R31; 42_oscillator.md R137). A term
that BlepInsert adds is at most 6 * 2^a; a ring entry takes at most one term for each sample until it is consumed, so
it stays at most 6 * 64 * 2^a; and no operation on the way overflows. -/

namespace Sys2Proof.Proofs

open Sys2Proof Sys2Proof.Machine Sys2Proof.Laws

/-! ### Levels: whole multiples of 2^a -/

/-- The magnitude k * 2^a. -/
@[irreducible] def level (a k : Nat) : Nat := k * (2 ^ a * unitMag)

theorem level_representable (a k : Nat) (hk : k < 512) : representable (level a k) = true := by
  rw [level, unitMag, ← Nat.pow_add]
  exact representable_mul_pow k _ (by omega)

theorem level_lt_overflowMag (a k : Nat) (ha : a ≤ 118) (hk : k < 512) : level a k < overflowMag :=
  calc level a k = k * (2 ^ a * unitMag) := by rw [level]
    _ ≤ 511 * (2 ^ 118 * unitMag) :=
        Nat.mul_le_mul (by omega) (Nat.mul_le_mul_right _ (Nat.pow_le_pow_right (by decide) ha))
    _ < overflowMag := by decide

theorem level_add (a j k : Nat) : level a j + level a k = level a (j + k) := by
  simp only [level, Nat.add_mul]

theorem level_mul (a b j k : Nat) : level a j * level b k = level (a + b) (j * k) * unitMag := by
  simp only [level, Nat.pow_add]
  ring

theorem level_mono (a b j k : Nat) (hab : a ≤ b) (hjk : j ≤ k) : level a j ≤ level b k := by
  simp only [level]
  exact Nat.mul_le_mul hjk (Nat.mul_le_mul_right _ (Nat.pow_le_pow_right (by decide) hab))

theorem level_zero (k : Nat) : level 0 k = k * unitMag := by rw [level, Nat.pow_zero, Nat.one_mul]

theorem level_one (a : Nat) : level a 1 = 2 ^ a * unitMag := by rw [level, Nat.one_mul]

theorem mul_termBound (a n : Nat) : n * termBound a = level a (6 * n) := by
  rw [termBound, level]
  ring

/-! ### Bounded operands give bounded results -/

theorem magAtMost_iff (bound : Nat) (x : Fp) : magAtMost bound x = true ↔ ∃ n m, x = .fin n m ∧ m ≤ bound := by
  cases x with
  | nan bits => simp [magAtMost]
  | inf neg => simp [magAtMost]
  | fin neg m => simp

@[simp] theorem natAbs_signedMag (n : Bool) (a : Nat) : (signedMag n a).natAbs = a := by
  cases n <;> simp

theorem natAbs_signedMag_add_le (n m : Bool) (a b : Nat) : (signedMag n a + signedMag m b).natAbs ≤ a + b := by
  simpa using Int.natAbs_add_le (signedMag n a) (signedMag m b)

theorem finOrInf_magAtMost (neg : Bool) (mag bound : Nat) (h : mag ≤ bound) (hb : bound < overflowMag) :
    magAtMost bound (finOrInf neg mag) = true := by
  rw [finOrInf, if_neg (by omega), magAtMost_fin, decide_eq_true h]

/-- An exact sum within a representable bound is rounded to a datum within it. -/
theorem roundedSum_magAtMost (n : Bool) (v : Int) (bound : Nat) (hrep : representable bound = true)
    (hb : bound < overflowMag) (h : v.natAbs ≤ bound) :
    magAtMost bound (if v = 0 then .fin n 0 else finOrInf (decide (v < 0)) (roundRatio v.natAbs 1)) = true := by
  split
  · simp
  · exact finOrInf_magAtMost _ _ _ (roundRatio_le _ _ _ (by decide) hrep (by omega)) hb

theorem fadd_magAtMost {a j k : Nat} {x y : Fp} (ha : a ≤ 118) (hjk : j + k < 512)
    (hx : magAtMost (level a j) x = true) (hy : magAtMost (level a k) y = true) :
    magAtMost (level a (j + k)) (fadd x y) = true := by
  obtain ⟨n, b, rfl, hb⟩ := (magAtMost_iff _ x).mp hx
  obtain ⟨m, c, rfl, hc⟩ := (magAtMost_iff _ y).mp hy
  rw [fadd_fin]
  refine roundedSum_magAtMost _ _ _ (level_representable a _ hjk) (level_lt_overflowMag a _ ha hjk) ?_
  exact (natAbs_signedMag_add_le n m b c).trans (level_add a j k ▸ Nat.add_le_add hb hc)

theorem fsub_magAtMost {a j k : Nat} {x y : Fp} (ha : a ≤ 118) (hjk : j + k < 512)
    (hx : magAtMost (level a j) x = true) (hy : magAtMost (level a k) y = true) :
    magAtMost (level a (j + k)) (fsub x y) = true := by
  obtain ⟨n, b, rfl, hb⟩ := (magAtMost_iff _ x).mp hx
  obtain ⟨m, c, rfl, hc⟩ := (magAtMost_iff _ y).mp hy
  rw [fsub_fin]
  refine roundedSum_magAtMost _ _ _ (level_representable a _ hjk) (level_lt_overflowMag a _ ha hjk) ?_
  exact (natAbs_signedMag_add_le n (!m) b c).trans (level_add a j k ▸ Nat.add_le_add hb hc)

theorem fmul_magAtMost {a b j k : Nat} {x y : Fp} (hab : a + b ≤ 118) (hjk : j * k < 512)
    (hx : magAtMost (level a j) x = true) (hy : magAtMost (level b k) y = true) :
    magAtMost (level (a + b) (j * k)) (fmul x y) = true := by
  obtain ⟨n, c, rfl, hc⟩ := (magAtMost_iff _ x).mp hx
  obtain ⟨m, d, rfl, hd⟩ := (magAtMost_iff _ y).mp hy
  rw [fmul_fin]
  refine finOrInf_magAtMost _ _ _ (roundRatio_le _ _ _ (Nat.two_pow_pos 149) (level_representable _ _ hjk) ?_)
    (level_lt_overflowMag _ _ hab hjk)
  exact level_mul a b j k ▸ Nat.mul_le_mul hc hd

/-! ### Data that are stored and read back -/

theorem ofBits_toBits_inf (neg : Bool) : Fp.ofBits (Fp.toBits (.inf neg)) = .inf neg := by
  cases neg <;> decide

theorem ofBits_toBits_finOrInf (neg : Bool) (num den : Nat) (hd : 0 < den) :
    Fp.ofBits (finOrInf neg (roundRatio num den)).toBits = finOrInf neg (roundRatio num den) := by
  unfold finOrInf
  split
  · exact ofBits_toBits_inf neg
  next hlt => exact ofBits_toBits_fin _ _ (roundRatio_representable num den hd) (by omega)

/-- A sum of finite data is read back from its bit pattern. -/
theorem ofBits_toBits_fadd (x y : Fp) (hx : isfinite x = true) (hy : isfinite y = true) :
    Fp.ofBits (fadd x y).toBits = fadd x y := by
  cases x with
  | nan bits => cases hx
  | inf neg => cases hx
  | fin n a =>
    cases y with
    | nan bits => cases hy
    | inf neg => cases hy
    | fin m b =>
      rw [fadd_fin]
      split
      · exact ofBits_toBits_fin _ _ representable_zero (by decide)
      · exact ofBits_toBits_finOrInf _ _ _ (by decide)

/-- A finite product is packed to a finite word. -/
theorem finiteWord_fmul (x y : Fp) (h : isfinite (fmul x y) = true) : finiteWord (fmul x y).toBits = true := by
  cases hxy : fmul x y with
  | nan bits => rw [hxy] at h; cases h
  | inf neg => rw [hxy] at h; cases h
  | fin n r =>
    obtain ⟨hrep, hlt⟩ := fmul_eq_fin x y n r hxy
    rw [finiteWord, ofBits_toBits_fin n r hrep hlt]
    rfl

/-! ### The residual (42_oscillator.md R124) -/

/-- The sample position t = j + d. -/
theorem fadd_itof (j d : Nat) (hj : j < 64) (hd : d ≤ unitMag) :
    ∃ t, fadd (itof j) (.fin false d) = .fin false t ∧ t ≤ (j + 1) * unitMag := by
  have hle : roundRatio (j * unitMag + d) 1 ≤ (j + 1) * unitMag :=
    roundRatio_le _ _ _ (by decide) (representable_mul_pow (j + 1) 149 (by omega)) (by lia)
  refine ⟨_, fadd_nonneg _ _ (hle.trans_lt ?_), hle⟩
  exact level_zero (j + 1) ▸ level_lt_overflowMag 0 (j + 1) (by decide) (by omega)

/-- The table position pf = t * O. -/
theorem fmul_itof (t o l : Nat) (hl : l ≤ 64) (ho : o ≤ 255) (ht : t ≤ l * unitMag) :
    ∃ m, fmul (.fin false t) (itof o) = .fin false m ∧ m ≤ l * o * unitMag := by
  have hlo : l * o ≤ 64 * 255 := Nat.mul_le_mul hl ho
  have hle : roundRatio (t * (o * unitMag)) unitMag ≤ l * o * unitMag := by
    refine roundRatio_le _ _ _ (Nat.two_pow_pos 149) (representable_mul_pow (l * o) 149 (by omega)) ?_
    calc t * (o * unitMag) ≤ l * unitMag * (o * unitMag) := Nat.mul_le_mul_right _ ht
      _ = l * o * unitMag * unitMag := by ring
  have hlt : l * o * unitMag < overflowMag :=
    (Nat.mul_le_mul_right _ hlo).trans_lt (by decide)
  refine ⟨_, ?_, hle⟩
  rw [itof, fmul_fin, finOrInf, if_neg (by omega), Bool.xor_self]

theorem floorClamped_fin (m hi : Nat) : floorClamped (.fin false m) hi = min (m / unitMag) hi := by
  have hdiv : m / unitMag * unitMag / unitMag = m / unitMag := Nat.mul_div_cancel _ (Nat.two_pow_pos 149)
  simp only [floorClamped, ffloor, signedMag_false, hdiv, clampI]
  generalize m / unitMag = q
  rw [if_neg (by omega)]
  split <;> omega

/-- The interpolation weight is at most 1, also at the window's end, where the index is clamped. -/
theorem weight_magAtMost (m n : Nat) (hn : 1 ≤ n) (hm : m ≤ n * unitMag) :
    magAtMost (level 0 1) (fsub (.fin false m) (itof (min (m / unitMag) (n - 1)))) = true := by
  have hpos : 0 < unitMag := Nat.two_pow_pos 149
  have hlow : min (m / unitMag) (n - 1) * unitMag ≤ m :=
    (Nat.mul_le_mul_right _ (min_le_left _ _)).trans (Nat.div_mul_le_self _ _)
  have hhigh : m ≤ (min (m / unitMag) (n - 1) + 1) * unitMag := by
    rcases le_total (m / unitMag) (n - 1) with h | h
    · rw [min_eq_left h]
      exact (Nat.lt_div_mul_add hpos).le.trans (by lia)
    · rw [min_eq_right h, Nat.sub_add_cancel hn]
      exact hm
  rw [itof, fsub_fin]
  refine roundedSum_magAtMost _ _ _ (level_representable 0 1 (by decide))
    (level_lt_overflowMag 0 1 (by decide) (by decide)) ?_
  rw [Bool.not_false, signedMag_false, signedMag_true, level_zero]
  rw [Nat.add_mul] at hhigh
  omega

/-- A table within 2^a gives residuals within 3 * 2^a: E[i] and at most one difference of two entries. -/
theorem resE_magAtMost (p : Config.Params) (a t : Nat) (hp : legalParams p = true) (ha : a ≤ 118)
    (htable : tableWithin p a = true) (ht : t ≤ p.win * unitMag) :
    magAtMost (level a 3) (resE p (.fin false t)) = true := by
  obtain ⟨hwin, hwin'⟩ := legalParams_win p hp
  obtain ⟨hover, hover'⟩ := legalParams_oversamp p hp
  have hlen : 1 ≤ p.win * p.oversamp := Nat.mul_pos hwin hover
  obtain ⟨m, hm, hle⟩ := fmul_itof t p.oversamp p.win hwin' hover' ht
  have hentry : ∀ k, k ≤ p.win * p.oversamp → magAtMost (level a 1) (tableEntry p k) = true :=
    fun k hk => level_one a ▸ (tableWithin_iff p a).mp htable k hk
  simp only [resE, hm, floorClamped_fin]
  have hlow := hentry (min (m / unitMag) (p.win * p.oversamp - 1)) (by omega)
  have hhigh := hentry (min (m / unitMag) (p.win * p.oversamp - 1) + 1) (by omega)
  have hdiff := fsub_magAtMost ha (by decide) hhigh hlow
  have hprod := fmul_magAtMost (by omega) (by decide) (weight_magAtMost m _ hlen hle) hdiff
  rw [Nat.zero_add] at hprod
  exact fadd_magAtMost ha (by decide) hlow hprod

/-! ### The sub-sample offset (42_oscillator.md R122, R123) -/

/-- The quotient by a positive increment, held to [0, 1]. -/
theorem subSample_fin (num inc : Nat) (hinc : inc ≠ 0) :
    ∃ d, subSample (.fin false num) (.fin false inc) = .fin false d ∧ d ≤ unitMag := by
  rw [subSample, fdiv_fin _ _ _ _ hinc, fmin, finOrInf, Bool.xor_self]
  split
  · exact ⟨unitMag, rfl, le_rfl⟩
  · split
    next hlt =>
      rw [fpOne, flt_fin, decide_eq_true_eq, signedMag_false, signedMag_false] at hlt
      exact ⟨_, rfl, by omega⟩
    next => exact ⟨unitMag, rfl, le_rfl⟩

theorem oscEvent_wrap (a m : Nat) (h : oscEvent (.fin false a) (.fin false m) = .wrap) : unitMag ≤ m := by
  unfold oscEvent at h
  split at h
  next hwrap => simpa using hwrap
  next => split at h <;> cases h

theorem oscEvent_half (a m : Nat) (h : oscEvent (.fin false a) (.fin false m) = .half) :
    m < unitMag ∧ a < 2 ^ 148 ∧ 2 ^ 148 ≤ m := by
  unfold oscEvent at h
  split at h
  next => cases h
  next hwrap =>
    split at h
    next hcross =>
      simp only [fpHalf, fge_eq, flt_fin, fle_fin, signedMag_false, Bool.and_eq_true, decide_eq_true_eq,
        Nat.cast_lt, Nat.cast_le] at hcross
      exact ⟨by simpa using hwrap, hcross⟩
    next => cases h

/-- Without an increment the phase stays, so a wrap needs one; the offset is in [0, 1]. -/
theorem wrap_offset (a b : Nat) (hrep : representable a = true) (ha : a < unitMag) (hb : b < 2 ^ 148)
    (h : oscEvent (.fin false a) (.fin false (roundRatio (a + b) 1)) = .wrap) :
    ∃ d, subSample (oscWrap (.fin false (roundRatio (a + b) 1))) (.fin false b) = .fin false d ∧ d ≤ unitMag := by
  have hone := oscEvent_wrap _ _ h
  have hpos : b ≠ 0 := by
    rintro rfl
    rw [Nat.add_zero, roundRatio_one a hrep] at hone
    omega
  obtain ⟨r, hr, -⟩ := oscWrap_fin _ (roundRatio_representable (a + b) 1 (by decide)) (roundRatio_advance_le a b ha hb)
  rw [hr]
  exact subSample_fin r b hpos

/-- So does a fall of the square. -/
theorem half_offset (a b : Nat) (hrep : representable a = true)
    (h : oscEvent (.fin false a) (.fin false (roundRatio (a + b) 1)) = .half) :
    ∃ d, subSample (fsub (.fin false (roundRatio (a + b) 1)) fpHalf) (.fin false b) = .fin false d ∧ d ≤ unitMag := by
  obtain ⟨hone, hbelow, habove⟩ := oscEvent_half _ _ h
  have hpos : b ≠ 0 := by
    rintro rfl
    rw [Nat.add_zero, roundRatio_one a hrep] at habove
    omega
  have hunit : unitMag = 2 * 2 ^ 148 := by decide
  have hsub := representable_sub_two_pow _ 148 (roundRatio_representable (a + b) 1 (by decide)) habove (hunit ▸ hone)
  rw [fpHalf, fsub_exact _ _ habove hsub (lt_trans (by omega) unitMag_lt_overflowMag)]
  exact subSample_fin _ b hpos

/-! ### BlepInsert, entry by entry (42_oscillator.md R125) -/

/-- The entry that is read after j samples is read after no other number of samples below L. -/
theorem ringIndex_inj (rd win i j : Nat) (hi : i < win) (hj : j < win) (h : (rd + i) % win = (rd + j) % win) : i = j :=
  Nat.ModEq.eq_of_lt_of_lt (Nat.ModEq.add_left_cancel' rd h) hi hj

/-- Every entry is read after some number of samples below L. -/
theorem exists_ringIndex (rd win n : Nat) (hrd : rd < win) (hn : n < win) : ∃ j, j < win ∧ (rd + j) % win = n := by
  rcases le_or_gt rd n with h | h
  · exact ⟨n - rd, by omega, by rw [Nat.add_sub_cancel' h, Nat.mod_eq_of_lt hn]⟩
  · refine ⟨n + win - rd, by omega, ?_⟩
    rw [show rd + (n + win - rd) = n + win by omega, Nat.add_mod_right, Nat.mod_eq_of_lt hn]

/-- The entry that BlepInsert leaves where it found `b`, j samples from now. -/
def blepEntry (p : Config.Params) (d jump : Fp) (j : Nat) (b : Word) : Word :=
  (fadd (Fp.ofBits b) (fmul jump (resE p (fadd (itof j) d)))).toBits

theorem blepTerm_getElem? (p : Config.Params) (rd : Nat) (d jump : Fp) (ring : List Word) (i j : Nat)
    (hi : i < p.win) (hj : j < p.win) :
    (blepTerm p rd d jump ring i)[(rd + j) % p.win]? =
      if j = i then ring[(rd + j) % p.win]?.map (blepEntry p d jump j) else ring[(rd + j) % p.win]? := by
  rw [blepTerm, List.getElem?_modify]
  split
  next heq =>
    obtain rfl := ringIndex_inj rd p.win i j hi hj heq
    rw [if_pos rfl]
    rfl
  next hne =>
    rw [if_neg fun hji => hne (by rw [hji])]
    exact Option.map_id'

/-- The first n turns of the loop change the entries of the first n samples, each once. -/
theorem foldl_blepTerm_getElem? (p : Config.Params) (rd : Nat) (d jump : Fp) (ring : List Word) (n j : Nat)
    (hn : n ≤ p.win) (hj : j < p.win) :
    ((List.range n).foldl (blepTerm p rd d jump) ring)[(rd + j) % p.win]? =
      if j < n then ring[(rd + j) % p.win]?.map (blepEntry p d jump j) else ring[(rd + j) % p.win]? := by
  induction n with
  | zero => rfl
  | succ n ih =>
    rw [List.range_succ, List.foldl_append, List.foldl_cons, List.foldl_nil,
      blepTerm_getElem? p rd d jump _ n j (by omega) hj, ih (by omega)]
    split
    next heq => rw [if_neg (by omega), if_pos (by omega)]
    next hne => simp only [Nat.lt_succ_iff_lt_or_eq, hne, or_false]

theorem blepInsert_getElem? (p : Config.Params) (ring : List Word) (rd : Nat) (d jump : Fp) (j : Nat) (hj : j < p.win) :
    (blepInsert p ring rd d jump)[(rd + j) % p.win]? = ring[(rd + j) % p.win]?.map (blepEntry p d jump j) := by
  rw [blepInsert, foldl_blepTerm_getElem? p rd d jump ring p.win j le_rfl hj, if_pos hj]

/-! ### The bound on a ring -/

/-- The entry consumed j samples from now is within one term for each of the L - 1 - j samples since it was cleared,
and `extra` more. -/
def RingBound (p : Config.Params) (a extra : Nat) (ring : List Word) (rd : Nat) : Prop :=
  ∀ j, j < p.win →
    magAtMost (level a (6 * (p.win - 1 - j + extra))) (Fp.ofBits (ring.getD ((rd + j) % p.win) 0x00000000#32)) = true

theorem ringWithin_iff_ringBound (p : Config.Params) (a : Nat) (ring : List Word) (rd : Nat) :
    ringWithin p a ring rd = true ↔ RingBound p a 0 ring rd := by
  rw [ringWithin_iff, RingBound]
  simp only [mul_termBound, Nat.add_zero]

theorem ringBound_mono {p : Config.Params} {a low high : Nat} {ring : List Word} {rd : Nat} (hle : low ≤ high)
    (h : RingBound p a low ring rd) : RingBound p a high ring rd :=
  fun j hj => magAtMost_mono _ _ _ (level_mono a a _ _ le_rfl (by omega)) (h j hj)

theorem ofBits_zero : Fp.ofBits 0x00000000#32 = .fin false 0 := by decide

/-- An empty ring is within every bound. -/
theorem ringBound_replicate (p : Config.Params) (a extra n rd : Nat) :
    RingBound p a extra (List.replicate n 0x00000000#32) rd := by
  intro j _
  have hzero : (List.replicate n (0x00000000#32 : Word)).getD ((rd + j) % p.win) 0x00000000#32 = 0x00000000#32 := by
    rw [List.getD_eq_getElem?_getD, List.getElem?_replicate]
    split <;> rfl
  rw [hzero, ofBits_zero]
  simp

theorem fpTwo_magAtMost : magAtMost (level 0 2) fpTwo = true := by
  rw [level_zero]
  decide

theorem fpNegTwo_magAtMost : magAtMost (level 0 2) fpNegTwo = true := by
  rw [level_zero]
  decide

/-- BlepInsert with a jump of 2 adds one term to every entry. -/
theorem blepInsert_ringBound {p : Config.Params} {a rd d : Nat} {ring : List Word} {jump : Fp}
    (hp : legalParams p = true) (ha : a ≤ 118) (htable : tableWithin p a = true) (hd : d ≤ unitMag)
    (hjump : magAtMost (level 0 2) jump = true) (h : RingBound p a 0 ring rd) : RingBound p a 1 (blepInsert p ring rd (.fin false d) jump) rd := by
  intro j hj
  obtain ⟨-, hwin⟩ := legalParams_win p hp
  obtain ⟨t, ht, hle⟩ := fadd_itof j d (by omega) hd
  have hres := resE_magAtMost p a t hp ha htable (hle.trans (Nat.mul_le_mul_right _ hj))
  have hterm := fmul_magAtMost (by omega) (by decide) hjump hres
  rw [Nat.zero_add] at hterm
  have hold := h j hj
  rw [List.getD_eq_getElem?_getD] at hold ⊢
  rw [blepInsert_getElem? p ring rd _ jump j hj]
  cases hb : ring[(rd + j) % p.win]? with
  | none =>
    rw [Option.map_none, Option.getD_none, ofBits_zero]
    simp
  | some b =>
    rw [hb, Option.getD_some] at hold
    rw [Option.map_some, Option.getD_some, blepEntry, ht,
      ofBits_toBits_fadd _ _ (isfinite_of_magAtMost _ _ hold) (isfinite_of_magAtMost _ _ hterm)]
    have hsum := fadd_magAtMost ha (by omega) hold hterm
    rwa [show 6 * (p.win - 1 - j + 0) + 2 * 3 = 6 * (p.win - 1 - j + 1) by omega] at hsum

/-- Consuming an entry clears it and brings every other one a sample nearer. -/
theorem ringCleared_ringBound {p : Config.Params} {a rd : Nat} {ring : List Word} (hrd : rd < p.win)
    (h : RingBound p a 1 ring rd) : RingBound p a 0 (ringCleared ring rd) (ringNext p rd) := by
  intro j hj
  have hindex : (ringNext p rd + j) % p.win = (rd + (j + 1)) % p.win := by
    rw [ringNext, Nat.mod_add_mod, Nat.add_assoc, Nat.add_comm 1]
  rw [hindex, ringCleared, List.getD_eq_getElem?_getD, List.getElem?_set]
  split
  next =>
    have hzero :
        (if rd < ring.length then some (0x00000000#32 : Word) else none).getD 0x00000000#32 = 0x00000000#32 := by
      split <;> rfl
    rw [hzero, ofBits_zero]
    simp
  next hne =>
    have hlast : j + 1 < p.win := by
      by_contra hge
      apply hne
      rw [show j + 1 = p.win by omega, Nat.add_mod_right, Nat.mod_eq_of_lt hrd]
    have hold := h (j + 1) hlast
    rwa [List.getD_eq_getElem?_getD, show p.win - 1 - (j + 1) + 1 = p.win - 1 - j + 0 by omega] at hold

/-- Every entry of a bounded ring is finite. -/
theorem finiteWord_of_ringBound {p : Config.Params} {a rd : Nat} {ring : List Word} (hlen : ring.length = p.win)
    (hrd : rd < p.win) (h : RingBound p a 0 ring rd) (w : Word) (hw : w ∈ ring) : finiteWord w = true := by
  obtain ⟨n, hn, rfl⟩ := List.mem_iff_getElem.mp hw
  obtain ⟨j, hj, hindex⟩ := exists_ringIndex rd p.win n hrd (hlen ▸ hn)
  have hentry := h j hj
  rw [hindex, List.getD_eq_getElem _ _ hn] at hentry
  exact isfinite_of_magAtMost _ _ hentry

/-! ### One sample (42_oscillator.md R130) -/

theorem ringsWithin_iff_ringBound (p : Config.Params) (a : Nat) (o : OscState) :
    ringsWithin p a o = true ↔ RingBound p a 0 o.bsq o.psq ∧ RingBound p a 0 o.bsaw o.psaw := by
  rw [ringsWithin_iff, ringWithin_iff_ringBound, ringWithin_iff_ringBound]

theorem oscInsert_wrap {p : Config.Params} {o : OscState} {inc s : Fp} (h : oscEvent (Fp.ofBits o.phase) s = .wrap) :
    oscInsert p o inc s =
      { o with bsq  := blepInsert p o.bsq o.psq (subSample (oscWrap s) inc) fpTwo
               bsaw := blepInsert p o.bsaw o.psaw (subSample (oscWrap s) inc) fpNegTwo } := by
  simp only [oscInsert, h]

theorem oscInsert_half {p : Config.Params} {o : OscState} {inc s : Fp} (h : oscEvent (Fp.ofBits o.phase) s = .half) :
    oscInsert p o inc s = { o with bsq := blepInsert p o.bsq o.psq (subSample (fsub s fpHalf) inc) fpNegTwo } := by
  simp only [oscInsert, h]

theorem oscInsert_none {p : Config.Params} {o : OscState} {inc s : Fp} (h : oscEvent (Fp.ofBits o.phase) s = .none) :
    oscInsert p o inc s = o := by
  simp only [oscInsert, h]

/-- What a sample inserts is at most one step into each ring. -/
theorem oscInsert_ringBound (p : Config.Params) (a : Nat) (o : OscState) (dt : Fp) (hp : legalParams p = true)
    (ho : oscOk p o = true) (ha : a ≤ 118) (htable : tableWithin p a = true) (h : ringsWithin p a o = true) :
    RingBound p a 1 (oscInsert p o (oscInc p o dt) (fadd (Fp.ofBits o.phase) (oscInc p o dt))).bsq o.psq ∧
    RingBound p a 1 (oscInsert p o (oscInc p o dt) (fadd (Fp.ofBits o.phase) (oscInc p o dt))).bsaw o.psaw := by
  obtain ⟨hbsq, hbsaw⟩ := (ringsWithin_iff_ringBound p a o).mp h
  obtain ⟨c, hc, hcu⟩ := (unitPhase_iff o.phase).mp ((oscOk_iff p o).mp ho).1
  obtain ⟨b, hb, hbh⟩ := clampInc_fin p (fmul (Fp.ofBits o.freq) dt) hp
  obtain ⟨hrep, -⟩ := ofBits_fin o.phase false c hc
  have hsum : fadd (Fp.ofBits o.phase) (.fin false b) = .fin false (roundRatio (c + b) 1) := by
    rw [hc, fadd_advance c b hcu hbh]
  rw [oscInc, hb, hsum]
  cases hevent : oscEvent (Fp.ofBits o.phase) (.fin false (roundRatio (c + b) 1)) with
  | wrap =>
    obtain ⟨d, hd, hdu⟩ := wrap_offset c b hrep hcu hbh (hc ▸ hevent)
    rw [oscInsert_wrap hevent, hd]
    exact ⟨blepInsert_ringBound hp ha htable hdu fpTwo_magAtMost hbsq,
      blepInsert_ringBound hp ha htable hdu fpNegTwo_magAtMost hbsaw⟩
  | half =>
    obtain ⟨d, hd, hdu⟩ := half_offset c b hrep (hc ▸ hevent)
    rw [oscInsert_half hevent, hd]
    exact ⟨blepInsert_ringBound hp ha htable hdu fpNegTwo_magAtMost hbsq, ringBound_mono (by decide) hbsaw⟩
  | none =>
    rw [oscInsert_none hevent]
    exact ⟨ringBound_mono (by decide) hbsq, ringBound_mono (by decide) hbsaw⟩

theorem oscSample_ringsWithin (p : Config.Params) (a : Nat) (o : OscState) (dt : Fp) (hp : legalParams p = true)
    (ho : oscOk p o = true) (ha : a ≤ 118) (htable : tableWithin p a = true) (h : ringsWithin p a o = true) :
    ringsWithin p a (oscSample p o dt).1 = true := by
  obtain ⟨hbsq, hbsaw⟩ := oscInsert_ringBound p a o dt hp ho ha htable h
  obtain ⟨-, -, -, -, heq, hlt⟩ := (oscOk_iff p o).mp ho
  rw [ringsWithin_iff_ringBound, oscSample_eq]
  exact ⟨ringCleared_ringBound hlt hbsq, ringCleared_ringBound (heq ▸ hlt) hbsaw⟩

theorem naiveSquare_magAtMost (x : Fp) : magAtMost (level 0 3) (naiveSquare x) = true := by
  rw [level_zero]
  unfold naiveSquare
  split <;> decide

theorem naiveSaw_magAtMost (m : Nat) (hm : m < unitMag) : magAtMost (level 0 3) (naiveSaw (.fin false m)) = true := by
  have hphase : magAtMost (level 0 1) (.fin false m) = true := by simp [level_zero, hm.le]
  have hone : magAtMost (level 0 1) fpOne = true := by
    rw [level_zero]
    decide
  have hdouble := fmul_magAtMost (by decide) (by decide) fpTwo_magAtMost hphase
  exact fsub_magAtMost (j := 2) (k := 1) (by decide) (by decide) hdouble hone

/-- The entry a ring gives up after the insertion is within one term for each of L samples, so the output is within
2^127. -/
theorem finiteWord_oscOutput (p : Config.Params) (a b rd : Nat) (ring : List Word) (naive : Fp)
    (hp : legalParams p = true) (hab : a + b ≤ 118)
    (hscale : magAtMost (2 ^ b * unitMag) (Fp.ofBits p.oscScale) = true) (hrd : rd < p.win)
    (hnaive : magAtMost (level 0 3) naive = true) (h : RingBound p a 1 ring rd) :
    finiteWord (resultF (oscOutput p naive (ringHead ring rd))) = true := by
  obtain ⟨hwin, hwin'⟩ := legalParams_win p hp
  have hhead := h 0 (by omega)
  simp only [Nat.add_zero, Nat.mod_eq_of_lt hrd, Nat.sub_zero, Nat.sub_add_cancel hwin] at hhead
  have hsum := fadd_magAtMost (by omega) (by omega)
    (magAtMost_mono _ (level a 3) _ (level_mono 0 a 3 3 (by omega) le_rfl) hnaive) hhead
  have hout := fmul_magAtMost (by omega) (by omega) (level_one b ▸ hscale) hsum
  exact finiteWord_fmul _ _ (isfinite_of_magAtMost _ _ hout)

/-- Both outputs of a sample. -/
theorem oscSample_words (p : Config.Params) (o : OscState) (dt : Fp) :
    (oscSample p o dt).2 =
      [resultF (oscOutput p (naiveSquare (oscWrap (fadd (Fp.ofBits o.phase) (oscInc p o dt))))
        (ringHead (oscInsert p o (oscInc p o dt) (fadd (Fp.ofBits o.phase) (oscInc p o dt))).bsq o.psq)),
       resultF (oscOutput p (naiveSaw (oscWrap (fadd (Fp.ofBits o.phase) (oscInc p o dt))))
        (ringHead (oscInsert p o (oscInc p o dt) (fadd (Fp.ofBits o.phase) (oscInc p o dt))).bsaw o.psaw))] := by
  simp [oscSample]

section
variable (p : Config.Params) (o : OscState) (a b : Nat) (hp : legalParams p = true) (ho : oscOk p o = true)
include hp ho

theorem naiveSaw_oscWrap_magAtMost (dt : Fp) :
    magAtMost (level 0 3) (naiveSaw (oscWrap (fadd (Fp.ofBits o.phase) (oscInc p o dt)))) = true := by
  obtain ⟨r, hr, -, hlt⟩ := oscWrap_advance_fin p o.phase (fmul (Fp.ofBits o.freq) dt) hp ((oscOk_iff p o).mp ho).1
  rw [oscInc, hr]
  exact naiveSaw_magAtMost r hlt

/-- A sample of an oscillator within the bounds returns finite words. -/
theorem oscSample_words_finite (dt : Fp) (hab : a + b ≤ 118) (htable : tableWithin p a = true)
    (hscale : magAtMost (2 ^ b * unitMag) (Fp.ofBits p.oscScale) = true) (h : ringsWithin p a o = true) :
    ∀ w ∈ (oscSample p o dt).2, finiteWord w = true := by
  obtain ⟨hbsq, hbsaw⟩ := oscInsert_ringBound p a o dt hp ho (by omega) htable h
  obtain ⟨-, -, -, -, heq, hlt⟩ := (oscOk_iff p o).mp ho
  have hsq := finiteWord_oscOutput p a b o.psq _ _ hp hab hscale hlt
    (naiveSquare_magAtMost (oscWrap (fadd (Fp.ofBits o.phase) (oscInc p o dt)))) hbsq
  have hsaw := finiteWord_oscOutput p a b o.psaw _ _ hp hab hscale (heq ▸ hlt)
    (naiveSaw_oscWrap_magAtMost p o hp ho dt) hbsaw
  rw [oscSample_words]
  simp only [List.forall_mem_cons, List.not_mem_nil, false_imp_iff, implies_true, and_true]
  exact ⟨hsq, hsaw⟩

omit hp in
theorem rings_finite (h : ringsWithin p a o = true) : ∀ w ∈ o.bsq ++ o.bsaw, finiteWord w = true := by
  obtain ⟨hbsq, hbsaw⟩ := (ringsWithin_iff_ringBound p a o).mp h
  obtain ⟨-, -, hlen, hlen', heq, hlt⟩ := (oscOk_iff p o).mp ho
  rw [List.forall_mem_append]
  exact ⟨finiteWord_of_ringBound hlen hlt hbsq, finiteWord_of_ringBound hlen' (heq ▸ hlt) hbsaw⟩

/-- Any number of samples keeps an oscillator within its invariant and its bounds. -/
theorem oscRun_within (dts : List Word) (ha : a ≤ 118) (htable : tableWithin p a = true)
    (h : ringsWithin p a o = true) :
    oscOk p (oscRun p o dts) = true ∧ ringsWithin p a (oscRun p o dts) = true := by
  induction dts generalizing o with
  | nil => exact ⟨ho, h⟩
  | cons dt dts ih =>
    exact ih _ (oscSample_ok p o (operandF dt) hp ho) (oscSample_ringsWithin p a o (operandF dt) hp ho ha htable h)

end

/-! ### Power-on and steps -/

/-- The rings of a cleared oscillator are empty. -/
theorem oscClear_ringsWithin (p : Config.Params) (a : Nat) (o : OscState) : ringsWithin p a (oscClear p o) = true :=
  (ringsWithin_iff_ringBound p a _).mpr ⟨ringBound_replicate p a 0 p.win 0, ringBound_replicate p a 0 p.win 0⟩

theorem powerOn_ringsWithin (p : Config.Params) (a : Nat) : ringsWithin p a (OscState.powerOn p.win) = true :=
  oscClear_ringsWithin p a (OscState.powerOn p.win)

theorem oscStep_ringsWithin (p : Config.Params) (a : Nat) (o o' : OscState) (hp : legalParams p = true)
    (ho : oscOk p o = true) (ha : a ≤ 118) (htable : tableWithin p a = true) (h : ringsWithin p a o = true)
    (hstep : OscStep p o o') : ringsWithin p a o' = true := by
  cases hstep with
  | setf f => exact h
  | sample dt => exact oscSample_ringsWithin p a o dt hp ho ha htable h
  | clear => exact oscClear_ringsWithin p a o

/-- The invariant of R49, a table within 2^a, and every ring within its bound. -/
def BoundedInv (a : Nat) (s : State) : Prop :=
  s.inv = true ∧ tableWithin s.params a = true ∧ ∀ o ∈ s.oscs, ringsWithin s.params a o = true

theorem effect_boundedInv (a : Nat) (ha : a ≤ 118) (i : Instr) (s t : State) (h : Effect i s t)
    (hs : BoundedInv a s) : BoundedInv a t := by
  obtain ⟨hinv, htable, hrings⟩ := hs
  refine ⟨effect_inv i s t h hinv, effect_params h ▸ htable, ?_⟩
  obtain ⟨-, hparams, -, -, hoscs, -⟩ := (inv_iff s).mp hinv
  cases h with
  | returned | ed | div | conv => exact hrings
  | error c =>
    rw [takeError_params, takeError_oscs]
    exact hrings
  | reset =>
    rw [blockReset_oscs, List.forall_mem_map]
    exact fun o _ => oscClear_ringsWithin s.params a _
  | osc k o o' ws _ hk hstep =>
    have ho := List.mem_of_getElem? hk
    exact forall_mem_set k hrings (oscStep_ringsWithin _ a o o' hparams (hoscs o ho) ha htable (hrings o ho) hstep)

theorem takeError_boundedInv (a : Nat) (c : Cause) (w : Word) (s : State) (hs : BoundedInv a s) :
    BoundedInv a (takeError c w s) := by
  obtain ⟨hinv, htable, hrings⟩ := hs
  refine ⟨takeError_inv c w s hinv, ?_, ?_⟩
  · rwa [takeError_params]
  · rwa [takeError_params, takeError_oscs]

theorem step_boundedInv (a : Nat) (ha : a ≤ 118) (s t : State) (hs : BoundedInv a s) (h : step s = .next t) :
    BoundedInv a t :=
  step_keeps (BoundedInv a) (fun _ _ hu => hu) (takeError_boundedInv a) (effect_boundedInv a ha) s t hs h

/-! ### Parameters with room (notes/assumptions/10.md) -/

/-- The open table is below 2^115, and the default scale is 5. -/
theorem defaultParams_described : describedParams Config.defaultParams = true := by
  rw [describedParams_iff]
  refine ⟨defaultParams_legal, 115, by decide, (roomAt_iff _ _).mpr ⟨?_, by decide⟩⟩
  exact (tableWithin_iff _ _).mpr fun k _ => tableEntry_open_magAtMost _ rfl k

theorem powerOn_finiteInv (c : Config.Counts) (p : Config.Params) (hc : legalCounts c = true)
    (hp : describedParams p = true) : (State.powerOn c p).finiteInv = true := by
  obtain ⟨hlegal, a, ha, hroom⟩ := (describedParams_iff p).mp hp
  refine (finiteInv_iff _).mpr ⟨powerOn_inv c p hc hlegal, a, ha, hroom, fun o ho => ?_⟩
  exact List.eq_of_mem_replicate ho ▸ powerOn_ringsWithin p a

theorem reset_finiteInv : State.reset.finiteInv = true :=
  powerOn_finiteInv Config.defaultCounts Config.defaultParams (by decide) defaultParams_described

theorem step_finiteInv (s t : State) (hs : s.finiteInv = true) (h : step s = .next t) : t.finiteInv = true := by
  obtain ⟨hinv, a, ha, hroom, hrings⟩ := (finiteInv_iff s).mp hs
  have htable := ((roomAt_iff _ _).mp hroom).1
  obtain ⟨hinv', -, hrings'⟩ := step_boundedInv a (by omega) s t ⟨hinv, htable, hrings⟩ h
  exact (finiteInv_iff t).mpr ⟨hinv', a, ha, (constantsNeverChange s t h).1 ▸ hroom, hrings'⟩

/-- Under the invariant every ring entry and every output is finite (R31, R137). -/
theorem finite_of_finiteInv (s : State) (hs : s.finiteInv = true) (o : OscState) (ho : o ∈ s.oscs) :
    (∀ w ∈ o.bsq ++ o.bsaw, finiteWord w = true) ∧
    ∀ dt : Word, ∀ w ∈ (oscSample s.params o (operandF dt)).2, finiteWord w = true := by
  obtain ⟨hinv, a, ha, hroom, hrings⟩ := (finiteInv_iff s).mp hs
  obtain ⟨htable, hscale⟩ := (roomAt_iff _ _).mp hroom
  obtain ⟨-, hparams, -, -, hoscs, -⟩ := (inv_iff s).mp hinv
  exact ⟨rings_finite _ o a (hoscs o ho) (hrings o ho), fun dt =>
    oscSample_words_finite _ o a (118 - a) hparams (hoscs o ho) _ (by omega) htable hscale (hrings o ho)⟩

/-- Settles O39: a run from power-on starts with empty rings, and every sample and every step keeps the bound. -/
theorem oscOutputsFiniteForBoundedTable : Obligations.OscOutputsFiniteForBoundedTable := by
  refine ⟨powerOn_ringsWithin, ?_, ?_, ?_, defaultParams_described, reset_finiteInv, powerOn_finiteInv, step_finiteInv,
    finite_of_finiteInv⟩
  · intro s t a hinv ha htable hrings h
    obtain ⟨-, -, hrings'⟩ := step_boundedInv a ha s t ⟨hinv, htable, hrings⟩ h
    exact hrings'
  · intro p o dt a b hp ho hab htable hscale h
    exact ⟨oscSample_words_finite p o a b hp ho _ hab htable hscale h, rings_finite p o a ho h⟩
  · intro p f dt dts a b hp hab htable hscale
    have hstart := oscStep_ok p (OscState.powerOn p.win) _ hp (oscPowerOn_ok p hp) (.setf f)
    obtain ⟨hok, hrings⟩ := oscRun_within p _ a hp hstart dts (by omega) htable (powerOn_ringsWithin p a)
    exact ⟨oscSample_words_finite p _ a b hp hok _ hab htable hscale hrings, rings_finite p _ a hok hrings⟩

end Sys2Proof.Proofs
end

