-- ==== Sys2Proof/Proofs/HostLink.lean ====
section
/-! PROOFS. The host link: a word crosses it least significant byte first (20_memory.md R53), and the CORE waits until
a whole command is there (R54). -/

namespace Sys2Proof.Proofs

open Sys2Proof Sys2Proof.Machine Sys2Proof.Laws

/-! ### Byte order -/

/-- Concatenation is place value, which reads a word off its bytes. -/
theorem toNat_append_eq_add {m n : Nat} (x : BitVec m) (y : BitVec n) :
    (x ++ y).toNat = 2 ^ n * x.toNat + y.toNat := by
  rw [BitVec.toNat_append, ← Nat.shiftLeft_add_eq_or_of_lt y.isLt, Nat.shiftLeft_eq, Nat.mul_comm]

theorem toNat_wordOfBytes (b0 b1 b2 b3 : Byte) :
    (wordOfBytes b0 b1 b2 b3).toNat = b0.toNat + 2 ^ 8 * b1.toNat + 2 ^ 16 * b2.toNat + 2 ^ 24 * b3.toNat := by
  simp only [wordOfBytes, toNat_append_eq_add]
  omega

theorem resultBytes_pushResults (s : State) (ws : List Word) :
    (s.pushResults ws).resultBytes = s.resultBytes ++ ws.flatMap wordBytes := by
  simp only [State.resultBytes, pushResults_results, List.flatMap_append]

/-- Settles O8: taking a word off the link weights its bytes upwards, and returning one appends `wordBytes` of it. -/
theorem linkIsLittleEndian : Obligations.LinkIsLittleEndian :=
  ⟨fun b0 b1 b2 b3 _ => ⟨wordOfBytes b0 b1 b2 b3, rfl, toNat_wordOfBytes b0 b1 b2 b3⟩, takeWord_wordBytes,
    fun s w => resultBytes_pushResults s [w]⟩

/-! ### Waiting -/

theorem takeWord_of_length_lt {link : List Byte} (h : link.length < 4) : takeWord link = none := by
  match link with
  | [] | [_] | [_, _] | [_, _, _] => rfl
  | _ :: _ :: _ :: _ :: _ => simp only [List.length_cons] at h; omega

theorem length_of_takeWord {link rest : List Byte} {w : Word} (h : takeWord link = some (w, rest)) :
    link.length = rest.length + 4 := by
  match link with
  | [] | [_] | [_, _] | [_, _, _] => cases h
  | _ :: _ :: _ :: _ :: _ => cases h; rfl

theorem takeWords_of_length_lt (n : Nat) {link : List Byte} (h : link.length < 4 * n) : takeWords n link = none := by
  induction n generalizing link with
  | zero => omega
  | succ n ih =>
    cases hw : takeWord link with
    | none => simp only [takeWords, hw]
    | some taken =>
      obtain ⟨w, rest⟩ := taken
      have hlen := length_of_takeWord hw
      have hrest : takeWords n rest = none := ih (by omega)
      simp only [takeWords, hw, hrest]

theorem fetch_of_length_lt {link : List Byte} (h : link.length < 4) : fetch link = .waiting := by
  simp only [fetch, takeWord_of_length_lt h]

/-- A command word alone is no whole command while its operand words are not all there. -/
theorem fetch_of_operands_missing (w : Word) {tail : List Byte} (h : tail.length < 4 * operandCount w) :
    fetch (wordBytes w ++ tail) = .waiting := by
  simp only [fetch, takeWord_wordBytes, takeWords_of_length_lt _ h]

theorem step_of_fetch_waiting {s : State} (h : fetch s.link = .waiting) : step s = .next s := by
  rcases step_cases s with ⟨-, hs⟩ | ⟨i, rest, hc, -⟩ | ⟨c, w, rest, hill, -⟩
  · exact hs
  · cases h.symm.trans hc
  · cases h.symm.trans hill

/-- Settles O7: the fetch reads no whole command, and then a step waits. -/
theorem partialCommandWaits : Obligations.PartialCommandWaits :=
  ⟨fun _ h => step_of_fetch_waiting (fetch_of_length_lt h),
    fun _ w _ hl h => step_of_fetch_waiting (hl ▸ fetch_of_operands_missing w h)⟩

end Sys2Proof.Proofs
end

