-- ==== Sys2Proof/Proofs/RepeatedCommands.lean ====
section
/-! PROOFS. A setter or a reset done twice is the same as done once (20_memory.md R56). Each is idempotent on the unit
it addresses, and for a missing unit its error is: it returns no words, and the latch keeps the first error. -/

namespace Sys2Proof.Proofs

open Sys2Proof Sys2Proof.Machine Sys2Proof.Laws

/-! ### The effects on a unit -/

theorem divWithMaxN_idem (d : DivState) (m : Word) : divWithMaxN (divWithMaxN d m) m = divWithMaxN d m := by
  simp only [divWithMaxN]
  split
  · rw [ite_self]
  · rfl

theorem divWithMode_idem (d : DivState) (mode : Word) :
    divWithMode (divWithMode d mode) mode = divWithMode d mode := by
  unfold divWithMode
  split
  · rfl
  · split <;> rfl

theorem blockReset_idem (s : State) : blockReset (blockReset s) = blockReset s := by
  have heds : edClear ∘ edClear = edClear := rfl
  have hoscs : oscBlockReset s.params ∘ oscBlockReset s.params = oscBlockReset s.params := rfl
  have hdivs : divBlockReset ∘ divBlockReset = divBlockReset := rfl
  have hconvs : convClear ∘ convClear = convClear := rfl
  simp only [blockReset, clearLatch, List.map_map, heds, hoscs, hdivs, hconvs]

/-! ### A command on one unit, repeated -/

/-- With the latch set, an error of a command that returns no words leaves no trace. -/
theorem takeError_latched (c : Cause) (w : Word) (s : State) (hr : resultCount w = 0) (hs : s.errBit = true) :
    takeError c w s = s := by
  rw [takeError, latchError_latched c w s hs, hr, List.replicate_zero, pushResults_nil]

/-- A command that returns no words and changes the addressed unit by an idempotent function, done again. The two
functions are one; each is written with the parameters of its own state. -/
theorem on_repeat {u : UnitClass} {α : Type} (U : Instances u α) {i : Instr} {k : Byte} {s t : State} {g g' : α → α}
    (hr : resultCount (commandWord i) = 0) (h : U.on i k s (fun x => (g x, [])) = .next t) (hg : g' = g)
    (hidem : ∀ x, g (g x) = g x) (hput : ∀ s l, U.put (U.put s l) l = U.put s l) :
    U.on i k t (fun x => (g' x, [])) = .next t := by
  subst hg
  cases hk : (U.get s)[k.toNat]? with
  | none =>
    cases (U.on_none i k s _ hk).symm.trans h
    rw [U.on_none i k _ _ ((U.get_takeError _ _ _).symm ▸ hk),
      takeError_latched _ _ _ hr (takeError_errBit _ _ _)]
  | some x =>
    cases (U.on_some i k s _ x hk).symm.trans h
    rw [pushResults_nil]
    have hk' : (U.get (U.put s ((U.get s).set k.toNat (g' x))))[k.toNat]? = some (g' x) := by
      simp [U.get_put, List.getElem?_set_self', hk]
    rw [U.on_some i k _ _ _ hk', pushResults_nil, U.get_put, List.set_set, hidem, hput]

/-- Setters and resets return no words (30_encoding.md R77). -/
theorem resultCount_of_idempotentCommand (i : Instr) (h : idempotentCommand i = true) :
    resultCount (commandWord i) = 0 := by
  cases i with
  | oscSetf | divSetn | divSetmaxn | divSetmode | coreReset | edReset | oscReset | divReset | convReset =>
    simp [commandWord, resultCount]
  | _ => cases h

/-- Settles O57: the addressed unit's transition is idempotent, and so is the error for a missing unit. -/
theorem settersAndResetsIdempotent : Obligations.SettersAndResetsIdempotent := by
  intro i s t hi h
  have hr := resultCount_of_idempotentCommand i hi
  have hp : t.params = s.params := effect_params (exec_effect i s t h)
  cases i with
  | coreReset =>
    cases h
    exact congrArg Host.Outcome.next (blockReset_idem s)
  | edReset => exact on_repeat edInstances hr h rfl (fun _ => rfl) (fun _ _ => rfl)
  | oscSetf => exact on_repeat oscInstances hr h rfl (fun _ => rfl) (fun _ _ => rfl)
  | oscReset => exact on_repeat oscInstances hr h (by rw [hp]) (fun _ => rfl) (fun _ _ => rfl)
  | divSetn | divReset => exact on_repeat divInstances hr h rfl (fun _ => rfl) (fun _ _ => rfl)
  | divSetmaxn k m => exact on_repeat divInstances hr h rfl (divWithMaxN_idem · m) (fun _ _ => rfl)
  | divSetmode k mode => exact on_repeat divInstances hr h rfl (divWithMode_idem · mode) (fun _ _ => rfl)
  | convReset => exact on_repeat convInstances hr h rfl (fun _ => rfl) (fun _ _ => rfl)
  | _ => cases hi

end Sys2Proof.Proofs
end

/-! PROOFS. The decoder, the encoder and the opcode table agree (30_encoding.md R70 to R80): a command word that
decodes is the one the encoder writes, and it is a word of exactly one row of the table. -/

namespace Sys2Proof.Proofs

open Sys2Proof Sys2Proof.Laws

/-! ### Command words by their fields (30_encoding.md R70) -/

theorem header_fields (w : Word) : fieldOp w ++ (fieldIdx w ++ (fieldRsv w ++ fieldReg w)) = w :=
  wordOfBytes_extract w

theorem header_of_rsv_zero {w : Word} (h : fieldRsv w = 0#8) : header (fieldOp w) (fieldIdx w) (fieldReg w) = w := by
  rw [header, ← h, header_fields]

/-- Two command words are the same when their four fields are. -/
theorem word_eq_iff_fields (w v : Word) :
    w = v ↔ fieldOp w = fieldOp v ∧ fieldIdx w = fieldIdx v ∧ fieldRsv w = fieldRsv v ∧ fieldReg w = fieldReg v := by
  constructor
  · rintro rfl
    exact ⟨rfl, rfl, rfl, rfl⟩
  · rintro ⟨hop, hidx, hrsv, hreg⟩
    rw [← header_fields w, ← header_fields v, hop, hidx, hrsv, hreg]

theorem fieldOp_and (w v : Word) : fieldOp (w &&& v) = fieldOp w &&& fieldOp v := BitVec.extractLsb'_and
theorem fieldIdx_and (w v : Word) : fieldIdx (w &&& v) = fieldIdx w &&& fieldIdx v := BitVec.extractLsb'_and
theorem fieldRsv_and (w v : Word) : fieldRsv (w &&& v) = fieldRsv w &&& fieldRsv v := BitVec.extractLsb'_and
theorem fieldReg_and (w v : Word) : fieldReg (w &&& v) = fieldReg w &&& fieldReg v := BitVec.extractLsb'_and

theorem byte_and_ones (b : Byte) : b &&& 0xFF#8 = b := BitVec.and_allOnes

/-! ### The command words that decode (30_encoding.md R77, R78) -/

theorem decodePlain_eq_instr {w : Word} {i j : Instr} (h : decodePlain w j = .instr i) :
    fieldRsv w = 0#8 ∧ fieldReg w = 0#8 ∧ j = i := by
  simpa [decodePlain, ite_eq_iff, and_assoc] using h

theorem decodeGet_eq_instr {w : Word} {i j : Instr} (h : decodeGet w j = .instr i) : fieldRsv w = 0#8 ∧ j = i := by
  simpa [decodeGet, ite_eq_iff] using h

theorem decodeBlock_eq_instr {w : Word} {i : Instr} {d : Decoded} (h : decodeBlock w d = .instr i) :
    fieldIdx w = 0#8 ∧ d = .instr i := by
  cases d with
  | illegal c => cases h
  | instr j => simpa [decodeBlock, ite_eq_iff] using h

theorem decodeUnassigned_ne_instr (w : Word) (i : Instr) : decodeUnassigned w ≠ .instr i := by
  unfold decodeUnassigned
  split <;> exact Decoded.noConfusion

/-- `w` is the command word of `i`, and the operand words of `i` are the first of `operands`. -/
def Reads (w : Word) (operands : List Word) (i : Instr) : Prop :=
  commandWord i = w ∧
    operandWords i = (List.range (operandWords i).length).map fun n => operands.getD n 0x00000000#32

section
variable {w : Word} {operands : List Word} {op : Byte} {i j : Instr}

theorem reads_of_decodePlain (h : decodePlain w j = .instr i)
    (hword : commandWord j = header op (fieldIdx w) 0#8) (hop : (fieldOp w).toNat = op.toNat)
    (hargs : operandWords j = (List.range (operandWords j).length).map fun n => operands.getD n 0x00000000#32) :
    Reads w operands i := by
  obtain ⟨hrsv, hreg, rfl⟩ := decodePlain_eq_instr h
  refine ⟨?_, hargs⟩
  rw [hword, ← BitVec.eq_of_toNat_eq hop, ← hreg, header_of_rsv_zero hrsv]

theorem reads_of_decodeGet (h : decodeGet w j = .instr i)
    (hword : commandWord j = header op (fieldIdx w) (fieldReg w)) (hop : (fieldOp w).toNat = op.toNat)
    (hargs : operandWords j = []) : Reads w operands i := by
  obtain ⟨hrsv, rfl⟩ := decodeGet_eq_instr h
  refine ⟨?_, by rw [hargs]; rfl⟩
  rw [hword, ← BitVec.eq_of_toNat_eq hop, header_of_rsv_zero hrsv]

theorem reads_of_decodeBlock_plain (h : decodeBlock w (decodePlain w j) = .instr i)
    (hword : commandWord j = header op 0#8 0#8) (hop : (fieldOp w).toNat = op.toNat) (hargs : operandWords j = []) :
    Reads w operands i := by
  obtain ⟨hidx, hplain⟩ := decodeBlock_eq_instr h
  exact reads_of_decodePlain hplain (by rw [hidx, hword]) hop (by rw [hargs]; rfl)

theorem reads_of_decodeBlock_get (h : decodeBlock w (decodeGet w j) = .instr i)
    (hword : commandWord j = header op 0#8 (fieldReg w)) (hop : (fieldOp w).toNat = op.toNat)
    (hargs : operandWords j = []) : Reads w operands i := by
  obtain ⟨hidx, hget⟩ := decodeBlock_eq_instr h
  exact reads_of_decodeGet hget (by rw [hidx, hword]) hop hargs

/-- What decodes to an instruction is its command word, with its operand words. -/
theorem reads_of_decode (h : decode w operands = .instr i) : Reads w operands i := by
  unfold decode at h
  dsimp only at h
  split at h
  case h_1 hop | h_2 hop => exact reads_of_decodeBlock_plain h rfl hop rfl
  case h_3 hop => exact reads_of_decodeBlock_get h rfl hop rfl
  case h_9 hop | h_13 hop | h_19 hop | h_22 hop => exact reads_of_decodeGet h rfl hop rfl
  case h_23 => exact absurd h (decodeUnassigned_ne_instr w i)
  all_goals
    next hop => exact reads_of_decodePlain h rfl hop rfl

/-- With exactly the operand words R72 counts, what decodes to an instruction is its encoding. -/
theorem encode_of_decode (hlen : operands.length = operandCount w) (h : decode w operands = .instr i) :
    encode i = w :: operands := by
  obtain ⟨hword, hargs⟩ := reads_of_decode h
  have hcount : (operandWords i).length = operands.length := by rw [operandWords_length, hword, hlen]
  rw [encode, hword, hargs, hcount]
  congr 1
  apply List.ext_getElem <;> simp +contextual

end

/-! ### What stands on the link (20_memory.md R53) -/

@[simp] theorem wordBytes_wordOfBytes (b0 b1 b2 b3 : Byte) :
    wordBytes (wordOfBytes b0 b1 b2 b3) = [b0, b1, b2, b3] := by
  simp only [wordBytes, List.cons.injEq, and_true, ← BitVec.toNat_inj, BitVec.extractLsb'_toNat,
    Nat.shiftRight_eq_div_pow, toNat_wordOfBytes]
  omega

theorem eq_append_of_takeWord {link rest : List Byte} {w : Word} (h : takeWord link = some (w, rest)) :
    link = wordBytes w ++ rest := by
  match link with
  | [] | [_] | [_, _] | [_, _, _] => cases h
  | b0 :: b1 :: b2 :: b3 :: _ =>
    cases h
    rw [wordBytes_wordOfBytes]
    rfl

theorem eq_append_of_takeWords {n : Nat} {link rest : List Byte} {ws : List Word}
    (h : takeWords n link = some (ws, rest)) : ws.length = n ∧ link = ws.flatMap wordBytes ++ rest := by
  induction n generalizing link ws with
  | zero =>
    cases h
    exact ⟨rfl, rfl⟩
  | succ n ih =>
    unfold takeWords at h
    split at h
    next => cases h
    next w link' hword =>
      split at h
      next => cases h
      next vs rest' hwords =>
        cases h
        obtain ⟨hlen, hlink⟩ := ih hwords
        refine ⟨congrArg (· + 1) hlen, ?_⟩
        rw [eq_append_of_takeWord hword, hlink, List.flatMap_cons, List.append_assoc]

/-- What the fetch reads as an instruction: a command word and as many operand words as R72 counts, which decode. -/
theorem words_of_fetch_command {link rest : List Byte} {i : Instr} (h : fetch link = .command i rest) :
    ∃ w operands, link = wordBytes w ++ (operands.flatMap wordBytes ++ rest) ∧
      operands.length = operandCount w ∧ decode w operands = .instr i := by
  unfold fetch at h
  split at h
  next => cases h
  next w link' hword =>
    split at h
    next => cases h
    next operands rest' hwords =>
      obtain ⟨hlen, hlink⟩ := eq_append_of_takeWords hwords
      split at h
      next j hdec =>
        cases h
        exact ⟨w, operands, by rw [eq_append_of_takeWord hword, hlink], hlen, hdec⟩
      next => cases h

/-- Settles O3: the bytes of an instruction are read back by the fetch. -/
theorem decodeOfEncode : Obligations.DecodeOfEncode := fetch_encodeBytes

/-- Settles O4: the words the fetch reads decode, so they are the encoding of what they decode to. -/
theorem encodeOfDecode : Obligations.EncodeOfDecode := by
  intro link i rest h
  obtain ⟨w, operands, rfl, hlen, hdec⟩ := words_of_fetch_command h
  rw [encodeBytes, encode_of_decode hlen hdec, List.flatMap_cons, List.append_assoc]

/-! ### The opcode table (30_encoding.md R77) -/

/-- The IDX bits of the mask: class 0 leaves none free. -/
def idxMask : Instr → Byte
  | .coreNop | .coreReset | .coreGet _ => 0xFF#8
  | _ => 0x00#8

/-- The REG bits of the mask: a GET leaves them free. -/
def regMask : Instr → Byte
  | .coreGet _ | .edGet _ _ | .oscGet _ _ | .divGet _ _ | .convGet _ _ => 0x00#8
  | _ => 0xFF#8

/-- The row of an instruction. -/
def rowOf (i : Instr) : OpcodeRow where
  mnemonic := mnemonicOf i
  pattern  := header (fieldOp (commandWord i)) 0#8 0#8
  mask     := wordOfBytes (regMask i) 0xFF#8 (idxMask i) 0xFF#8

theorem rowOf_mem (i : Instr) : rowOf i ∈ opcodeRows := by
  cases i <;>
    · simp only [rowOf, mnemonicOf, commandWord, fieldOp_header, idxMask, regMask]
      decide

/-- One instruction of each row. -/
def rowInstrs : List Instr :=
  [.coreNop, .coreReset, .coreGet 0#8, .edSet 0#8 0#32, .edReset 0#8, .edRising 0#8, .edTrailing 0#8, .edAny 0#8,
    .edGet 0#8 0#8, .oscSetf 0#8 0#32, .oscProc 0#8 0#32, .oscReset 0#8, .oscGet 0#8 0#8, .divProc 0#8 0#32,
    .divSetn 0#8 0#32, .divSetmaxn 0#8 0#32, .divSetmode 0#8 0#32, .divReset 0#8, .divGet 0#8 0#8,
    .convTosaw 0#8 0#32 0#32 0#32, .convReset 0#8, .convGet 0#8 0#8]

theorem opcodeRows_eq_map : opcodeRows = rowInstrs.map rowOf := by decide

theorem exists_rowOf {r : OpcodeRow} (h : r ∈ opcodeRows) : ∃ i, rowOf i = r := by
  rw [opcodeRows_eq_map] at h
  obtain ⟨i, -, hi⟩ := List.mem_map.mp h
  exact ⟨i, hi⟩

theorem fields_wordOfBytes (b0 b1 b2 b3 : Byte) :
    fieldOp (wordOfBytes b0 b1 b2 b3) = b3 ∧ fieldIdx (wordOfBytes b0 b1 b2 b3) = b2 ∧
      fieldRsv (wordOfBytes b0 b1 b2 b3) = b1 ∧ fieldReg (wordOfBytes b0 b1 b2 b3) = b0 := by
  have h := wordBytes_wordOfBytes b0 b1 b2 b3
  simp only [wordBytes, List.cons.injEq, and_true] at h
  obtain ⟨h0, h1, h2, h3⟩ := h
  exact ⟨h3, h2, h1, h0⟩

/-- A word matches a row when its fields do: RSV is 0, and so is what the mask covers of IDX and REG. -/
theorem rowOf_matchesWord_iff (i : Instr) (w : Word) :
    (rowOf i).matchesWord w = true ↔ fieldOp w = fieldOp (commandWord i) ∧ fieldIdx w &&& idxMask i = 0#8 ∧
      fieldRsv w = 0#8 ∧ fieldReg w &&& regMask i = 0#8 := by
  obtain ⟨hop, hidx, hrsv, hreg⟩ := fields_wordOfBytes (regMask i) 0xFF#8 (idxMask i) 0xFF#8
  rw [OpcodeRow.matchesWord, beq_iff_eq, word_eq_iff_fields]
  simp only [rowOf, fieldOp_and, fieldIdx_and, fieldRsv_and, fieldReg_and, hop, hidx, hrsv, hreg, byte_and_ones,
    fieldOp_header, fieldIdx_header, fieldRsv_header, fieldReg_header]

theorem rowOf_matches_commandWord (i : Instr) : (rowOf i).matchesWord (commandWord i) = true := by
  rw [rowOf_matchesWord_iff]
  cases i <;> simp [commandWord, idxMask, regMask]

/-- A word of a row decodes to an instruction of that row, whatever its operand words are. -/
theorem decode_of_rowOf_matches {i : Instr} {w : Word} (operands : List Word) (h : (rowOf i).matchesWord w = true) :
    ∃ j, decode w operands = .instr j ∧ mnemonicOf j = mnemonicOf i := by
  obtain ⟨hop, hidx, hrsv, hreg⟩ := (rowOf_matchesWord_iff i w).mp h
  cases i with
  | coreNop | coreReset =>
    simp only [commandWord, fieldOp_header, idxMask, regMask, byte_and_ones] at hop hidx hreg
    simp [decode, decodeBlock, decodePlain, hop, hidx, hrsv, hreg, mnemonicOf]
  | coreGet =>
    simp only [commandWord, fieldOp_header, idxMask, byte_and_ones] at hop hidx
    simp [decode, decodeBlock, decodeGet, hop, hidx, hrsv, mnemonicOf]
  | edGet | oscGet | divGet | convGet =>
    simp only [commandWord, fieldOp_header] at hop
    simp [decode, decodeGet, hop, hrsv, mnemonicOf]
  | _ =>
    simp only [commandWord, fieldOp_header, regMask, byte_and_ones] at hop hreg
    simp [decode, decodePlain, hop, hrsv, hreg, mnemonicOf]

/-- Every mask covers bits 31:24. -/
theorem fieldOp_of_matches {r : OpcodeRow} {w : Word} (hr : r ∈ opcodeRows) (h : r.matchesWord w = true) :
    fieldOp r.pattern = fieldOp w := by
  obtain ⟨i, rfl⟩ := exists_rowOf hr
  obtain ⟨hop, -⟩ := (rowOf_matchesWord_iff i w).mp h
  rw [hop, rowOf, fieldOp_header]

/-- The rows differ in bits 31:24. -/
theorem opcodeRows_fieldOp_nodup : (opcodeRows.map fun r => fieldOp r.pattern).Nodup := by decide

/-- Settles O5: an instruction that is decoded has its command word in its own row; a word of a row decodes to an
instruction of the row; and two rows differ in bits 31:24, which every mask covers. -/
theorem decodingAgreesWithOpcodeTable : Obligations.DecodingAgreesWithOpcodeTable := by
  refine ⟨fun w operands name => ⟨?_, ?_⟩, ?_⟩
  · rintro ⟨i, hdec, rfl⟩
    obtain ⟨rfl, -⟩ := reads_of_decode hdec
    exact ⟨rowOf i, rowOf_mem i, rfl, rowOf_matches_commandWord i⟩
  · rintro ⟨r, hr, rfl, hmatch⟩
    obtain ⟨i, rfl⟩ := exists_rowOf hr
    exact decode_of_rowOf_matches operands hmatch
  · intro w r hr r' hr' h h'
    refine List.inj_on_of_nodup_map opcodeRows_fieldOp_nodup hr hr' ?_
    rw [fieldOp_of_matches hr h, fieldOp_of_matches hr' h']

end Sys2Proof.Proofs

/-! PROOFS. The length rule (30_encoding.md R72): bits 31:24 give the numbers of operand and result words, and a
command takes and returns so many words, in error or not. -/

namespace Sys2Proof.Proofs

open Sys2Proof Sys2Proof.Machine Sys2Proof.Laws

/-! ### Bits 31:24 -/

theorem fieldClass_eq (w : Word) : fieldClass w = (fieldOp w).extractLsb' 4 4 := by
  simp only [← BitVec.toNat_inj, fieldClass, fieldOp, BitVec.extractLsb'_toNat, Nat.shiftRight_eq_div_pow]
  omega

theorem opBits_eq (w : Word) : w.extractLsb' 24 4 = (fieldOp w).extractLsb' 0 4 := by
  simp only [← BitVec.toNat_inj, fieldOp, BitVec.extractLsb'_toNat, Nat.shiftRight_eq_div_pow]
  omega

theorem operandCount_congr {w v : Word} (h : fieldOp w = fieldOp v) : operandCount w = operandCount v := by
  rw [operandCount, h, operandCount]

theorem resultCount_congr {w v : Word} (h : fieldOp w = fieldOp v) : resultCount w = resultCount v := by
  rw [resultCount, h, resultCount]

theorem assignedOp_congr {w v : Word} (h : fieldOp w = fieldOp v) : assignedOp w = assignedOp v := by
  rw [assignedOp, fieldClass_eq, opBits_eq, h, ← fieldClass_eq, ← opBits_eq, assignedOp]

/-- A reserved class assigns no OP (30_encoding.md R79). -/
theorem assignedOp_of_reservedClass {w : Word} (h : 5 ≤ (fieldClass w).toNat) : assignedOp w = false := by
  unfold assignedOp
  split
  case h_6 => rfl
  all_goals omega

/-- Of the 256 values of bits 31:24, those that are not assigned have no operand and no result words. -/
theorem counts_of_unassignedByte :
    ∀ op : Byte, assignedOp (header op 0#8 0#8) = false →
      operandCount (header op 0#8 0#8) = 0 ∧ resultCount (header op 0#8 0#8) = 0 := by decide

theorem counts_of_unassigned {w : Word} (h : assignedOp w = false) : operandCount w = 0 ∧ resultCount w = 0 := by
  have hop : fieldOp w = fieldOp (header (fieldOp w) 0#8 0#8) := (fieldOp_header _ _ _).symm
  rw [operandCount_congr hop, resultCount_congr hop]
  exact counts_of_unassignedByte (fieldOp w) (assignedOp_congr hop ▸ h)

/-! ### The checks on the command word of an instruction (60_exceptions.md R212) -/

/-- The failing check of a command on unit `k` of `n`: the index first, then whether REG is listed. -/
def unitCause (n : Nat) (k : Byte) (listed : Bool) : Option Cause :=
  if n ≤ k.toNat then some .badIndex else if !listed then some .badReg else none

/-- The failing check of an instruction. Its class, OP and reserved fields pass. -/
def instrCause (c : Config.Counts) (win : Nat) : Instr → Option Cause
  | .coreNop | .coreReset => none
  | .coreGet reg => if !coreRegListed reg then some .badReg else none
  | .edSet k _ | .edReset k | .edRising k | .edTrailing k | .edAny k => unitCause c.ned k true
  | .edGet k reg => unitCause c.ned k (edRegListed reg)
  | .oscSetf k _ | .oscProc k _ | .oscReset k => unitCause c.nosc k true
  | .oscGet k reg => unitCause c.nosc k (oscRegListed win reg)
  | .divProc k _ | .divSetn k _ | .divSetmaxn k _ | .divSetmode k _ | .divReset k => unitCause c.ndiv k true
  | .divGet k reg => unitCause c.ndiv k (divRegListed reg)
  | .convTosaw k _ _ _ | .convReset k => unitCause c.nconv k true
  | .convGet k reg => unitCause c.nconv k (convRegListed reg)

theorem firstCause_commandWord (c : Config.Counts) (win : Nat) (i : Instr) :
    firstCause c win (commandWord i) = instrCause c win i := by
  cases i <;>
    simp [firstCause, commandWord, fieldClass_eq, opBits_eq, assignedOp, isGet, indexBad, regBad, instrCause, unitCause]

/-! ### Registers that are not listed (10_state.md R41 to R45) -/

theorem coreReg_of_unlisted {reg : Byte} (s : State) (h : coreRegListed reg = false) : coreReg s reg.toNat = none := by
  simp only [coreRegListed, decide_eq_false_iff_not] at h
  unfold coreReg
  split
  case h_13 => rfl
  all_goals omega

theorem edReg_of_unlisted {reg : Byte} (e : EdState) (h : edRegListed reg = false) : edReg e reg.toNat = none := by
  simp only [edRegListed, decide_eq_false_iff_not] at h
  unfold edReg
  split
  case h_5 => rfl
  all_goals omega

theorem oscReg_of_unlisted {p : Config.Params} {reg : Byte} (o : OscState) (h : oscRegListed p.win reg = false) :
    oscReg p o reg.toNat = none := by
  simp only [oscRegListed, Bool.or_eq_false_iff, Bool.and_eq_false_iff, decide_eq_false_iff_not] at h
  unfold oscReg
  repeat rw [if_neg (by omega)]

theorem divReg_of_unlisted {reg : Byte} (d : DivState) (h : divRegListed reg = false) : divReg d reg.toNat = none := by
  simp only [divRegListed, Bool.or_eq_false_iff, Bool.and_eq_false_iff, decide_eq_false_iff_not] at h
  unfold divReg
  split
  case h_10 => rfl
  all_goals omega

theorem convReg_of_unlisted {reg : Byte} (v : ConvState) (h : convRegListed reg = false) :
    convReg v reg.toNat = none := by
  simp only [convRegListed, Bool.or_eq_false_iff, Bool.and_eq_false_iff, decide_eq_false_iff_not,
    beq_eq_false_iff_ne] at h
  unfold convReg
  split
  case h_6 => rfl
  all_goals omega

/-! ### A command whose check fails (60_exceptions.md R213) -/

theorem returnWord_of_unlisted {i : Instr} {s : State} {v : Option Word} {listed : Bool} {c : Cause}
    (hv : listed = false → v = none) (h : (if !listed then some Cause.badReg else none) = some c) :
    returnWord i s v = .next (takeError c (commandWord i) s) := by
  cases listed with
  | true => cases h
  | false =>
    cases h
    rw [hv rfl, returnWord_none]

section
variable {u : UnitClass} {α : Type} (U : Instances u α) {i : Instr} {k : Byte} {s : State} {c : Cause}

theorem on_of_unitCause (f : α → α × List Word) (h : unitCause (U.get s).length k true = some c) :
    U.on i k s f = .next (takeError c (commandWord i) s) := by
  unfold unitCause at h
  split at h
  next hk =>
    cases h
    exact U.on_none i k s f (List.getElem?_eq_none hk)
  next => cases h

theorem read_of_unitCause {f : α → Option Word} {listed : Bool} (hf : ∀ x, listed = false → f x = none)
    (h : unitCause (U.get s).length k listed = some c) : U.read i k s f = .next (takeError c (commandWord i) s) := by
  unfold unitCause at h
  split at h
  next hk =>
    cases h
    exact U.read_none i k s f (List.getElem?_eq_none hk)
  next hk =>
    rw [U.read_some i k s f _ (List.getElem?_eq_getElem (Nat.lt_of_not_le hk))]
    exact returnWord_of_unlisted (hf _) h

end

/-- An instruction whose command word fails a check takes the error, and does nothing else. -/
theorem exec_of_firstCause {i : Instr} {s : State} {c : Cause}
    (h : firstCause s.counts s.params.win (commandWord i) = some c) :
    exec i s = .next (takeError c (commandWord i) s) := by
  rw [firstCause_commandWord] at h
  cases i with
  | coreNop | coreReset => cases h
  | coreGet => exact returnWord_of_unlisted (coreReg_of_unlisted s) h
  | edSet | edReset => exact on_of_unitCause edInstances _ h
  | edRising | edTrailing | edAny => exact read_of_unitCause edInstances (fun _ => Bool.noConfusion) h
  | edGet => exact read_of_unitCause edInstances edReg_of_unlisted h
  | oscSetf | oscProc | oscReset => exact on_of_unitCause oscInstances _ h
  | oscGet => exact read_of_unitCause oscInstances oscReg_of_unlisted h
  | divProc | divSetn | divSetmaxn | divSetmode | divReset => exact on_of_unitCause divInstances _ h
  | divGet => exact read_of_unitCause divInstances divReg_of_unlisted h
  | convTosaw | convReset => exact on_of_unitCause convInstances _ h
  | convGet => exact read_of_unitCause convInstances convReg_of_unlisted h

/-! ### The words a command returns (30_encoding.md R71) -/

/-- The answer is a next state, with `n` result words more. -/
def Returns (s : State) (n : Nat) (a : Answer) : Prop :=
  ∃ t rs, a = .next t ∧ t.results = s.results ++ rs ∧ rs.length = n

theorem takeError_returns (c : Cause) (w : Word) (s : State) : Returns s (resultCount w) (.next (takeError c w s)) :=
  ⟨_, _, rfl, takeError_results c w s, List.length_replicate⟩

theorem returnWord_returns {i : Instr} {s : State} (v : Option Word) (hR : resultCount (commandWord i) = 1) :
    Returns s (resultCount (commandWord i)) (returnWord i s v) := by
  cases v with
  | none => exact takeError_returns .badReg (commandWord i) s
  | some x => exact ⟨_, [x], rfl, pushResults_results s [x], hR.symm⟩

section
variable {u : UnitClass} {α : Type} (U : Instances u α) {i : Instr} {k : Byte} {s : State}

theorem on_returns {f : α → α × List Word} {n : Nat} (hR : resultCount (commandWord i) = n)
    (hf : ∀ x, (f x).2.length = n) : Returns s (resultCount (commandWord i)) (U.on i k s f) := by
  cases hk : (U.get s)[k.toNat]? with
  | none =>
    rw [U.on_none i k s f hk]
    exact takeError_returns .badIndex (commandWord i) s
  | some x =>
    rw [U.on_some i k s f x hk]
    exact ⟨_, (f x).2, rfl, by rw [pushResults_results, U.results_put], (hf x).trans hR.symm⟩

theorem read_returns (f : α → Option Word) (hR : resultCount (commandWord i) = 1) :
    Returns s (resultCount (commandWord i)) (U.read i k s f) := by
  cases hk : (U.get s)[k.toNat]? with
  | none =>
    rw [U.read_none i k s f hk]
    exact takeError_returns .badIndex (commandWord i) s
  | some x =>
    rw [U.read_some i k s f x hk]
    exact returnWord_returns (f x) hR

end

/-- Every instruction returns R(CLASS, OP) words, in error or not. -/
theorem exec_returns (i : Instr) (s : State) : Returns s (resultCount (commandWord i)) (exec i s) := by
  have hR : ∀ op k reg : Byte, resultCount (header op k reg) = resultCount (header op 0#8 0#8) := fun _ _ _ =>
    resultCount_congr (by simp)
  cases i with
  | coreNop => exact ⟨s, [], rfl, (List.append_nil _).symm, rfl⟩
  | coreReset => exact ⟨blockReset s, [], rfl, (List.append_nil _).symm, rfl⟩
  | coreGet => exact returnWord_returns _ (hR _ _ _)
  | edSet | edReset => exact on_returns edInstances (hR _ _ _) fun _ => rfl
  | edRising | edTrailing | edAny | edGet => exact read_returns edInstances _ (hR _ _ _)
  | oscSetf | oscProc | oscReset => exact on_returns oscInstances (hR _ _ _) fun _ => rfl
  | oscGet => exact read_returns oscInstances _ (hR _ _ _)
  | divProc | divSetn | divSetmaxn | divSetmode | divReset => exact on_returns divInstances (hR _ _ _) fun _ => rfl
  | divGet => exact read_returns divInstances _ (hR _ _ _)
  | convTosaw | convReset => exact on_returns convInstances (hR _ _ _) fun _ => rfl
  | convGet => exact read_returns convInstances _ (hR _ _ _)

theorem effect_link {i : Instr} {s t : State} (h : Effect i s t) : t.link = s.link := by
  cases h with
  | returned | reset | ed | osc | div | conv => rfl
  | error c => exact takeError_link _ _ _

/-! ### One command on the link -/

theorem step_of_fetch_illegal {s : State} {c : Cause} {w : Word} {rest : List Byte}
    (h : fetch s.link = .illegal c w rest) : step s = .next (takeError c w { s with link := rest }) := by
  rcases step_cases s with ⟨hw, -⟩ | ⟨i, rest', hc, -⟩ | ⟨c', w', rest', hill, hs⟩
  · cases h.symm.trans hw
  · cases h.symm.trans hc
  · cases h.symm.trans hill
    exact hs

theorem fetch_illegal_of_decode {w : Word} {operands : List Word} (rest : List Byte) {c : Cause}
    (hlen : operands.length = operandCount w) (hdec : decode w operands = .illegal c) :
    fetch (wordBytes w ++ (operands.flatMap wordBytes ++ rest)) = .illegal c w rest := by
  simp only [fetch, takeWord_wordBytes, ← hlen, takeWords_flatMap, hdec]

/-- With 1 + K words on the link a step takes them all: it runs the instruction whose command word this is, if every
check passes, and takes an error if not. -/
theorem step_of_words {s : State} {w : Word} {operands : List Word} {rest : List Byte}
    (hlink : s.link = wordBytes w ++ (operands.flatMap wordBytes ++ rest)) (hlen : operands.length = operandCount w) :
    (∃ i, commandWord i = w ∧ firstCause s.counts s.params.win w = none ∧ step s = exec i { s with link := rest }) ∨
      ∃ c, step s = .next (takeError c w { s with link := rest }) := by
  cases hdec : decode w operands with
  | illegal c => exact .inr ⟨c, step_of_fetch_illegal (hlink ▸ fetch_illegal_of_decode rest hlen hdec)⟩
  | instr i =>
    obtain ⟨rfl, -⟩ := reads_of_decode hdec
    have hstep := step_of_fetch_command s i rest (hlink ▸ fetch_command_of_decode _ operands rest i hlen hdec)
    cases hcause : firstCause s.counts s.params.win (commandWord i) with
    | none => exact .inl ⟨i, rfl, rfl, hstep⟩
    | some c => exact .inr ⟨c, hstep.trans (exec_of_firstCause hcause)⟩

/-- Settles O6: K and R are functions of bits 31:24, 0 where these are not assigned; a step takes the 1 + K words and
returns what its instruction or its error returns. -/
theorem commandLengthRule : Obligations.CommandLengthRule := by
  refine ⟨fun w v h => ⟨operandCount_congr h, resultCount_congr h⟩, ?_, ?_⟩
  · rintro w (hclass | hop)
    · exact counts_of_unassigned (assignedOp_of_reservedClass hclass)
    · exact counts_of_unassigned hop
  · intro s w operands rest hlink hlen
    rcases step_of_words hlink hlen with ⟨i, rfl, hpass, hstep⟩ | ⟨c, hstep⟩
    · obtain ⟨t, rs, hnext, hresults, hlength⟩ := exec_returns i { s with link := rest }
      exact ⟨t, rs, hstep.trans hnext, effect_link (exec_effect i _ t hnext), hresults, hlength,
        fun hfail => absurd hpass hfail⟩
    · exact ⟨_, _, hstep, takeError_link c w _, takeError_results c w _, List.length_replicate, fun _ => rfl⟩

end Sys2Proof.Proofs

/-! PROOFS. The assembler's words are the encoder's, and the decoder reads them back (30_encoding.md R84, R85). -/

namespace Sys2Proof.Proofs

open Sys2Proof

/-- The words of an instruction, sent alone, are read back. -/
theorem fetch_of_encode {i : Instr} {ws : List Word} (h : encode i = ws) :
    fetch (ws.flatMap wordBytes) = .command i [] := by
  simpa only [encodeBytes, h, List.append_nil] using fetch_encodeBytes i []

/-- Settles O1: the assembler and the encoder are evaluated on each line; that the decoder reads the words back holds
of every encoding. -/
theorem workedEncodingsDecode : Obligations.WorkedEncodingsDecode := by
  unfold Obligations.WorkedEncodingsDecode
  intro row hrow
  have hwords : Asm.assemble row.1 = some row.2.2 ∧ encode row.2.1 = row.2.2 := by
    revert row
    decide +kernel
  obtain ⟨hasm, henc⟩ := hwords
  exact ⟨hasm, henc, fetch_of_encode henc⟩

/-- Settles O2: the assembler is evaluated on each pseudo-instruction. -/
theorem pseudoInstructionsExpand : Obligations.PseudoInstructionsExpand := by
  unfold Obligations.PseudoInstructionsExpand
  decide +kernel

end Sys2Proof.Proofs

/-! PROOFS. The EdgeDetector (41_edge_detector.md). A comparator over the order of the binary32 data, whose levels make
edges that alternate; and what the commands on a detector answer, by what a command answers on any unit. -/

namespace Sys2Proof.Proofs

open Sys2Proof Sys2Proof.Machine Sys2Proof.Laws

/-! ### The order of the data that are no NaN (00_scope.md R18) -/

/-- The value of a datum in units of 2^-149, an infinity at its end; that of a NaN means nothing. -/
def extValue : Fp → WithBot (WithTop Int)
  | .nan _     => ⊥
  | .inf true  => ⊥
  | .inf false => ⊤
  | .fin n a   => ((signedMag n a : WithTop Int) : WithBot (WithTop Int))

theorem extValue_negInf_lt_fin (n : Bool) (a : Nat) : extValue (.inf true) < extValue (.fin n a) :=
  WithBot.bot_lt_coe _

theorem extValue_fin_lt_posInf (n : Bool) (a : Nat) : extValue (.fin n a) < extValue (.inf false) :=
  WithBot.coe_lt_coe.mpr (WithTop.coe_lt_top _)

/-- `flt` is the order of the values, and false for a NaN. -/
theorem flt_iff (a b : Fp) : flt a b = true ↔ a.isNaN = false ∧ b.isNaN = false ∧ extValue a < extValue b := by
  cases a with
  | nan => simp [Fp.isNaN]
  | inf n => cases b with
    | nan => simp [Fp.isNaN]
    | inf m => cases n <;> cases m <;> simp [flt, Fp.isNaN, extValue]
    | fin m b => cases n with
      | true => simp [flt, Fp.isNaN, extValue_negInf_lt_fin]
      | false => simp [flt, Fp.isNaN, extValue]
  | fin n a => cases b with
    | nan => simp [Fp.isNaN]
    | inf m => cases m with
      | true => simp [flt, Fp.isNaN, extValue]
      | false => simp [flt, Fp.isNaN, extValue_fin_lt_posInf]
    | fin m b => simp [Fp.isNaN, extValue]

theorem fle_iff (a b : Fp) : fle a b = true ↔ a.isNaN = false ∧ b.isNaN = false ∧ extValue a ≤ extValue b := by
  simp only [fle, Bool.and_eq_true, Bool.not_eq_true', and_assoc]
  refine and_congr_right fun ha => and_congr_right fun hb => ?_
  rw [← Bool.not_eq_true, flt_iff, ← not_lt]
  simp only [ha, hb, true_and]

theorem feq_iff (a b : Fp) : feq a b = true ↔ a.isNaN = false ∧ b.isNaN = false ∧ extValue a = extValue b := by
  rw [feq, Bool.and_eq_true, fle_iff, fle_iff, le_antisymm_iff (a := extValue a)]
  tauto

theorem extValue_lt_of_flt {a b : Fp} (h : flt a b = true) : extValue a < extValue b := by
  obtain ⟨-, -, hlt⟩ := (flt_iff a b).mp h
  exact hlt

theorem extValue_le_of_fle {a b : Fp} (h : fle a b = true) : extValue a ≤ extValue b := by
  obtain ⟨-, -, hle⟩ := (fle_iff a b).mp h
  exact hle

theorem extValue_eq_of_feq {a b : Fp} (h : feq a b = true) : extValue a = extValue b := by
  obtain ⟨-, -, heq⟩ := (feq_iff a b).mp h
  exact heq

theorem not_flt_of_extValue_le {a b : Fp} (h : extValue b ≤ extValue a) : ¬ flt a b = true :=
  fun hlt => (extValue_lt_of_flt hlt).not_ge h

/-! ### Classify (R100) -/

section
variable {p : Config.Params} {x : Fp}

theorem classify_of_above (c : Bool) (h : flt (Fp.ofBits p.thHi) x = true) : classify p c x = true := by
  rw [classify, fgt_eq, if_pos h]

theorem classify_of_not_above (c : Bool) (h : ¬ flt (Fp.ofBits p.thHi) x = true) :
    classify p c x = if flt x (Fp.ofBits p.thLo) then false else c := by
  rw [classify, fgt_eq, if_neg h]

theorem classify_of_within (c : Bool) (hhi : ¬ flt (Fp.ofBits p.thHi) x = true)
    (hlo : ¬ flt x (Fp.ofBits p.thLo) = true) : classify p c x = c := by
  rw [classify_of_not_above c hhi, if_neg hlo]

/-- Low to high only above TH_HI. -/
theorem above_of_classify_low (h : classify p false x = true) : flt (Fp.ofBits p.thHi) x = true := by
  by_contra hhi
  rw [classify_of_not_above false hhi, ite_self] at h
  cases h

/-- High to low only below TH_LO. -/
theorem below_of_classify_high (h : classify p true x = false) : flt x (Fp.ofBits p.thLo) = true := by
  by_contra hlo
  by_cases hhi : flt (Fp.ofBits p.thHi) x = true
  · cases (classify_of_above true hhi).symm.trans h
  · cases (classify_of_within true hhi hlo).symm.trans h

/-- TH_LO < TH_HI (00_scope.md R8). -/
theorem legalParams_thresholds (h : legalParams p = true) :
    extValue (Fp.ofBits p.thLo) < extValue (Fp.ofBits p.thHi) := by
  simp only [legalParams, Bool.and_eq_true, and_assoc] at h
  obtain ⟨-, -, hlt, -⟩ := h
  exact extValue_lt_of_flt hlt

end

/-- Settles O21: the thresholds are in order, so an input is on the far side of one of them at most, and one that
equals a threshold, or is no number, is on the far side of neither. -/
theorem classifyHysteresis : Obligations.ClassifyHysteresis := by
  intro p c x hp lo hi
  have hlohi : extValue lo < extValue hi := legalParams_thresholds hp
  refine ⟨classify_of_above c, ?_, ?_, ?_, ?_, ?_, by decide⟩
  · intro hlo
    have hhi : ¬ flt hi x = true := not_flt_of_extValue_le ((extValue_lt_of_flt hlo).trans hlohi).le
    rw [classify_of_not_above c hhi, if_pos hlo]
  · intro hhi hlo
    exact classify_of_within c (Bool.eq_false_iff.mp hhi) (Bool.eq_false_iff.mp hlo)
  · intro hnan
    apply classify_of_within <;> simp [flt_iff, hnan]
  · intro hx
    have heq : extValue x = extValue hi := extValue_eq_of_feq hx
    exact classify_of_within c (not_flt_of_extValue_le heq.le) (not_flt_of_extValue_le (hlohi.le.trans heq.ge))
  · intro hx
    have heq : extValue x = extValue lo := extValue_eq_of_feq hx
    exact classify_of_within c (not_flt_of_extValue_le (heq.le.trans hlohi.le)) (not_flt_of_extValue_le heq.ge)

/-! ### Edges alternate (R109)

Rising and trailing are the edges to the levels high and low; what holds of one holds of the other. -/

/-- The edge flag of R28 for an edge to level `b`. -/
def edgeTo : Bool → EdState → Bool
  | true  => EdState.rising
  | false => EdState.trailing

theorem edgeTo_iff (b : Bool) (e : EdState) : edgeTo b e = true ↔ e.prev = (!b) ∧ e.cur = b := by
  cases b <;> simp [edgeTo, EdState.rising, EdState.trailing]

theorem anyEdge_eq (e : EdState) : e.anyEdge = (e.prev != e.cur) := by
  cases hp : e.prev <;> cases hc : e.cur <;> simp [EdState.anyEdge, EdState.rising, EdState.trailing, hp, hc]

/-- `e'` is a later sample of the detector `e`: its previous classification is the one `e` has. -/
def Follows (e e' : EdState) : Prop := e'.prev = e.cur

theorem follows_edFeed (p : Config.Params) {e : EdState} (x : Fp) (h : e.armed = true) : Follows e (edFeed p e x) := by
  rw [Follows, edFeed_prev, if_pos h]

/-- From the first set on, each state of a detector follows the one before it. -/
theorem edTrace_isChain (p : Config.Params) (e : EdState) (xs : List Fp) : (edTrace p e xs).IsChain Follows := by
  induction xs generalizing e with
  | nil => exact .nil
  | cons x xs ih =>
    cases xs with
    | nil => exact .singleton _
    | cons y ys => exact .cons_cons (follows_edFeed p y (edFeed_armed p e x)) (ih (edFeed p e x))

section
variable {t : List EdState} {b : Bool} {i j : Nat}

/-- The state at position `m` of a trace reports an edge to level `b`. -/
def EdgeAt (t : List EdState) (b : Bool) (m : Nat) : Prop := t[m]?.map (edgeTo b) = some true

theorem edgeAt_iff {m : Nat} : EdgeAt t b m ↔ ∃ e, t[m]? = some e ∧ e.prev = (!b) ∧ e.cur = b := by
  simp only [EdgeAt, Option.map_eq_some_iff, edgeTo_iff]

/-- A level that is `b` after one sample and not `b` before a later one changed between them. -/
theorem exists_edge_of_levels (ht : t.IsChain Follows) {e e' : EdState} (hij : i < j) (hi : t[i]? = some e)
    (hj : t[j]? = some e') (hcur : e.cur = b) (hprev : e'.prev = (!b)) :
    ∃ m, i < m ∧ m < j ∧ EdgeAt t (!b) m := by
  induction j generalizing e' with
  | zero => omega
  | succ k ih =>
    obtain ⟨hlen, rfl⟩ := List.getElem?_eq_some_iff.mp hj
    have hk : t[k]? = some t[k] := List.getElem?_eq_getElem (by omega)
    have hcurk : t[k].cur = (!b) := (List.isChain_iff_getElem.mp ht k hlen).symm.trans hprev
    have hik : i < k := by
      refine lt_of_le_of_ne (by omega) ?_
      rintro rfl
      cases hi.symm.trans hk
      simp [hcur] at hcurk
    by_cases hedge : t[k].prev = b
    · exact ⟨k, hik, by omega, edgeAt_iff.mpr ⟨_, hk, by simpa using hedge, hcurk⟩⟩
    · obtain ⟨m, him, hmk, hm⟩ := ih hik hk (Bool.eq_not_of_ne hedge)
      exact ⟨m, him, by omega, hm⟩

/-- Between two edges to one level lies an edge to the other. -/
theorem exists_edge_between (ht : t.IsChain Follows) (hij : i < j) (hi : EdgeAt t b i) (hj : EdgeAt t b j) :
    ∃ m, i < m ∧ m < j ∧ EdgeAt t (!b) m := by
  obtain ⟨e, he, -, hcur⟩ := edgeAt_iff.mp hi
  obtain ⟨e', he', hprev, -⟩ := edgeAt_iff.mp hj
  exact exists_edge_of_levels ht hij he he' hcur hprev

/-- Between two successive edges to one level lies exactly one edge to the other: of two, the first would have an edge
to the level in between it and the second. -/
theorem existsUnique_edge_between (ht : t.IsChain Follows) (hij : i < j) (hi : EdgeAt t b i) (hj : EdgeAt t b j)
    (hnone : ∀ m, i < m → m < j → ¬ EdgeAt t b m) : ∃! m, i < m ∧ m < j ∧ EdgeAt t (!b) m := by
  have hle : ∀ m m', i < m → m' < j → EdgeAt t (!b) m → EdgeAt t (!b) m' → m' ≤ m := by
    intro m m' him hmj hm hm'
    by_contra hlt
    obtain ⟨n, hmn, hnm, hn⟩ := exists_edge_between ht (by omega) hm hm'
    exact hnone n (by omega) (by omega) (Bool.not_not b ▸ hn)
  obtain ⟨m, him, hmj, hm⟩ := exists_edge_between ht hij hi hj
  refine ⟨m, ⟨him, hmj, hm⟩, ?_⟩
  rintro m' ⟨him', hmj', hm'⟩
  exact le_antisymm (hle m m' him hmj' hm hm') (hle m' m him' hmj hm' hm)

end

/-- Settles O26: the crossings are those of `classify`; the two halves of the alternation are one fact about the
levels of a trace. -/
theorem schmittTrigger : Obligations.SchmittTrigger := by
  refine ⟨fun p e x harmed => ⟨?_, ?_, ?_⟩, ?_, ?_⟩
  · intro hlow h
    rw [edFeed_cur, hlow] at h
    exact above_of_classify_low h
  · intro hhigh h
    rw [edFeed_cur, hhigh] at h
    exact below_of_classify_high h
  · intro hlo hhi
    have hhold : (edFeed p e x).cur = e.cur := by
      rw [edFeed_cur]
      exact classify_of_within _ (not_flt_of_extValue_le (extValue_le_of_fle hhi))
        (not_flt_of_extValue_le (extValue_le_of_fle hlo))
    refine ⟨hhold, ?_⟩
    rw [anyEdge_eq, hhold, follows_edFeed p x harmed, bne_self_eq_false]
  · intro p e xs i j hij hi hj hnone
    exact existsUnique_edge_between (b := true) (edTrace_isChain p e xs) hij hi hj hnone
  · intro p e xs i j hij hi hj hnone
    exact existsUnique_edge_between (b := false) (edTrace_isChain p e xs) hij hi hj hnone

/-! ### What a command answers on a unit that is there -/

section
variable {u : UnitClass} {α : Type} (U : Instances u α) {i : Instr} {k : Byte} {s : State} {x : α}

/-- A command that returns no words changes the addressed unit, and nothing else. -/
theorem on_silent {g : α → α} (h : (U.get s)[k.toNat]? = some x) :
    U.on i k s (fun x => (g x, [])) = .next (U.put s ((U.get s).set k.toNat (g x))) := by
  rw [U.on_some i k s _ x h, pushResults_nil]

/-- A read of a word that is there returns it, and changes nothing else. -/
theorem read_word {f : α → Option Word} {v : Word} (h : (U.get s)[k.toNat]? = some x) (hf : f x = some v) :
    U.read i k s f = .next { s with results := s.results ++ [v] } := by
  rw [U.read_some i k s f x h, hf, returnWord_some]
  rfl

end

/-! ### The commands of class 1 (R103 to R108) -/

/-- EdSet, field by field (R101): the first set after a reset takes the new classification as the previous one too. -/
theorem edFeed_eq (p : Config.Params) (e : EdState) (x : Fp) :
    edFeed p e x =
      { cur := classify p e.cur x, prev := if e.armed then e.cur else classify p e.cur x, armed := true } := by
  cases harmed : e.armed <;> simp [edFeed, harmed]

/-- The FLAGS register is the three flags, each in its bit (10_state.md R42). -/
theorem flagsWord_eq_flagsOf (e : EdState) : e.flagsWord = flagsOf e := by
  obtain ⟨cur, prev, armed⟩ := e
  cases prev <;> cases cur <;> simp [EdState.flagsWord, flagsOf, EdState.anyEdge, EdState.rising, EdState.trailing]

/-- Settles O22: ED.SET feeds the addressed detector. -/
theorem edSetResult : Obligations.EdSetResult := by
  intro s k x e hk
  have hexec : exec (.edSet k x) s = .next { s with eds := s.eds.set k.toNat (edFeed s.params e (operandF x)) } :=
    on_silent edInstances hk
  rw [hexec, edFeed_eq]
  rfl

/-- Settles O23: ED.RESET clears the addressed detector. -/
theorem edResetResult : Obligations.EdResetResult := by
  intro s k e hk
  exact on_silent edInstances hk

/-- Settles O24: each query returns its flag as a word. -/
theorem edQueriesReturnFlags : Obligations.EdQueriesReturnFlags := by
  intro s k e hk
  refine ⟨read_word edInstances hk ?_, read_word edInstances hk ?_, read_word edInstances hk ?_⟩
  · simp [resultB, EdState.rising]
  · simp [resultB, EdState.trailing]
  · simp [resultB]

/-- Settles O25: each listed register is read from the addressed detector. -/
theorem edGetResult : Obligations.EdGetResult := by
  intro s k e hk row hrow
  simp only [List.mem_cons, List.not_mem_nil, or_false] at hrow
  apply read_word edInstances hk
  rcases hrow with rfl | rfl | rfl | rfl
  · rfl
  · rfl
  · rfl
  · exact congrArg some (flagsWord_eq_flagsOf e)

end Sys2Proof.Proofs

/-! PROOFS. The BandLimitedOscillator (42_oscillator.md). The advance and the wrap on magnitudes, of which the events
and their offsets follow; the residual and its insertion; what a sample is when nothing advances; what the commands on
an oscillator answer; and parameters for which an output is not finite. -/

namespace Sys2Proof.Proofs

open Sys2Proof Sys2Proof.Machine Sys2Proof.Laws

/-! ### Results that are exact -/

theorem finOrInf_of_lt (n : Bool) {m : Nat} (hlt : m < overflowMag) : finOrInf n m = .fin n m := if_neg hlt.not_ge

/-- A product that binary32 holds is not rounded. -/
theorem fmul_exact (n m : Bool) {x y z : Nat} (hxy : x * y = z * unitMag) (hz : representable z = true)
    (hlt : z < overflowMag) : fmul (.fin n x) (.fin m y) = .fin (n ^^ m) z := by
  have hround := roundRatio_exact z unitMag (Nat.two_pow_pos 149) hz
  rw [fmul_fin, hxy, hround, finOrInf_of_lt _ hlt]

/-! ### The magnitudes of a sample (R120, R121; 00_scope.md R9) -/

/-- The greatest representable magnitude below a power of two has 24 one bits. -/
theorem le_of_representable_of_lt_two_pow (m s : Nat) (hm : representable m = true) (hlt : m < 2 ^ 24 * 2 ^ s) :
    m ≤ (2 ^ 24 - 1) * 2 ^ s := by
  rcases representable_le_or_ge m (2 ^ 24 - 1) s hm fun _ => by decide with hle | hge
  · exact hle
  · exact absurd hge (by simpa using hlt)

/-- The largest increment below 0.5. -/
def maxIncMag : Nat := (2 ^ 24 - 1) * 2 ^ 124

/-- INC_MAX is a binary32 datum below 0.5, so a clamped increment is at most the largest of those. -/
theorem clampInc_le (p : Config.Params) (x : Fp) (hp : legalParams p = true) :
    ∃ b, clampInc p x = .fin false b ∧ b ≤ maxIncMag := by
  obtain ⟨m, hm, hlt⟩ := legalParams_incMax p hp
  obtain ⟨hrep, -⟩ := ofBits_fin p.incMax false m hm
  have hmax : m ≤ maxIncMag := le_of_representable_of_lt_two_pow m 124 hrep (by omega)
  unfold clampInc fmin
  rw [hm]
  split
  next hpos =>
    split
    next hx =>
      obtain ⟨b, rfl, hb⟩ := fin_of_pos_of_flt x m hpos hx
      exact ⟨b, rfl, by omega⟩
    next => exact ⟨m, rfl, hmax⟩
  next => exact ⟨0, rfl, Nat.zero_le _⟩

theorem unitMag_eq_two_halves : unitMag = 2 * 2 ^ 148 := by decide

/-- The largest phase and the largest increment leave a sum nearer to the last datum below 1.5 than to 1.5. -/
theorem roundRatio_advance_lt (a b : Nat) (hrep : representable a = true) (ha : a < unitMag) (hb : b ≤ maxIncMag) :
    roundRatio (a + b) 1 < 3 * 2 ^ 148 := by
  have hunit := unitMag_eq_two_halves
  have hamax : a ≤ (2 ^ 24 - 1) * 2 ^ 125 := le_of_representable_of_lt_two_pow a 125 hrep (by omega)
  have hnear := (roundRatio_nearest_even (a + b) 1 ((3 * 2 ^ 22 - 1) * 2 ^ 126) (by decide)
    (representable_mul_pow _ _ (by decide))).1
  unfold maxIncMag at hb
  rw [roundingError_eq, roundingError_eq] at hnear
  omega

/-- From a phase below 0.5 no increment reaches 1, even when the sum is rounded up. -/
theorem roundRatio_advance_lt_one (a b : Nat) (hrep : representable a = true) (ha : a < 2 ^ 148)
    (hb : b ≤ maxIncMag) : roundRatio (a + b) 1 < unitMag := by
  have hunit := unitMag_eq_two_halves
  have hamax : a ≤ (2 ^ 24 - 1) * 2 ^ 124 := le_of_representable_of_lt_two_pow a 124 hrep (by omega)
  unfold maxIncMag at hb
  have hle : roundRatio (a + b) 1 ≤ (2 ^ 24 - 1) * 2 ^ 125 :=
    roundRatio_le _ _ _ (by decide) (representable_mul_pow _ _ (by decide)) (by omega)
  omega

/-- The advance of R121, on magnitudes. -/
theorem exists_advance (p : Config.Params) (w : Word) (x : Fp) (hp : legalParams p = true)
    (hw : unitPhase w = true) :
    ∃ a b, Fp.ofBits w = .fin false a ∧ clampInc p x = .fin false b ∧ representable a = true ∧ a < unitMag ∧
      b ≤ maxIncMag ∧ fadd (.fin false a) (.fin false b) = .fin false (roundRatio (a + b) 1) := by
  obtain ⟨a, ha, hau⟩ := (unitPhase_iff w).mp hw
  obtain ⟨b, hb, hbmax⟩ := clampInc_le p x hp
  obtain ⟨hrep, -⟩ := ofBits_fin w false a ha
  exact ⟨a, b, ha, hb, hrep, hau, hbmax, fadd_advance a b hau (hbmax.trans_lt (by decide))⟩

/-- The wrap takes 1 exactly from a datum in [1, 2). -/
theorem oscWrap_fin_eq (m : Nat) (hm : representable m = true) (h : m < 2 * unitMag) :
    oscWrap (.fin false m) = .fin false (if unitMag ≤ m then m - unitMag else m) := by
  unfold oscWrap
  rw [oscWrapped_fin]
  split
  next hwrap =>
    have hle : unitMag ≤ m := of_decide_eq_true hwrap
    rw [if_pos hle]
    exact fsub_exact m unitMag hle (representable_sub_two_pow m 149 hm hle h)
      (lt_trans (by omega) unitMag_lt_overflowMag)
  next hwrap => rw [if_neg (by simpa using hwrap)]

/-- Settles O31: the sum is below 1.5, so what the wrap leaves is below 1. -/
theorem wrapIsExact : Obligations.WrapIsExact := by
  intro p w x hp hw
  obtain ⟨a, b, ha, hb, hrep, hau, hbmax, hsum⟩ := exists_advance p w x hp hw
  have hunit := unitMag_eq_two_halves
  have hlt := roundRatio_advance_lt a b hrep hau hbmax
  rw [ha, hb, hsum]
  refine ⟨_, rfl, by omega, oscWrap_fin_eq _ (roundRatio_representable _ _ (by decide)) (by omega), ?_⟩
  split <;> omega

/-! ### Discontinuities (R122, R123, R134) -/

theorem flt_fpHalf_fin (m : Nat) : flt (.fin false m) fpHalf = decide (m < 2 ^ 148) := by
  simp only [fpHalf, flt_fin, signedMag_false, Nat.cast_lt]

/-- Settles O32: a wrap needs a phase of at least 0.5, and leaves one below 0.5. -/
theorem oneDiscontinuityPerSample : Obligations.OneDiscontinuityPerSample := by
  intro p w x hp hw s hwrapped
  obtain ⟨a, b, ha, hb, hrep, hau, hbmax, hsum⟩ := exists_advance p w x hp hw
  have hs : s = .fin false (roundRatio (a + b) 1) := by rw [← hsum, ← ha, ← hb]
  have hunit := unitMag_eq_two_halves
  have hlt := roundRatio_advance_lt a b hrep hau hbmax
  have hone : unitMag ≤ roundRatio (a + b) 1 := by simpa [hs] using hwrapped
  constructor
  · rw [ha, flt_fpHalf_fin, decide_eq_false_iff_not]
    intro hhalf
    exact absurd hone (roundRatio_advance_lt_one a b hrep hhalf hbmax).not_ge
  · rw [hs, oscWrap_fin_eq _ (roundRatio_representable _ _ (by decide)) (by omega), if_pos hone, naiveSquare,
      flt_fpHalf_fin, if_pos (decide_eq_true (by omega))]

/-- A phase that stays meets no discontinuity. -/
theorem oscEvent_self (a : Nat) (ha : a < unitMag) : oscEvent (.fin false a) (.fin false a) = .none := by
  cases h : oscEvent (.fin false a) (.fin false a) with
  | wrap => exact absurd (oscEvent_wrap a a h) ha.not_ge
  | half =>
    obtain ⟨-, hbelow, habove⟩ := oscEvent_half a a h
    exact absurd habove hbelow.not_ge
  | none => rfl

/-- An event implies a positive increment. -/
theorem increment_pos_of_event (a b : Nat) (hrep : representable a = true) (ha : a < unitMag)
    (h : oscEvent (.fin false a) (.fin false (roundRatio (a + b) 1)) ≠ .none) : flt fpZero (.fin false b) = true := by
  have hb : b ≠ 0 := by
    rintro rfl
    rw [Nat.add_zero, roundRatio_one a hrep] at h
    exact h (oscEvent_self a ha)
  rw [fpZero, flt_fin, signedMag_false, signedMag_false]
  exact decide_eq_true (by omega)

theorem fle_zero_and_fle_one_of_le (d : Nat) (hd : d ≤ unitMag) :
    fle fpZero (.fin false d) = true ∧ fle (.fin false d) fpOne = true := by
  simpa [fpZero, fpOne] using hd

/-- Settles O33: the increment of an event is positive, so the offset is a quotient held to [0, 1]. -/
theorem offsetWithinSample : Obligations.OffsetWithinSample := by
  intro p w x hp hw inc s within
  obtain ⟨a, b, ha, hb, hrep, hau, hbmax, hsum⟩ := exists_advance p w x hp hw
  have hs : s = .fin false (roundRatio (a + b) 1) := by rw [← hsum, ← ha, ← hb]
  have hinc : inc = .fin false b := hb
  have hwithin : ∀ num d, oscEvent (.fin false a) s ≠ .none → subSample num (.fin false b) = .fin false d →
      d ≤ unitMag → within num := by
    intro num d hevent hd hle
    simp only [within, hinc, hd]
    exact ⟨increment_pos_of_event a b hrep hau (hs ▸ hevent), fle_zero_and_fle_one_of_le d hle⟩
  rw [ha]
  constructor
  · intro hevent
    obtain ⟨d, hd, hle⟩ := wrap_offset a b hrep hau (hbmax.trans_lt (by decide)) (hs ▸ hevent)
    exact hwithin _ d (by simp [hevent]) (hs ▸ hd) hle
  · intro hevent
    obtain ⟨d, hd, hle⟩ := half_offset a b hrep (hs ▸ hevent)
    exact hwithin _ d (by simp [hevent]) (hs ▸ hd) hle

/-! ### The naive values (R126, R136) -/

theorem fadd_zero_fin (n : Bool) (r : Nat) (hrep : representable r = true) (hlt : r < overflowMag)
    (hne : Fp.fin n r ≠ .fin true 0) : fadd (.fin n r) fpZero = .fin n r := by
  rw [fpZero, fadd_fin, signedMag_false, Nat.cast_zero, Int.add_zero]
  split
  next hzero =>
    have hr : r = 0 := by simpa using congrArg Int.natAbs hzero
    subst hr
    cases n with
    | false => rfl
    | true => exact absurd rfl hne
  next hnz =>
    rw [natAbs_signedMag, roundRatio_one r hrep, finOrInf_of_lt _ hlt]
    congr 1
    cases n with
    | false => exact decide_eq_false (by rw [signedMag_false]; omega)
    | true =>
      rw [signedMag_true] at hnz ⊢
      exact decide_eq_true (by omega)

theorem naiveSquare_ne_negZero (x : Fp) : naiveSquare x ≠ .fin true 0 := by
  unfold naiveSquare
  split <;> decide

theorem fadd_naiveSquare_zero (x : Fp) : fadd (naiveSquare x) fpZero = naiveSquare x := by
  unfold naiveSquare
  split <;> exact fadd_zero_fin _ _ (by decide) (by decide) (by decide)

/-- Doubling a phase is exact. -/
theorem fmul_fpTwo_fin (a : Nat) (hrep : representable a = true) (ha : a < unitMag) :
    fmul fpTwo (.fin false a) = .fin false (2 * a) := by
  have hdouble : representable (2 * a) = true := by
    obtain ⟨n, s, hn, rfl⟩ := exists_mul_pow_of_representable a hrep
    rw [show 2 * (n * 2 ^ s) = n * 2 ^ (s + 1) by ring]
    exact representable_mul_pow n _ hn
  have hscaled : 2 ^ 150 * a = 2 * a * unitMag := by
    rw [unitMag]
    ring
  have hmax : 2 * unitMag < overflowMag := by decide
  exact fmul_exact false false hscaled hdouble (by omega)

/-- The naive saw value is finite and not -0: an exact zero difference of two positive data is +0. -/
theorem naiveSaw_fin (a : Nat) (hrep : representable a = true) (ha : a < unitMag) :
    ∃ n r, naiveSaw (.fin false a) = .fin n r ∧ representable r = true ∧ r < overflowMag ∧
      Fp.fin n r ≠ .fin true 0 := by
  rw [naiveSaw, fmul_fpTwo_fin a hrep ha, fpOne, fsub_fin, Bool.not_false, signedMag_false, signedMag_true]
  have hle : ((2 * a : Nat) + -(unitMag : Int)).natAbs ≤ unitMag := by omega
  split
  next => exact ⟨false, 0, rfl, representable_zero, by decide, by decide⟩
  next hnz =>
    generalize ((2 * a : Nat) + -(unitMag : Int)) = v at *
    have hhigh : roundRatio v.natAbs 1 ≤ unitMag :=
      roundRatio_le _ _ _ (by decide) (representable_pow 149) (by omega)
    have hlow : 1 ≤ roundRatio v.natAbs 1 := le_roundRatio _ _ _ (by decide) (representable_pow 0) (by omega)
    have hlt := hhigh.trans_lt unitMag_lt_overflowMag
    refine ⟨decide (v < 0), roundRatio v.natAbs 1, finOrInf_of_lt _ hlt,
      roundRatio_representable _ _ (by decide), hlt, fun h => ?_⟩
    have hzero : roundRatio v.natAbs 1 = 0 := (Fp.fin.inj h).2
    omega

theorem fadd_naiveSaw_zero (a : Nat) (hrep : representable a = true) (ha : a < unitMag) :
    fadd (naiveSaw (.fin false a)) fpZero = naiveSaw (.fin false a) := by
  obtain ⟨n, r, hsaw, hr, hlt, hne⟩ := naiveSaw_fin a hrep ha
  rw [hsaw]
  exact fadd_zero_fin n r hr hlt hne

/-- Only the pattern of -0.0 stands for it. -/
theorem ofBits_ne_negZero (v : Word) (hv : v ≠ 0x80000000#32) : Fp.ofBits v ≠ .fin true 0 := by
  intro h
  have hbits := bitPatternsRoundTrip v
  rw [h] at hbits
  exact hv (hbits.symm.trans (by decide))

/-- Settles O37: +0.0 is the neutral element of every datum but -0.0, which neither naive value is. -/
theorem naiveMatchWithoutCorrection : Obligations.NaiveMatchWithoutCorrection := by
  intro p w hw
  obtain ⟨a, ha, hau⟩ := (unitPhase_iff w).mp hw
  obtain ⟨hrep, -⟩ := ofBits_fin w false a ha
  rw [ha]
  refine ⟨?_, ?_, naiveSquare_ne_negZero _, ?_, fun v hv => ?_⟩
  · rw [oscOutput, fadd_naiveSquare_zero]
  · rw [oscOutput, fadd_naiveSaw_zero a hrep hau]
  · obtain ⟨n, r, hsaw, -, -, hne⟩ := naiveSaw_fin a hrep hau
    rwa [hsaw]
  · have hne := ofBits_ne_negZero v hv
    cases hd : Fp.ofBits v with
    | nan bits => rfl
    | inf n => rfl
    | fin n r =>
      obtain ⟨hr, hlt⟩ := ofBits_fin v n r hd
      exact fadd_zero_fin n r hr hlt (hd ▸ hne)

/-! ### BlepInsert (R125) -/

/-- The read index after j samples (R127). -/
theorem iterate_ringNext (p : Config.Params) (rd j : Nat) (hrd : rd < p.win) :
    Nat.iterate (ringNext p) j rd = (rd + j) % p.win := by
  induction j with
  | zero => exact (Nat.mod_eq_of_lt hrd).symm
  | succ j ih => rw [Function.iterate_succ_apply', ih, ringNext, Nat.mod_add_mod, Nat.add_assoc]

/-- Settles O35: each turn of the loop meets its own entry, the one that is read after as many samples. -/
theorem blepInsertAddsOneTermPerEntry : Obligations.BlepInsertAddsOneTermPerEntry := by
  intro p ring rd d jump hlen hrd
  refine ⟨(blepInsert_length p ring rd d jump).trans hlen, fun j hj => ⟨?_, iterate_ringNext p rd j hrd⟩⟩
  exact blepInsert_getElem? p ring rd d jump j hj

/-! ### The residual (R124; 00_scope.md R11) -/

/-- The whole number below a finite datum, as a multiple of 1 with the datum's sign. -/
theorem ffloor_fin (n : Bool) (m : Nat) :
    ∃ q, ffloor (.fin n m) = .fin n (q * unitMag) ∧ signedMag n q = signedMag n m / (unitMag : Int) := by
  cases n with
  | false =>
    refine ⟨m / unitMag, by rw [ffloor], ?_⟩
    rw [signedMag_false, signedMag_false, Int.natCast_ediv]
  | true =>
    refine ⟨(m + unitMag - 1) / unitMag, by rw [ffloor], ?_⟩
    rw [signedMag_true, signedMag_true, neg_ediv_eq_neg_ceil m unitMag (Nat.two_pow_pos 149)]

/-- The floor of a finite datum, clamped to [0, hi], is that of its exact value. -/
theorem floorClamped_eq (n : Bool) (m hi : Nat) :
    floorClamped (.fin n m) hi = (clampI (signedMag n m / (unitMag : Int)) 0 hi).toNat := by
  obtain ⟨q, hfloor, hq⟩ := ffloor_fin n m
  have hdiv : q * unitMag / unitMag = q := Nat.mul_div_cancel _ (Nat.two_pow_pos 149)
  rw [floorClamped, hfloor, ← hq]
  simp only [hdiv]

theorem tableEntry_listed (p : Config.Params) (ws : List Word) (k : Nat) (w : Word) (hp : p.table = .listed ws)
    (hw : ws[k]? = some w) : tableEntry p k = Fp.ofBits w := by
  simp only [tableEntry, hp, List.getD_eq_getElem?_getD, hw, Option.getD_some]

theorem legalParams_table (p : Config.Params) (hp : legalParams p = true) : legalTable p = true := by
  simp only [legalParams, Bool.and_eq_true] at hp
  tauto

/-- The entries of a legal listed table (R11). -/
theorem legalTable_listed (p : Config.Params) (ws : List Word) (hp : p.table = .listed ws)
    (h : legalTable p = true) :
    ws.length = p.win * p.oversamp + 1 ∧ (∀ w ∈ ws, finiteWord w = true) ∧
      zeroWord (ws.getD (p.win * p.oversamp) 0x00000000#32) = true := by
  simpa only [legalTable, hp, Bool.and_eq_true, beq_iff_eq, List.all_eq_true, and_assoc] using h

/-- Every entry of a legal table is finite. -/
theorem tableEntry_finite (p : Config.Params) (k : Nat) (hp : legalParams p = true)
    (hk : k ≤ p.win * p.oversamp) : isfinite (tableEntry p k) = true := by
  cases htable : p.table with
  | unspecified => exact isfinite_of_magAtMost _ _ (tableEntry_open_magAtMost p htable k)
  | listed ws =>
    obtain ⟨hlen, hfinite, -⟩ := legalTable_listed p ws htable (legalParams_table p hp)
    rw [tableEntry_listed p ws k _ htable (List.getElem?_eq_getElem (by omega))]
    exact hfinite _ (List.getElem_mem _)

/-- The last entry of a legal table is zero. -/
theorem tableEntry_last (p : Config.Params) (hp : legalParams p = true) :
    feq (tableEntry p (p.win * p.oversamp)) fpZero = true := by
  cases htable : p.table with
  | unspecified =>
    simp only [tableEntry, htable, lt_irrefl, if_false]
    decide
  | listed ws =>
    obtain ⟨-, -, hlast⟩ := legalTable_listed p ws htable (legalParams_table p hp)
    simpa only [tableEntry, htable, zeroWord] using hlast

/-- ResE with its table index in the words of R124. -/
theorem resE_of_fin (p : Config.Params) (t : Fp) (n : Bool) (m : Nat) (h : fmul t (itof p.oversamp) = .fin n m) :
    resE p t =
      let i := (clampI (signedMag n m / (unitMag : Int)) 0 (p.win * p.oversamp - 1 : Nat)).toNat
      fadd (tableEntry p i) (fmul (fsub (.fin n m) (itof i)) (fsub (tableEntry p (i + 1)) (tableEntry p i))) := by
  simp only [resE, h, floorClamped_eq]

/-! ### ResE at the window's end -/

theorem fmul_fpOne_fin (n : Bool) (b : Nat) (hb : representable b = true) (hlt : b < overflowMag) :
    fmul fpOne (.fin n b) = .fin n b := by
  rw [fpOne, fmul_exact false n (Nat.mul_comm unitMag b) hb hlt, Bool.false_xor]

/-- Going from a datum to a zero goes back by its whole magnitude. -/
theorem fsub_from_zero (z n : Bool) (b : Nat) (hb : representable b = true) (hlt : b < overflowMag) :
    ∃ m, fsub (.fin z 0) (.fin n b) = .fin m b ∧ signedMag m b = -signedMag n b := by
  rw [fsub_fin_exact]
  have hz : signedMag z 0 = 0 := by cases z <;> rfl
  rw [hz, Int.zero_sub]
  split
  next hzero =>
    have hb0 : b = 0 := by simpa using congrArg Int.natAbs hzero
    subst hb0
    exact ⟨_, rfl, by cases n <;> cases z <;> rfl⟩
  next hnz =>
    rw [Int.natAbs_neg, natAbs_signedMag, roundedOnce_eq, roundRatio_one b hb, finOrInf_of_lt _ hlt]
    refine ⟨_, rfl, ?_⟩
    cases n with
    | false =>
      rw [signedMag_false] at hnz ⊢
      rw [decide_eq_true (by omega), signedMag_true]
    | true => rw [signedMag_true, Int.neg_neg, decide_eq_false (by omega), signedMag_false]

theorem feq_fpZero_fin (n : Bool) (b : Nat) : feq (.fin n b) fpZero = true ↔ b = 0 := by
  cases n <;> simp [feq, fpZero]

/-- Every entry of a legal table is a datum that binary32 holds. -/
theorem tableEntry_fin (p : Config.Params) (k : Nat) (hp : legalParams p = true) (hk : k ≤ p.win * p.oversamp) :
    ∃ n b, tableEntry p k = .fin n b ∧ representable b = true ∧ b < overflowMag := by
  have hfinite := tableEntry_finite p k hp hk
  obtain ⟨w, hw⟩ : ∃ w, tableEntry p k = Fp.ofBits w := by
    unfold tableEntry
    split
    · split
      · exact ⟨_, rfl⟩
      · exact ⟨0x00000000#32, ofBits_zero.symm⟩
    · exact ⟨_, rfl⟩
  rw [hw] at hfinite ⊢
  cases h : Fp.ofBits w with
  | nan bits => simp [h, isfinite] at hfinite
  | inf n => simp [h, isfinite] at hfinite
  | fin n b => exact ⟨n, b, rfl, ofBits_fin w n b h⟩

/-- The table position of the window's end is L*O. -/
theorem fmul_itof_itof (l o : Nat) (hl : l ≤ 64) (ho : o ≤ 255) : fmul (itof l) (itof o) = itof (l * o) := by
  have hlo : l * o ≤ 64 * 255 := Nat.mul_le_mul hl ho
  have hlt : l * o * unitMag < overflowMag := (Nat.mul_le_mul_right _ hlo).trans_lt (by decide)
  have hprod : l * unitMag * (o * unitMag) = l * o * unitMag * unitMag := by ring
  exact fmul_exact false false hprod (representable_mul_pow (l * o) 149 (by omega)) hlt

/-- The index there is clamped to the last interval. -/
theorem floorClamped_itof_pred (n : Nat) : floorClamped (itof n) (n - 1) = n - 1 := by
  have hdiv : n * unitMag / unitMag = n := Nat.mul_div_cancel _ (Nat.two_pow_pos 149)
  rw [itof, floorClamped_fin, hdiv]
  omega

/-- The weight in that interval is 1. -/
theorem fsub_itof_pred (n : Nat) (hn : 1 ≤ n) : fsub (itof n) (itof (n - 1)) = fpOne := by
  have hgap : n * unitMag - (n - 1) * unitMag = unitMag := by
    rw [← Nat.sub_mul, Nat.sub_sub_self hn, Nat.one_mul]
  have hexact := fsub_exact (n * unitMag) ((n - 1) * unitMag) (Nat.mul_le_mul_right _ (Nat.sub_le n 1))
  rw [hgap] at hexact
  exact hexact (representable_pow 149) unitMag_lt_overflowMag

/-- At the window's end ResE goes the whole way from the last but one entry to the last, which is zero. -/
theorem resE_window_end (p : Config.Params) (hp : legalParams p = true) : feq (resE p (itof p.win)) fpZero = true := by
  obtain ⟨hwin, hwin'⟩ := legalParams_win p hp
  obtain ⟨hover, hover'⟩ := legalParams_oversamp p hp
  have hlen : 1 ≤ p.win * p.oversamp := Nat.mul_pos hwin hover
  have hlast := tableEntry_last p hp
  obtain ⟨n, b, hentry, hb, hlt⟩ := tableEntry_fin p (p.win * p.oversamp - 1) hp (by omega)
  obtain ⟨z, c, hzero, -, -⟩ := tableEntry_fin p (p.win * p.oversamp) hp le_rfl
  obtain rfl : c = 0 := (feq_fpZero_fin z c).mp (hzero ▸ hlast)
  obtain ⟨m, hdiff, hneg⟩ := fsub_from_zero z n b hb hlt
  simp only [resE, fmul_itof_itof p.win p.oversamp hwin' hover', floorClamped_itof_pred, fsub_itof_pred _ hlen,
    Nat.sub_add_cancel hlen, hentry, hzero, hdiff, fmul_fpOne_fin m b hb hlt]
  rw [fadd_fin, hneg, Int.add_right_neg, if_pos rfl]
  exact (feq_fpZero_fin _ 0).mpr rfl

/-- Settles O34: the index is the clamped floor, whatever the sign of t; and the last entry is zero. -/
theorem residualEndsAtZero : Obligations.ResidualEndsAtZero := by
  refine ⟨resE_window_end, ?_, fun p ws k w => tableEntry_listed p ws k w,
    fun p hp => ⟨fun k hk => tableEntry_finite p k hp hk, tableEntry_last p hp⟩⟩
  intro p t n m hp hpf floor last i
  obtain ⟨hwin, -⟩ := legalParams_win p hp
  obtain ⟨hover, -⟩ := legalParams_oversamp p hp
  have hlast : ((p.win * p.oversamp - 1 : Nat) : Int) = last := by
    rw [Nat.cast_sub (Nat.mul_pos hwin hover), Nat.cast_mul, Nat.cast_one]
  rw [resE_of_fin p t n m hpf, hlast]
  rfl

/-! ### Zero frequency (R133) -/

theorem fadd_phase_zero (w : Word) (hw : unitPhase w = true) : fadd (Fp.ofBits w) fpZero = Fp.ofBits w := by
  obtain ⟨a, ha, -⟩ := (unitPhase_iff w).mp hw
  obtain ⟨hrep, hlt⟩ := ofBits_fin w false a ha
  rw [ha]
  exact fadd_zero_fin false a hrep hlt (by simp)

theorem oscWrap_phase (w : Word) (hw : unitPhase w = true) : oscWrap (Fp.ofBits w) = Fp.ofBits w := by
  obtain ⟨a, ha, hau⟩ := (unitPhase_iff w).mp hw
  obtain ⟨hrep, -⟩ := ofBits_fin w false a ha
  rw [ha, oscWrap_fin_eq a hrep (by omega), if_neg hau.not_ge]

theorem oscInsert_zero (p : Config.Params) (o : OscState) (ho : unitPhase o.phase = true) :
    oscInsert p o fpZero (Fp.ofBits o.phase) = o := by
  obtain ⟨a, ha, hau⟩ := (unitPhase_iff o.phase).mp ho
  refine oscInsert_none ?_
  rw [ha]
  exact oscEvent_self a hau

/-- A sample with a zero increment only consumes an entry of each ring. -/
theorem oscSample_zero (p : Config.Params) (o : OscState) (dt : Fp) (ho : unitPhase o.phase = true)
    (hinc : oscInc p o dt = fpZero) : (oscSample p o dt).1 = oscConsume p o := by
  rw [oscSample_eq, hinc, fadd_phase_zero o.phase ho, oscInsert_zero p o ho, oscWrap_phase o.phase ho,
    bitPatternsRoundTrip o.phase]
  rfl

/-- A run of such samples only consumes entries. -/
theorem oscRun_zero (p : Config.Params) (o : OscState) (dts : List Word) (ho : unitPhase o.phase = true)
    (hinc : ∀ x ∈ dts, oscInc p o (operandF x) = fpZero) : oscRun p o dts = (oscConsume p)^[dts.length] o := by
  induction dts generalizing o with
  | nil => rfl
  | cons dt dts ih =>
    rw [List.forall_mem_cons] at hinc
    obtain ⟨hdt, hdts⟩ := hinc
    rw [oscRun, List.foldl_cons, oscSample_zero p o _ ho hdt]
    exact ih (oscConsume p o) ho hdts

/-- A ring of L entries of which those read in the last n of the next L samples are empty. -/
def Drained (p : Config.Params) (n : Nat) (ring : List Word) (rd : Nat) : Prop :=
  ring.length = p.win ∧ rd < p.win ∧
    ∀ j, p.win - n ≤ j → j < p.win → ring[(rd + j) % p.win]? = some 0x00000000#32

theorem drained_zero {p : Config.Params} {ring : List Word} {rd : Nat} (hlen : ring.length = p.win)
    (hrd : rd < p.win) : Drained p 0 ring rd :=
  ⟨hlen, hrd, fun j hj hj' => absurd hj' (by omega)⟩

/-- The entry a sample consumes is the one that is read last from then on. -/
theorem drained_succ {p : Config.Params} {n : Nat} {ring : List Word} {rd : Nat} (h : Drained p n ring rd) :
    Drained p (n + 1) (ringCleared ring rd) (ringNext p rd) := by
  obtain ⟨hlen, hrd, hzero⟩ := h
  refine ⟨by rw [ringCleared, List.length_set, hlen], Nat.mod_lt _ (by omega), fun j hj hj' => ?_⟩
  have hindex : (ringNext p rd + j) % p.win = (rd + (j + 1)) % p.win := by
    rw [ringNext, Nat.mod_add_mod, Nat.add_assoc, Nat.add_comm 1]
  rw [hindex, ringCleared]
  rcases Nat.lt_or_ge (j + 1) p.win with hlt | hge
  · rw [List.getElem?_set]
    split
    next => rw [if_pos (by omega)]
    next => exact hzero (j + 1) (by omega) hlt
  · rw [show j + 1 = p.win by omega, Nat.add_mod_right, Nat.mod_eq_of_lt hrd, List.getElem?_set_self (by omega)]

/-- After L samples a ring is empty. -/
theorem eq_replicate_of_drained {p : Config.Params} {n : Nat} {ring : List Word} {rd : Nat} (hn : p.win ≤ n)
    (h : Drained p n ring rd) : ring = List.replicate p.win 0x00000000#32 := by
  obtain ⟨hlen, hrd, hzero⟩ := h
  rw [List.eq_replicate_iff]
  refine ⟨hlen, fun w hw => ?_⟩
  obtain ⟨k, hk, rfl⟩ := List.mem_iff_getElem.mp hw
  obtain ⟨j, hj, hindex⟩ := exists_ringIndex rd p.win k hrd (hlen ▸ hk)
  have hentry := hzero j (by omega) hj
  rw [hindex, List.getElem?_eq_getElem hk] at hentry
  exact Option.some.inj hentry

/-- n samples that only consume hold phase and frequency, and drain n entries of each ring. -/
theorem iterate_oscConsume (p : Config.Params) (o : OscState) (n : Nat) (ho : oscOk p o = true) :
    ((oscConsume p)^[n] o).phase = o.phase ∧ ((oscConsume p)^[n] o).freq = o.freq ∧
      Drained p n ((oscConsume p)^[n] o).bsq ((oscConsume p)^[n] o).psq ∧
      Drained p n ((oscConsume p)^[n] o).bsaw ((oscConsume p)^[n] o).psaw := by
  induction n with
  | zero =>
    obtain ⟨-, -, hbsq, hbsaw, heq, hlt⟩ := (oscOk_iff p o).mp ho
    exact ⟨rfl, rfl, drained_zero hbsq hlt, drained_zero hbsaw (heq ▸ hlt)⟩
  | succ n ih =>
    obtain ⟨hphase, hfreq, hbsq, hbsaw⟩ := ih
    rw [Function.iterate_succ_apply']
    exact ⟨hphase, hfreq, drained_succ hbsq, drained_succ hbsaw⟩

theorem ringHead_replicate (n rd : Nat) : ringHead (List.replicate n 0x00000000#32) rd = fpZero := by
  rw [ringHead, List.getD_eq_getElem?_getD, List.getElem?_replicate]
  split <;> exact ofBits_zero

/-- With a zero increment and empty rings the outputs are the scaled naive values of the phase. -/
theorem oscSample_words_zero (p : Config.Params) (o : OscState) (dt : Fp) (n : Nat) (ho : unitPhase o.phase = true)
    (hinc : oscInc p o dt = fpZero) (hbsq : o.bsq = List.replicate n 0x00000000#32)
    (hbsaw : o.bsaw = List.replicate n 0x00000000#32) :
    (oscSample p o dt).2 =
      [(fmul (Fp.ofBits p.oscScale) (naiveSquare (Fp.ofBits o.phase))).toBits,
       (fmul (Fp.ofBits p.oscScale) (naiveSaw (Fp.ofBits o.phase))).toBits] := by
  obtain ⟨hsquare, hsaw, -⟩ := naiveMatchWithoutCorrection p o.phase ho
  rw [oscSample_words, hinc, fadd_phase_zero o.phase ho, oscInsert_zero p o ho, oscWrap_phase o.phase ho, hbsq, hbsaw,
    ringHead_replicate, ringHead_replicate, hsquare, hsaw]
  rfl

/-- Settles O36: samples with a zero increment only consume, and L of them empty both rings. -/
theorem zeroIncrementHoldsAndDrains : Obligations.ZeroIncrementHoldsAndDrains := by
  intro p o dts dt _ ho hinc o'
  rw [List.forall_mem_cons] at hinc
  obtain ⟨hdt, hdts⟩ := hinc
  have hunit : unitPhase o.phase = true := ((oscOk_iff p o).mp ho).1
  obtain ⟨hphase, hfreq, hbsq, hbsaw⟩ := iterate_oscConsume p o dts.length ho
  rw [← oscRun_zero p o dts hunit hdts] at hphase hfreq hbsq hbsaw
  rw [oscSample_zero p o _ hunit hdt]
  refine ⟨hphase, hfreq, rfl, rfl, fun hlen => ?_⟩
  have hempty := eq_replicate_of_drained hlen hbsq
  have hempty' := eq_replicate_of_drained hlen hbsaw
  have hdt' : oscInc p o' (operandF dt) = fpZero := by
    unfold oscInc
    rw [hfreq]
    exact hdt
  refine ⟨hempty, hempty', ?_⟩
  rw [oscSample_words_zero p o' _ p.win (hphase.symm ▸ hunit) hdt' hempty hempty', hphase]

/-! ### The commands of class 2 (R129 to R132) -/

/-- Settles O27: OSC.SETF writes the clamped frequency of the addressed oscillator. -/
theorem oscSetfResult : Obligations.OscSetfResult := by
  intro s k f o hk
  exact on_silent oscInstances hk

/-- Settles O29: OSC.RESET clears the addressed oscillator. -/
theorem oscResetResult : Obligations.OscResetResult := by
  intro s k o hk
  exact on_silent oscInstances hk

/-- What a sample inserts into the rings, by the two comparisons of R122. -/
theorem oscInsert_eq (p : Config.Params) (o : OscState) (inc s : Fp) :
    oscInsert p o inc s =
      { o with
        bsq := if oscWrapped s then blepInsert p o.bsq o.psq (subSample (oscWrap s) inc) fpTwo
               else if !oscWrapped s && flt (Fp.ofBits o.phase) fpHalf && fge s fpHalf then
                 blepInsert p o.bsq o.psq (subSample (fsub s fpHalf) inc) fpNegTwo
               else o.bsq
        bsaw := if oscWrapped s then blepInsert p o.bsaw o.psaw (subSample (oscWrap s) inc) fpNegTwo else o.bsaw } := by
  cases hwrap : oscWrapped s with
  | true =>
    rw [oscInsert_wrap (by rw [oscEvent, hwrap, if_pos rfl])]
    rfl
  | false =>
    cases hhalf : flt (Fp.ofBits o.phase) fpHalf && fge s fpHalf with
    | true =>
      rw [oscInsert_half (by rw [oscEvent, hwrap, hhalf]; rfl), Bool.not_false, Bool.true_and, hhalf]
      rfl
    | false =>
      rw [oscInsert_none (by rw [oscEvent, hwrap, hhalf]; rfl), Bool.not_false, Bool.true_and, hhalf]
      rfl

/-- Settles O28: a sample is R130's lines in order. -/
theorem oscProcResult : Obligations.OscProcResult := by
  intro s k dt o hk p x inc p0 t wrapped p1 half bsq bsaw nsq nsaw scale
  have hexec : exec (.oscProc k dt) s =
      .next ({ s with oscs := s.oscs.set k.toNat (oscSample p o (operandF dt)).1 }.pushResults
        (oscSample p o (operandF dt)).2) := onOsc_some _ k s _ o hk
  rw [hexec, oscSample_eq, oscSample_words, oscInsert_eq]
  rfl

section
variable (p : Config.Params) (o : OscState) (i : Nat) (hi : i < p.win) (hwin : p.win ≤ 64)
include hi hwin

/-- Registers 0x40 to 0x40 + L - 1 are the entries of bsq (10_state.md R43). -/
theorem oscReg_bsq : oscReg p o (BitVec.ofNat 8 (0x40 + i)).toNat = some (o.bsq.getD i 0x00000000#32) := by
  rw [BitVec.toNat_ofNat, Nat.mod_eq_of_lt (by omega)]
  simp only [oscReg]
  rw [if_neg (by omega), if_neg (by omega), if_neg (by omega), if_neg (by omega), if_pos (by omega),
    Nat.add_sub_cancel_left]

/-- Registers 0x80 to 0x80 + L - 1 are the entries of bsaw. -/
theorem oscReg_bsaw : oscReg p o (BitVec.ofNat 8 (0x80 + i)).toNat = some (o.bsaw.getD i 0x00000000#32) := by
  rw [BitVec.toNat_ofNat, Nat.mod_eq_of_lt (by omega)]
  simp only [oscReg]
  rw [if_neg (by omega), if_neg (by omega), if_neg (by omega), if_neg (by omega), if_neg (by omega),
    if_pos (by omega), Nat.add_sub_cancel_left]

end

/-- Settles O30: each listed register is read from the addressed oscillator. -/
theorem oscGetResult : Obligations.OscGetResult := by
  intro s k o hk
  constructor
  · intro row hrow
    simp only [List.mem_cons, List.not_mem_nil, or_false] at hrow
    apply read_word oscInstances hk
    rcases hrow with rfl | rfl | rfl | rfl
    · rfl
    · rfl
    · rfl
    · rfl
  · intro i hi hwin
    exact ⟨read_word oscInstances hk (oscReg_bsq s.params o i hi hwin),
      read_word oscInstances hk (oscReg_bsaw s.params o i hi hwin)⟩

/-! ### R137 and R31 as worded (notes/assumptions/10.md) -/

/-- A window of one sample, a residual of 1 at a step, and the largest finite scale. -/
def extremeScale : Config.Params :=
  { Config.defaultParams with
    win := 1, oversamp := 1, table := .listed [0x3F800000#32, 0x00000000#32], oscScale := 0x7F7FFFFF#32 }

theorem extremeScale_legal : legalParams extremeScale = true := by decide

/-- An oscillator at 1 Hz, a quarter of a second after power-on. -/
def quarterPeriod : OscState :=
  { phase := 0x3E800000#32, freq := 0x3F800000#32, bsq := [0#32], bsaw := [0#32], psq := 0, psaw := 0 }

theorem oscRun_quarterPeriod :
    oscRun extremeScale { OscState.powerOn 1 with freq := clampFreq 0x3F800000#32 } [0x3E800000#32] =
      quarterPeriod := by
  decide

/-- The square falls at phase 0.5: its naive value -1 and its correction -2 make -3, and -3 times the scale is -Inf. -/
theorem oscSample_quarterPeriod :
    (oscSample extremeScale quarterPeriod (operandF 0x3E800000#32)).2 = [0xFF800000#32, 0x00000000#32] := by
  decide

/-- Refutes O38: two samples from power-on return an infinity, for a legal table and a legal scale. -/
theorem not_oscOutputsFiniteForEveryTable : ¬ Obligations.OscOutputsFiniteForEveryTable := by
  intro h
  obtain ⟨hwords, -⟩ := h extremeScale 0x3F800000#32 0x3E800000#32 [0x3E800000#32] extremeScale_legal
  have hinf : (0xFF800000#32 : Word) ∈ (oscSample extremeScale quarterPeriod (operandF 0x3E800000#32)).2 := by
    rw [oscSample_quarterPeriod]
    exact List.mem_cons_self
  have hfinite := hwords 0xFF800000#32 (oscRun_quarterPeriod ▸ hinf)
  exact absurd hfinite (by decide)

end Sys2Proof.Proofs

/-! PROOFS. The FrequencyDivider (43_divider.md). One counted edge on the integers, of which reconfiguration without
glitches and the division ratio follow; one sample of the driver, which counts nothing once the driver holds still; and
what the commands on a divider answer. -/

namespace Sys2Proof.Proofs

open Sys2Proof Sys2Proof.Machine Sys2Proof.Laws

/-! ### One counted edge (R150, R151) -/

/-- Both modes flip when the count wraps; count-down flips also when the count rises to 0 from the reset value. -/
theorem divCount_phase (d : DivState) :
    (divCount d).phase =
      if d.n.toInt ≤ (d.count + 1#32).toInt ∨ (d.mode = false ∧ d.count + 1#32 = 0#32) then !d.phase else d.phase := by
  unfold divCount
  generalize d.count + 1#32 = c
  cases d.mode with
  | false => by_cases hwrap : d.n.toInt ≤ c.toInt <;> simp [hwrap]
  | true => by_cases hwrap : d.n.toInt ≤ c.toInt <;> simp [hwrap]

section
variable {d : DivState} (hlo : -1 ≤ d.count.toInt) (hhi : d.count.toInt ≤ 63)
include hlo hhi

theorem divCount_count_toInt :
    (divCount d).count.toInt = if d.n.toInt ≤ d.count.toInt + 1 then 0 else d.count.toInt + 1 := by
  rw [divCount_count, toInt_count_succ d.count hlo hhi, apply_ite BitVec.toInt, toInt_count_succ d.count hlo hhi]
  rfl

theorem divCount_phase_toInt :
    (divCount d).phase =
      if d.n.toInt ≤ d.count.toInt + 1 ∨ (d.mode = false ∧ d.count.toInt + 1 = 0) then !d.phase else d.phase := by
  have hzero : d.count + 1#32 = 0#32 ↔ d.count.toInt + 1 = 0 := by
    rw [← toInt_count_succ d.count hlo hhi, ← BitVec.toInt_inj]
    rfl
  simp only [divCount_phase, toInt_count_succ d.count hlo hhi, hzero]

/-- A count at or above N wraps and flips in both modes. -/
theorem divCount_of_le_count (hn : d.n.toInt ≤ d.count.toInt) :
    (divCount d).count = 0#32 ∧ (divCount d).phase = !d.phase := by
  have hwrap : d.n.toInt ≤ d.count.toInt + 1 := by omega
  refine ⟨?_, ?_⟩
  · rw [divCount_count, toInt_count_succ d.count hlo hhi, if_pos hwrap]
  · rw [divCount_phase_toInt hlo hhi, if_pos (.inl hwrap)]

end

theorem divOk_count {d : DivState} (h : divOk d = true) : -1 ≤ d.count.toInt ∧ d.count.toInt ≤ 63 := by
  obtain ⟨-, -, -, hlo, hhi, -⟩ := (divOk_iff d).mp h
  exact ⟨hlo, hhi⟩

/-- Settles O40: the flips of the two modes differ only where the count rises to 0 without wrapping. -/
theorem divCountRule : Obligations.DivCountRule := by
  intro d hd c
  obtain ⟨hlo, hhi⟩ := divOk_count hd
  refine ⟨divCount_count_toInt hlo hhi, ?_, divCount_n d, divCount_maxN d, divCount_mode d, divCount_ed d⟩
  rw [divCount_phase_toInt hlo hhi]
  cases d.mode with
  | false => simp [c]
  | true => simp [c]

/-- Settles O47: no setter writes phase or count, and the count is in range when the edge comes. -/
theorem reconfigurationIsGlitchFree : Obligations.ReconfigurationIsGlitchFree := by
  intro d hd x
  obtain ⟨hlo, hhi⟩ := divOk_count hd
  exact ⟨⟨divWithN_phase d x, divWithN_count d x⟩, ⟨divWithMaxN_phase d x, divWithMaxN_count d x⟩,
    ⟨divWithMode_phase d x, divWithMode_count d x⟩, divCount_of_le_count (d := divWithN d x) hlo hhi⟩

/-! ### The division ratio (R160) -/

@[simp] theorem countedEdges_n (d : DivState) (e : Nat) : (countedEdges d e).n = d.n := by
  induction e with
  | zero => rfl
  | succ e ih => rw [countedEdges, divCount_n, ih]

@[simp] theorem countedEdges_mode (d : DivState) (e : Nat) : (countedEdges d e).mode = d.mode := by
  induction e with
  | zero => rfl
  | succ e ih => rw [countedEdges, divCount_mode, ih]

/-- The phase after the first edge and `q` wraps: count-down has flipped once more than count-up. -/
def phaseAfterWraps (mode : Bool) (q : Nat) : Bool := if mode then decide (q % 2 = 1) else decide (q % 2 = 0)

theorem phaseAfterWraps_succ (mode : Bool) (q : Nat) : phaseAfterWraps mode (q + 1) = !phaseAfterWraps mode q := by
  rcases Nat.mod_two_eq_zero_or_one q with h | h <;> cases mode <;> simp [phaseAfterWraps, Nat.add_mod, h]

section
variable {d : DivState} {n : Nat} (hcount : d.count.toInt = -1) (hphase : d.phase = false) (hdn : d.n.toInt = n)
  (hn : 1 ≤ n) (hn' : n ≤ 64)
include hcount hphase hdn hn hn'

/-- After edge `m + 1` the count is `m` modulo N, and it has wrapped `m / N` times. -/
theorem countedEdges_succ (m : Nat) :
    (countedEdges d (m + 1)).count.toInt = (m % n : Nat) ∧
    (countedEdges d (m + 1)).phase = phaseAfterWraps d.mode (m / n) := by
  induction m with
  | zero =>
    have hzero : d.count.toInt + 1 = 0 := by omega
    have hnowrap : ¬ d.n.toInt ≤ 0 := by omega
    rw [Nat.zero_mod, Nat.zero_div, countedEdges, countedEdges, divCount_count_toInt (by omega) (by omega),
      divCount_phase_toInt (by omega) (by omega), hzero, if_neg hnowrap]
    refine ⟨rfl, ?_⟩
    cases d.mode with
    | false => simp [phaseAfterWraps, hphase]
    | true => simp [phaseAfterWraps, hphase, hnowrap]
  | succ m ih =>
    obtain ⟨ihcount, ihphase⟩ := ih
    have hmod : m % n < n := Nat.mod_lt _ hn
    rw [countedEdges, divCount_count_toInt (by omega) (by omega), divCount_phase_toInt (by omega) (by omega),
      countedEdges_n, hdn, ihcount, ihphase]
    by_cases hwrap : n ≤ m % n + 1
    · have hzero : (m + 1) % n = 0 := by rw [← Nat.mod_add_mod, show m % n + 1 = n by omega, Nat.mod_self]
      rw [if_pos (by omega), if_pos (by omega), hzero, Nat.succ_div_of_dvd (Nat.dvd_of_mod_eq_zero hzero),
        phaseAfterWraps_succ]
      exact ⟨rfl, rfl⟩
    · have hsucc : (m + 1) % n = m % n + 1 := by rw [← Nat.mod_add_mod, Nat.mod_eq_of_lt (not_le.mp hwrap)]
      rw [if_neg (by omega), if_neg (by omega), hsucc, Nat.succ_div_of_mod_ne_zero (by omega)]
      exact ⟨rfl, rfl⟩

end

/-- Settles O49: the induction is over the edges after the first one. -/
theorem divisionRatio : Obligations.DivisionRatio := by
  intro d n e hcount hphase hdn hn hn' he
  have hdn' : d.n.toInt = n := by
    rw [hdn, ← BitVec.ofInt_natCast]
    exact toInt_wordI n (by omega) (by omega)
  obtain ⟨m, rfl⟩ := Nat.exists_eq_add_of_le' he
  exact countedEdges_succ hcount hphase hdn' hn hn' m

/-! ### One sample of the driver (R152, R159) -/

theorem divFeed_eq (p : Config.Params) (d : DivState) (x : Fp) :
    divFeed p d x =
      if (edFeed p d.ed x).prev = (edFeed p d.ed x).cur then { d with ed := edFeed p d.ed x }
      else divCount { d with ed := edFeed p d.ed x } := by
  simp only [divFeed, bne_iff_ne, ne_eq, ite_not]

/-- A sample without an edge is seen by the detector only. -/
theorem divFeed_of_no_edge {p : Config.Params} {d : DivState} {x : Fp}
    (h : (edFeed p d.ed x).prev = (edFeed p d.ed x).cur) : divFeed p d x = { d with ed := edFeed p d.ed x } := by
  rw [divFeed_eq, if_pos h]

/-- A level that is classified again by the same input stays. -/
theorem classify_idem (p : Config.Params) (c : Bool) (x : Fp) : classify p (classify p c x) x = classify p c x := by
  by_cases habove : flt (Fp.ofBits p.thHi) x = true
  · rw [classify_of_above _ habove, classify_of_above _ habove]
  · rw [classify_of_not_above _ habove, classify_of_not_above _ habove]
    split <;> rfl

/-- The divider's detector is armed, and the input `x` leaves its level as it is. -/
def Settled (p : Config.Params) (x : Fp) (d : DivState) : Prop :=
  d.ed.armed = true ∧ classify p d.ed.cur x = d.ed.cur

theorem settled_divFeed (p : Config.Params) (x : Fp) (d : DivState) : Settled p x (divFeed p d x) := by
  simp only [Settled, divFeed_ed, edFeed_armed, edFeed_cur, classify_idem, and_self]

theorem divFeed_of_settled {p : Config.Params} {x : Fp} {d : DivState} (h : Settled p x d) :
    divFeed p d x = { d with ed := edFeed p d.ed x } := by
  obtain ⟨harmed, hcur⟩ := h
  apply divFeed_of_no_edge
  rw [edFeed_prev, if_pos harmed, edFeed_cur, hcur]

/-- An input that no longer changes holds phase and count. -/
theorem foldl_divFeed_of_settled {p : Config.Params} {x : Fp} {d : DivState} (n : Nat) (h : Settled p x d) :
    ((List.replicate n x).foldl (divFeed p) d).phase = d.phase ∧
    ((List.replicate n x).foldl (divFeed p) d).count = d.count := by
  induction n generalizing d with
  | zero => exact ⟨rfl, rfl⟩
  | succ n ih =>
    rw [List.replicate_succ, List.foldl_cons]
    obtain ⟨hphase, hcount⟩ := ih (settled_divFeed p x d)
    rw [hphase, hcount, divFeed_of_settled h]
    exact ⟨rfl, rfl⟩

/-- Settles O48: without an edge nothing is counted, and the first sample of a constant input settles the detector. -/
theorem phaseIsEdgeLocked : Obligations.PhaseIsEdgeLocked := by
  refine ⟨fun p d x hflip => ?_, fun p d x n => foldl_divFeed_of_settled n (settled_divFeed p x d)⟩
  rw [divFeed_ed, anyEdge_eq, bne_iff_ne]
  intro hnoedge
  exact hflip (by rw [divFeed_of_no_edge hnoedge])

/-! ### The commands of class 3 (R152 to R157) -/

/-- Settles O41: the addressed divider is fed, and its new phase is returned with its level. -/
theorem divProcResult : Obligations.DivProcResult := by
  intro s k clk d hk e d' level
  have hexec : exec (.divProc k clk) s =
      .next ({ s with divs := s.divs.set k.toNat (divFeed s.params d (operandF clk)) }.pushResults
        [resultB (divFeed s.params d (operandF clk)).phase,
          resultF (divLevelOut s.params (divFeed s.params d (operandF clk)).phase)]) := onDiv_some _ k s _ d hk
  rw [hexec, divFeed_eq]
  rfl

/-- Settles O42: DIV.SETN writes the clamped divisor of the addressed divider. -/
theorem divSetnResult : Obligations.DivSetnResult := by
  intro s k n d hk
  exact on_silent divInstances hk

/-- Settles O43: DIV.SETMAXN writes the clamped ceiling of the addressed divider, and its divisor. -/
theorem divSetmaxnResult : Obligations.DivSetmaxnResult := by
  intro s k m d hk maxN
  exact on_silent divInstances hk

/-- The three cases of SETMODE as one value of the mode (R155). -/
theorem divWithMode_eq (d : DivState) (mode : Word) :
    divWithMode d mode =
      { d with mode := if mode.toNat = 0 then false else if mode.toNat = 1 then true else d.mode } := by
  have hzero : mode = 0#32 ↔ mode.toNat = 0 := BitVec.toNat_inj.symm
  have hone : mode = 1#32 ↔ mode.toNat = 1 := BitVec.toNat_inj.symm
  simp only [divWithMode, hzero, hone]
  split
  · rfl
  · split <;> rfl

/-- Settles O44: DIV.SETMODE writes the mode of the addressed divider. -/
theorem divSetmodeResult : Obligations.DivSetmodeResult := by
  intro s k mode d hk
  rw [← divWithMode_eq]
  exact on_silent divInstances hk

/-- Settles O45: DIV.RESET clears the addressed divider. -/
theorem divResetResult : Obligations.DivResetResult := by
  intro s k d hk
  exact on_silent divInstances hk

/-- Settles O46: each listed register is read from the addressed divider; only FLAGS is not a field. -/
theorem divGetResult : Obligations.DivGetResult := by
  intro s k d hk row hrow
  simp only [List.mem_cons, List.not_mem_nil, or_false] at hrow
  apply read_word divInstances hk
  rcases hrow with rfl | rfl | rfl | rfl | rfl | rfl | rfl | rfl | rfl
  iterate 8 · rfl
  exact congrArg some (flagsWord_eq_flagsOf d.ed)

end Sys2Proof.Proofs

/-! PROOFS. The WaveformConverter (44_converter.md). The wrap takes the fractional part exactly; a trailing edge starts
the ramp from +0, which the increment is added to exactly; and what the commands on a converter answer. -/

namespace Sys2Proof.Proofs

open Sys2Proof Sys2Proof.Machine Sys2Proof.Laws

/-! ### The ramp (R180, R181, R184) -/

theorem convStart_of_trailing {e : EdState} (w : Word) (h : e.trailing = true) : convStart e w = fpZero := if_pos h

/-- From +0 the increment is reached exactly, so a restarted ramp does not depend on the phase it left. -/
theorem fadd_zero_convInc (a b : Fp) : fadd fpZero (convInc (fmul a b)) = convInc (fmul a b) := by
  obtain ⟨r, hinc, hrep, hlt⟩ := convInc_fin a b
  have hround : roundRatio (0 + r) 1 = r := by rw [Nat.zero_add, roundRatio_one r hrep]
  rw [hinc, fpZero, fadd_nonneg 0 r (hround.symm ▸ hlt), hround]

/-- Settles O53: the ramp starts from +0, whatever the phase was, and adds the increment to it exactly. -/
theorem trailingEdgeRestartsRamp : Obligations.TrailingEdgeRestartsRamp := by
  intro p c value freq dt htrailing
  simp only [convSample, convStart_of_trailing c.phase htrailing, fadd_zero_convInc]

/-- Settles O54: subtracting the floor leaves the remainder, which binary32 holds. -/
theorem converterWrapIsExact : Obligations.ConverterWrapIsExact := by
  intro m hm _ _
  exact convWrap_fin m hm

/-! ### The commands of class 4 (R181 to R183) -/

/-- A command that makes `x'` of the addressed unit and returns `ws` does that, and nothing else. -/
theorem on_returning {u : UnitClass} {α : Type} (U : Instances u α) {i : Instr} {k : Byte} {s : State} {x x' : α}
    {f : α → α × List Word} {ws : List Word} (h : (U.get s)[k.toNat]? = some x) (hf : f x = (x', ws)) :
    U.on i k s f = .next ((U.put s ((U.get s).set k.toNat x')).pushResults ws) := by
  rw [U.on_some i k s f x h, hf]

/-- The start of a sample in the words of R181: an edge from high to low is one whose fields say so. -/
theorem convStart_eq (e : EdState) (w : Word) :
    convStart e w = if e.prev = true ∧ e.cur = false then fpZero else Fp.ofBits w := by
  simp only [convStart, EdState.trailing, Bool.and_eq_true, Bool.not_eq_true']

/-- Settles O50: the addressed converter takes the sample, whose saw is returned. -/
theorem convTosawResult : Obligations.ConvTosawResult := by
  intro s k value freq dt c hk e x inc start ph0 ph
  have hstart : convStart e c.phase = start := convStart_eq e c.phase
  have hsample : convSample s.params c (operandF value) (operandF freq) (operandF dt) =
      ({ phase := ph.toBits, ed := e },
        [(fsub (fmul (Fp.ofBits s.params.convGain) ph) (Fp.ofBits s.params.convOffset)).toBits]) := by
    simp only [ph, ph0, ← hstart]
    rfl
  exact on_returning convInstances hk hsample

/-- Settles O51: CONV.RESET clears the addressed converter. -/
theorem convResetResult : Obligations.ConvResetResult := by
  intro s k c hk
  exact on_silent convInstances hk

/-- Settles O52: each listed register is read from the addressed converter; only FLAGS is not a field. -/
theorem convGetResult : Obligations.ConvGetResult := by
  intro s k c hk row hrow
  simp only [List.mem_cons, List.not_mem_nil, or_false] at hrow
  apply read_word convInstances hk
  rcases hrow with rfl | rfl | rfl | rfl | rfl
  iterate 4 · rfl
  exact congrArg some (flagsWord_eq_flagsOf c.ed)

end Sys2Proof.Proofs

/-! PROOFS. Block control (45_core_control.md): CORE.NOP and CORE.RESET, and the block registers, of which the two
parameter words pack four counts that fit a byte each (10_state.md R24). -/

namespace Sys2Proof.Proofs

open Sys2Proof Sys2Proof.Machine Sys2Proof.Laws

/-! ### CORE.NOP and CORE.RESET (R200, R201) -/

/-- Settles O18: CORE.NOP answers the state it was given. -/
theorem coreNopChangesNothing : Obligations.CoreNopChangesNothing := fun _ => rfl

/-- Under CORE.RESET an oscillator keeps nothing: OSC.RESET spares freq, which is cleared first. -/
theorem oscBlockReset_eq (p : Config.Params) (o : OscState) :
    oscBlockReset p o =
      { phase := 0#32, freq := 0#32, bsq := List.replicate p.win 0#32, bsaw := List.replicate p.win 0#32,
        psq := 0, psaw := 0 } := rfl

/-- Under CORE.RESET a divider keeps nothing: DIV.RESET spares maxN, which is set to 20 first. -/
theorem divBlockReset_eq (d : DivState) :
    divBlockReset d =
      { count := BitVec.ofInt 32 (-1), n := 0#32, maxN := 20#32, mode := false, phase := false,
        ed := { cur := false, prev := false, armed := false } } := rfl

theorem convClear_eq (c : ConvState) :
    convClear c = { phase := 0#32, ed := { cur := false, prev := false, armed := false } } := rfl

/-- Settles O19: every unit becomes its class's reset value, whatever it was, and the latch is cleared. -/
theorem coreResetResult : Obligations.CoreResetResult := by
  intro s
  have heds : edClear = fun _ => { cur := false, prev := false, armed := false } := rfl
  have hoscs := funext (oscBlockReset_eq s.params)
  have hdivs := funext divBlockReset_eq
  have hconvs := funext convClear_eq
  rw [← heds, ← hoscs, ← hdivs, ← hconvs]
  rfl

/-! ### The block registers (R24, R41, R202) -/

/-- Four bytes side by side are the word of their place values, when the lower three fit; the top one is cut alike on
both sides. -/
theorem append_ofNat_bytes {a b c : Nat} (d : Nat) (ha : a ≤ 255) (hb : b ≤ 255) (hc : c ≤ 255) :
    BitVec.ofNat 8 d ++ (BitVec.ofNat 8 c ++ (BitVec.ofNat 8 b ++ BitVec.ofNat 8 a)) =
      BitVec.ofNat 32 (a + 2 ^ 8 * b + 2 ^ 16 * c + 2 ^ 24 * d) := by
  apply BitVec.eq_of_toNat_eq
  simp only [toNat_append_eq_add, BitVec.toNat_ofNat]
  omega

theorem legalCounts_le {c : Config.Counts} (h : legalCounts c = true) :
    c.ned ≤ 255 ∧ c.nosc ≤ 255 ∧ c.ndiv ≤ 255 ∧ c.nconv ≤ 255 := by
  simp only [legalCounts, Bool.and_eq_true, decide_eq_true_eq] at h
  omega

theorem params0_eq {c : Config.Counts} (h : legalCounts c = true) :
    params0 c = BitVec.ofNat 32 (c.nosc + 2 ^ 8 * c.ndiv + 2 ^ 16 * c.nconv + 2 ^ 24 * c.ned) := by
  obtain ⟨-, hosc, hdiv, hconv⟩ := legalCounts_le h
  exact append_ofNat_bytes c.ned hosc hdiv hconv

theorem params1_eq {p : Config.Params} (h : legalParams p = true) :
    params1 p = BitVec.ofNat 32 (p.win + 2 ^ 8 * p.oversamp + 2 ^ 16 * 64 + 2 ^ 24 * 20) := by
  obtain ⟨-, hwin⟩ := legalParams_win p h
  obtain ⟨-, hoversamp⟩ := legalParams_oversamp p h
  exact append_ofNat_bytes 20 (by omega) hoversamp (by decide)

/-- CORE.GET of a register that is there returns its word, and changes nothing else. -/
theorem exec_coreGet_of_coreReg {reg : Byte} {s : State} {v : Word} (h : coreReg s reg.toNat = some v) :
    exec (.coreGet reg) s = .next { s with results := s.results ++ [v] } :=
  congrArg (returnWord (.coreGet reg) s) h

/-- Settles O20: each listed register is read as it stands; only PARAMS0 and PARAMS1 are not fields or constants. -/
theorem coreGetResult : Obligations.CoreGetResult := by
  intro s hcounts hparams row hrow
  simp only [List.mem_cons, List.not_mem_nil, or_false] at hrow
  apply exec_coreGet_of_coreReg
  rcases hrow with rfl | rfl | rfl | rfl | rfl | hrow
  iterate 3 · rfl
  · exact congrArg some (params0_eq hcounts)
  · exact congrArg some (params1_eq hparams)
  · rcases hrow with rfl | rfl | rfl | rfl | rfl | rfl | rfl <;> rfl

end Sys2Proof.Proofs

/-! PROOFS. Errors (60_exceptions.md). The decoder rejects a command word for its first failing check, and the meanings
reject the rest in the same order, so one lemma covers each: a word that fails a check takes that error, and a word
that passes them all runs. Then the latch: an error writes it once, and nothing else but CORE.RESET writes it. -/

namespace Sys2Proof.Proofs

open Sys2Proof Sys2Proof.Machine Sys2Proof.Laws

/-! ### What the decoder rejects (30_encoding.md R78, R79) -/

theorem decodePlain_eq_illegal {w : Word} {i : Instr} {k : Cause} (h : decodePlain w i = .illegal k) :
    (fieldRsv w ≠ 0#8 ∨ fieldReg w ≠ 0#8) ∧ k = .reserved := by
  simpa [decodePlain, ite_eq_iff, eq_comm (b := k)] using h

theorem decodeGet_eq_illegal {w : Word} {i : Instr} {k : Cause} (h : decodeGet w i = .illegal k) :
    fieldRsv w ≠ 0#8 ∧ k = .reserved := by
  simpa [decodeGet, ite_eq_iff, eq_comm (b := k)] using h

theorem decodeBlock_eq_illegal {w : Word} {d : Decoded} {k : Cause} (h : decodeBlock w d = .illegal k) :
    d = .illegal k ∨ (∃ i, d = .instr i) ∧ fieldIdx w ≠ 0#8 ∧ k = .badIndex := by
  cases d with
  | illegal c => exact .inl h
  | instr i =>
    simp only [decodeBlock, ite_eq_iff, Decoded.illegal.injEq, reduceCtorEq, and_false, or_false] at h
    exact .inr ⟨⟨i, rfl⟩, h.imp_right Eq.symm⟩

/-! ### The checks before BAD_REG (60_exceptions.md R212) -/

section
variable {cs : Config.Counts} {win : Nat} {w : Word}

theorem not_reservedClass_of_assigned (h : assignedOp w = true) : ¬ 5 ≤ (fieldClass w).toNat := fun hclass =>
  Bool.noConfusion ((assignedOp_of_reservedClass hclass).symm.trans h)

theorem firstCause_of_reserved (hassigned : assignedOp w = true)
    (h : fieldRsv w ≠ 0#8 ∨ isGet w = false ∧ fieldReg w ≠ 0#8) : firstCause cs win w = some .reserved := by
  have hres : (fieldRsv w != 0#8 || (!isGet w && fieldReg w != 0#8)) = true := by simpa using h
  rw [firstCause, if_neg (not_reservedClass_of_assigned hassigned), hassigned, if_neg (by decide), if_pos hres]

theorem firstCause_of_indexBad (hassigned : assignedOp w = true) (hrsv : fieldRsv w = 0#8)
    (hreg : isGet w = true ∨ fieldReg w = 0#8) (hidx : indexBad cs w = true) :
    firstCause cs win w = some .badIndex := by
  have hres : ¬ (fieldRsv w != 0#8 || (!isGet w && fieldReg w != 0#8)) = true := by
    rcases hreg with hget | hzero
    · simp [hrsv, hget]
    · simp [hrsv, hzero]
  rw [firstCause, if_neg (not_reservedClass_of_assigned hassigned), hassigned, if_neg (by decide), if_neg hres,
    if_pos hidx]

/-! ### The decoder's cause is the first failing check -/

theorem firstCause_of_decodeUnassigned {k : Cause} (hassigned : assignedOp w = false)
    (h : decodeUnassigned w = .illegal k) : firstCause cs win w = some k := by
  unfold decodeUnassigned at h
  unfold firstCause
  split at h
  next hclass =>
    cases h
    rw [if_pos hclass]
  next hclass =>
    cases h
    rw [if_neg hclass, hassigned]
    rfl

theorem firstCause_of_decodePlain {i : Instr} {k : Cause} (hassigned : assignedOp w = true) (hget : isGet w = false)
    (h : decodePlain w i = .illegal k) : firstCause cs win w = some k := by
  obtain ⟨hres, rfl⟩ := decodePlain_eq_illegal h
  exact firstCause_of_reserved hassigned (hres.imp_right fun hreg => ⟨hget, hreg⟩)

theorem firstCause_of_decodeGet {i : Instr} {k : Cause} (hassigned : assignedOp w = true)
    (h : decodeGet w i = .illegal k) : firstCause cs win w = some k := by
  obtain ⟨hres, rfl⟩ := decodeGet_eq_illegal h
  exact firstCause_of_reserved hassigned (.inl hres)

theorem indexBad_of_block (hclass : (fieldClass w).toNat = 0) (hidx : fieldIdx w ≠ 0#8) : indexBad cs w = true := by
  simpa [indexBad, hclass] using hidx

theorem firstCause_of_decodeBlock_plain {i : Instr} {k : Cause} (hassigned : assignedOp w = true)
    (hget : isGet w = false) (hclass : (fieldClass w).toNat = 0)
    (h : decodeBlock w (decodePlain w i) = .illegal k) : firstCause cs win w = some k := by
  rcases decodeBlock_eq_illegal h with hplain | ⟨⟨j, hplain⟩, hidx, rfl⟩
  · exact firstCause_of_decodePlain hassigned hget hplain
  · obtain ⟨hrsv, hreg, -⟩ := decodePlain_eq_instr hplain
    exact firstCause_of_indexBad hassigned hrsv (.inr hreg) (indexBad_of_block hclass hidx)

theorem firstCause_of_decodeBlock_get {i : Instr} {k : Cause} (hassigned : assignedOp w = true)
    (hget : isGet w = true) (hclass : (fieldClass w).toNat = 0)
    (h : decodeBlock w (decodeGet w i) = .illegal k) : firstCause cs win w = some k := by
  rcases decodeBlock_eq_illegal h with hread | ⟨⟨j, hread⟩, hidx, rfl⟩
  · exact firstCause_of_decodeGet hassigned hread
  · obtain ⟨hrsv, -⟩ := decodeGet_eq_instr hread
    exact firstCause_of_indexBad hassigned hrsv (.inl hget) (indexBad_of_block hclass hidx)

theorem isGet_congr {v : Word} (h : fieldOp w = fieldOp v) : isGet w = isGet v := by
  rw [isGet, opBits_eq, h, ← opBits_eq, isGet]

theorem fieldClass_congr {v : Word} (h : fieldOp w = fieldOp v) : fieldClass w = fieldClass v := by
  rw [fieldClass_eq, h, ← fieldClass_eq]

/-- Class, OP and whether a command is a GET can be read off any word with the same bits 31:24. -/
theorem fieldOp_eq_header {n : Nat} (h : (fieldOp w).toNat = n) :
    fieldOp w = fieldOp (header (BitVec.ofNat 8 n) 0#8 0#8) := by
  rw [fieldOp_header, ← h, BitVec.ofNat_toNat, BitVec.setWidth_eq]

/-- The values of bits 31:24 that 30_encoding.md R77 assigns. -/
theorem fieldOp_of_assigned (h : assignedOp w = true) :
    (fieldOp w).toNat ∈ [0x00, 0x01, 0x0F, 0x10, 0x11, 0x12, 0x13, 0x14, 0x1F, 0x20, 0x21, 0x22, 0x2F, 0x30, 0x31,
      0x32, 0x33, 0x34, 0x3F, 0x40, 0x41, 0x4F] := by
  have hclass : (fieldClass w).toNat = (fieldOp w).toNat / 2 ^ 4 % 2 ^ 4 := by
    rw [fieldClass_eq, BitVec.extractLsb'_toNat, Nat.shiftRight_eq_div_pow]
  have hop : (w.extractLsb' 24 4).toNat = (fieldOp w).toNat % 2 ^ 4 := by
    rw [opBits_eq, BitVec.extractLsb'_toNat, Nat.shiftRight_zero]
  have hbyte : (fieldOp w).toNat < 2 ^ 8 := (fieldOp w).isLt
  simp only [List.mem_cons, List.not_mem_nil, or_false]
  unfold assignedOp at h
  split at h
  case h_6 => cases h
  all_goals
    simp only [Bool.or_eq_true, decide_eq_true_eq, beq_iff_eq] at h
    omega

/-- A word the decoder rejects is rejected for its first failing check (R212). -/
theorem firstCause_of_decode_illegal {operands : List Word} {k : Cause} (h : decode w operands = .illegal k) :
    firstCause cs win w = some k := by
  unfold decode at h
  dsimp only at h
  split at h
  case h_1 hop | h_2 hop =>
    have hw := fieldOp_eq_header hop
    exact firstCause_of_decodeBlock_plain (assignedOp_congr hw) (isGet_congr hw)
      (congrArg BitVec.toNat (fieldClass_congr hw)) h
  case h_3 hop =>
    have hw := fieldOp_eq_header hop
    exact firstCause_of_decodeBlock_get (assignedOp_congr hw) (isGet_congr hw)
      (congrArg BitVec.toNat (fieldClass_congr hw)) h
  case h_9 hop | h_13 hop | h_19 hop | h_22 hop =>
    exact firstCause_of_decodeGet (assignedOp_congr (fieldOp_eq_header hop)) h
  case h_23 =>
    refine firstCause_of_decodeUnassigned (Bool.eq_false_iff.mpr fun hassigned => ?_) h
    have hmem := fieldOp_of_assigned hassigned
    simp only [List.mem_cons, List.not_mem_nil, or_false] at hmem
    casesm* _ ∨ _ <;> contradiction
  all_goals
    next hop =>
      have hw := fieldOp_eq_header hop
      exact firstCause_of_decodePlain (assignedOp_congr hw) (isGet_congr hw) h

end

/-! ### One command whose words are all there (R212, R213) -/

section
variable {s : State} {w : Word} {operands : List Word} {rest : List Byte}
  (hlink : s.link = wordBytes w ++ (operands.flatMap wordBytes ++ rest)) (hlen : operands.length = operandCount w)
include hlink hlen

theorem step_of_firstCause_some {c : Cause} (hcause : firstCause s.counts s.params.win w = some c) :
    step s = .next (takeError c w { s with link := rest }) := by
  cases hdec : decode w operands with
  | illegal k =>
    cases (firstCause_of_decode_illegal hdec).symm.trans hcause
    exact step_of_fetch_illegal (hlink ▸ fetch_illegal_of_decode rest hlen hdec)
  | instr i =>
    obtain ⟨rfl, -⟩ := reads_of_decode hdec
    rw [step_of_fetch_command s i rest (hlink ▸ fetch_command_of_decode _ operands rest i hlen hdec)]
    exact exec_of_firstCause hcause

theorem step_of_firstCause_none (hcause : firstCause s.counts s.params.win w = none) :
    ∃ i, encode i = w :: operands ∧ step s = exec i { s with link := rest } := by
  cases hdec : decode w operands with
  | illegal k => cases (firstCause_of_decode_illegal hdec).symm.trans hcause
  | instr i =>
    exact ⟨i, encode_of_decode hlen hdec,
      step_of_fetch_command s i rest (hlink ▸ fetch_command_of_decode _ operands rest i hlen hdec)⟩

end

/-- An error field by field: the latch, the result words, and nothing else. -/
theorem takeError_eq (c : Cause) (w : Word) (s : State) :
    takeError c w s = { s with
      results := s.results ++ List.replicate (resultCount w) 0x00000000#32
      status  := if s.status.getLsbD 0 then s.status else (c.code <<< 4) ||| 1#32
      errcmd  := if s.status.getLsbD 0 then s.errcmd else w } := by
  unfold takeError latchError State.errBit
  cases s.status.getLsbD 0 with
  | true => rfl
  | false => rfl

/-- Settles O11: the decoder and the meanings reject a word for its first failing check, and an error does this. -/
theorem malformedCommandEffect : Obligations.MalformedCommandEffect := by
  intro s w operands rest c hlink hlen hcause
  rw [step_of_firstCause_some hlink hlen hcause, takeError_eq]

/-! ### Commands that pass every check (R211) -/

theorem unitCause_eq_none {n : Nat} {k : Byte} {listed : Bool} :
    unitCause n k listed = none ↔ k.toNat < n ∧ listed = true := by
  unfold unitCause
  split
  next hk => simp [Nat.not_lt.mpr hk]
  next hk => cases listed <;> simp [Nat.lt_of_not_le hk]

theorem wellFormed_iff_instrCause (cs : Config.Counts) (win : Nat) (i : Instr) :
    WellFormed cs win i = true ↔ instrCause cs win i = none := by
  cases i with
  | coreNop | coreReset | coreGet => simp [WellFormed, instrCause]
  | _ => simp [WellFormed, instrCause, unitCause_eq_none]

/-- Settles O12: a word that passes is not rejected by the decoder, and what it decodes to fails no check either. -/
theorem checkedCommandRuns : Obligations.CheckedCommandRuns := by
  intro s w operands rest hlink hlen hcause
  obtain ⟨i, hencode, hstep⟩ := step_of_firstCause_none hlink hlen hcause
  obtain ⟨rfl, -⟩ := List.cons.inj hencode
  rw [firstCause_commandWord] at hcause
  exact ⟨i, hencode, (wellFormed_iff_instrCause _ _ i).mpr hcause, hstep⟩

/-! ### Registers that are listed (10_state.md R41 to R45) -/

theorem coreReg_of_listed {reg : Byte} (s : State) (h : coreRegListed reg = true) :
    (coreReg s reg.toNat).isSome = true := by
  simp only [coreRegListed, decide_eq_true_eq] at h
  generalize reg.toNat = n at h
  interval_cases n <;> rfl

theorem edReg_of_listed {reg : Byte} (e : EdState) (h : edRegListed reg = true) :
    (edReg e reg.toNat).isSome = true := by
  simp only [edRegListed, decide_eq_true_eq] at h
  generalize reg.toNat = n at h
  interval_cases n <;> rfl

theorem oscReg_of_listed {p : Config.Params} {reg : Byte} (o : OscState) (h : oscRegListed p.win reg = true) :
    (oscReg p o reg.toNat).isSome = true := by
  simp only [oscRegListed, Bool.or_eq_true, Bool.and_eq_true, decide_eq_true_eq] at h
  unfold oscReg
  repeat' split
  case isFalse => omega
  all_goals rfl

theorem divReg_of_listed {reg : Byte} (d : DivState) (h : divRegListed reg = true) :
    (divReg d reg.toNat).isSome = true := by
  simp only [divRegListed, Bool.or_eq_true, Bool.and_eq_true, decide_eq_true_eq] at h
  generalize reg.toNat = n at h
  rcases h with h | ⟨hlo, hhi⟩
  · interval_cases n <;> rfl
  · interval_cases n <;> rfl

theorem convReg_of_listed {reg : Byte} (v : ConvState) (h : convRegListed reg = true) :
    (convReg v reg.toNat).isSome = true := by
  simp only [convRegListed, Bool.or_eq_true, Bool.and_eq_true, decide_eq_true_eq, beq_iff_eq] at h
  generalize reg.toNat = n at h
  rcases h with rfl | ⟨hlo, hhi⟩
  · rfl
  · interval_cases n <;> rfl

/-! ### The latch (R214, R217) -/

/-- STATUS and ERRCMD stay as they are. -/
def SameLatch (s t : State) : Prop := t.status = s.status ∧ t.errcmd = s.errcmd

/-- The answer is a next state, with the latch as it was. -/
def KeepsLatch (s : State) (a : Answer) : Prop := ∃ t, a = .next t ∧ SameLatch s t

theorem returnWord_keepsLatch {i : Instr} {s : State} {v : Option Word} (hv : v.isSome = true) :
    KeepsLatch s (returnWord i s v) := by
  obtain ⟨x, rfl⟩ := Option.isSome_iff_exists.mp hv
  exact ⟨s.pushResults [x], rfl, rfl, rfl⟩

section
variable {u : UnitClass} {α : Type} (U : Instances u α) {i : Instr} {k : Byte} {s : State}

theorem exists_unit_of_unitCause {listed : Bool} (h : unitCause (U.get s).length k listed = none) :
    ∃ x, (U.get s)[k.toNat]? = some x :=
  ⟨_, List.getElem?_eq_getElem (unitCause_eq_none.mp h).1⟩

theorem on_keepsLatch {f : α → α × List Word} (hput : ∀ l, SameLatch s (U.put s l))
    (h : unitCause (U.get s).length k true = none) : KeepsLatch s (U.on i k s f) := by
  obtain ⟨x, hx⟩ := exists_unit_of_unitCause U h
  exact ⟨_, U.on_some i k s f x hx, hput _⟩

theorem read_keepsLatch {f : α → Option Word} {listed : Bool} (hf : ∀ x, listed = true → (f x).isSome = true)
    (h : unitCause (U.get s).length k listed = none) : KeepsLatch s (U.read i k s f) := by
  obtain ⟨x, hx⟩ := exists_unit_of_unitCause U h
  rw [U.read_some i k s f x hx]
  exact returnWord_keepsLatch (hf x (unitCause_eq_none.mp h).2)

end

/-- A command that fails no check writes the latch only if it is CORE.RESET. -/
theorem exec_keepsLatch {i : Instr} {s : State} (h : instrCause s.counts s.params.win i = none)
    (hi : i ≠ .coreReset) : KeepsLatch s (exec i s) := by
  cases i with
  | coreNop => exact ⟨s, rfl, rfl, rfl⟩
  | coreReset => exact absurd rfl hi
  | coreGet reg => exact returnWord_keepsLatch (coreReg_of_listed s (by simpa [instrCause] using h))
  | edSet | edReset => exact on_keepsLatch edInstances (fun _ => ⟨rfl, rfl⟩) h
  | edRising | edTrailing | edAny => exact read_keepsLatch edInstances (fun _ _ => rfl) h
  | edGet => exact read_keepsLatch edInstances edReg_of_listed h
  | oscSetf | oscProc | oscReset => exact on_keepsLatch oscInstances (fun _ => ⟨rfl, rfl⟩) h
  | oscGet => exact read_keepsLatch oscInstances oscReg_of_listed h
  | divProc | divSetn | divSetmaxn | divSetmode | divReset =>
    exact on_keepsLatch divInstances (fun _ => ⟨rfl, rfl⟩) h
  | divGet => exact read_keepsLatch divInstances divReg_of_listed h
  | convTosaw | convReset => exact on_keepsLatch convInstances (fun _ => ⟨rfl, rfl⟩) h
  | convGet => exact read_keepsLatch convInstances convReg_of_listed h

/-- With ERR set a further error leaves the latch alone. -/
theorem takeError_sameLatch {s : State} (c : Cause) (w : Word) (hs : s.errBit = true) :
    SameLatch s (takeError c w s) := by
  rw [takeError, latchError_latched c w s hs]
  exact ⟨rfl, rfl⟩

/-- With ERR set no effect but the block reset writes the latch. -/
theorem effect_sameLatch {i : Instr} {s t : State} (hs : s.errBit = true) (h : Effect i s t) :
    SameLatch s t ∨ i = .coreReset := by
  cases h with
  | reset hi => exact .inr hi
  | error c => exact .inl (takeError_sameLatch c _ hs)
  | returned | ed | osc | div | conv => exact .inl ⟨rfl, rfl⟩

/-- Settles O13: with ERR set neither an error nor another effect writes the latch, and a command that fails no check
takes no error. -/
theorem errorLatchIsSticky : Obligations.ErrorLatchIsSticky := by
  refine ⟨fun s t hs h => ?_, fun i s t hwf hi h => ?_⟩
  · have herr : ∀ rest, State.errBit { s with link := rest } = true := fun _ => hs
    rcases step_cases s with ⟨-, hwait⟩ | ⟨i, rest, hfetch, hexec⟩ | ⟨c, w, rest, -, herror⟩
    · cases hwait.symm.trans h
      exact .inl ⟨rfl, rfl⟩
    · rcases effect_sameLatch (herr rest) (exec_effect i _ t (hexec.symm.trans h)) with hsame | rfl
      · exact .inl hsame
      · exact .inr ⟨rest, hfetch⟩
    · cases herror.symm.trans h
      exact .inl (takeError_sameLatch c w (herr rest))
  · obtain ⟨t', ht', hsame⟩ := exec_keepsLatch ((wellFormed_iff_instrCause _ _ i).mp hwf) hi
    cases ht'.symm.trans h
    exact hsame

/-! ### Every step answers (R210, R213, R216) -/

/-- Settles O10: waiting and an error answer a next state, and so does every instruction, with its result words. -/
theorem everyStepAnswersNext : Obligations.EveryStepAnswersNext := by
  intro s
  rcases step_cases s with ⟨-, hwait⟩ | ⟨i, rest, -, hexec⟩ | ⟨c, w, rest, -, herror⟩
  · exact ⟨s, hwait⟩
  · obtain ⟨t, -, hnext, -⟩ := exec_returns i { s with link := rest }
    exact ⟨t, hexec.trans hnext⟩
  · exact ⟨_, herror⟩

end Sys2Proof.Proofs

/-! PROOFS. Reset and the reference wiring (70_reset_and_hazards.md). Every unit of a class powers on alike, and
CORE.RESET makes the same of it; one tick hands the divider's level to the converter, whose ramp restarts when that
level falls. -/

namespace Sys2Proof.Proofs

open Sys2Proof Sys2Proof.Machine Sys2Proof.Laws

/-! ### The power-on state (R241) -/

/-- All detectors power on alike, the standalone ones and those a divider or a converter owns. -/
theorem powerOn_detectors (c : Config.Counts) (p : Config.Params) :
    (State.powerOn c p).eds ++ (State.powerOn c p).divs.map DivState.ed ++ (State.powerOn c p).convs.map ConvState.ed =
      List.replicate (c.ned + c.ndiv + c.nconv) EdState.powerOn := by
  simp only [State.powerOn, List.map_replicate, DivState.powerOn, ConvState.powerOn,
    List.replicate_append_replicate]

/-- CORE.RESET forgets what every unit was: each transition is constant, with the power-on value. -/
theorem blockReset_eq_powerOn (s : State) :
    blockReset s = { State.powerOn s.counts s.params with link := s.link, results := s.results } := by
  have heds : s.eds.map edClear = List.replicate s.eds.length EdState.powerOn :=
    List.map_eq_replicate_iff.mpr fun _ _ => rfl
  have hoscs : s.oscs.map (oscBlockReset s.params) =
      List.replicate s.oscs.length (OscState.powerOn s.params.win) :=
    List.map_eq_replicate_iff.mpr fun o _ => oscBlockReset_eq s.params o
  have hdivs : s.divs.map divBlockReset = List.replicate s.divs.length DivState.powerOn :=
    List.map_eq_replicate_iff.mpr fun d _ => divBlockReset_eq d
  have hconvs : s.convs.map convClear = List.replicate s.convs.length ConvState.powerOn :=
    List.map_eq_replicate_iff.mpr fun c _ => convClear_eq c
  simp only [blockReset, clearLatch, heds, hoscs, hdivs, hconvs, State.powerOn, State.counts]

/-- Settles O14: every unit of a power-on state is its class's power-on value, and CORE.RESET leads to that state. -/
theorem powerOnState : Obligations.PowerOnState := by
  refine ⟨fun c p => ⟨rfl, rfl, powerOn_counts c p, rfl, ?_, ?_, ?_, ?_⟩,
    fun s => congrArg Host.Outcome.next (blockReset_eq_powerOn s)⟩
  · intro e he
    rw [powerOn_detectors] at he
    obtain rfl := List.eq_of_mem_replicate he
    exact ⟨rfl, rfl, rfl⟩
  · intro o ho
    obtain rfl := List.eq_of_mem_replicate ho
    exact ⟨rfl, rfl, rfl, rfl, rfl, rfl⟩
  · intro d hd
    obtain rfl := List.eq_of_mem_replicate hd
    exact ⟨rfl, rfl, rfl, rfl, rfl⟩
  · intro v hv
    obtain rfl := List.eq_of_mem_replicate hv
    rfl

/-! ### The divider's low level, seen by the converter (41_edge_detector.md R100; 43_divider.md R152) -/

/-- A finite word's datum is also read back with its sign changed. -/
theorem ofBits_toBits_negate {w : Word} (h : finiteWord w = true) :
    Fp.ofBits (Fp.ofBits w).negate.toBits = (Fp.ofBits w).negate := by
  cases hw : Fp.ofBits w with
  | nan bits => simp [finiteWord, hw, isfinite] at h
  | inf neg => simp [finiteWord, hw, isfinite] at h
  | fin neg mag =>
    obtain ⟨hrep, hlt⟩ := ofBits_fin w neg mag hw
    exact ofBits_toBits_fin (!neg) mag hrep hlt

theorem legalParams_divLevel {p : Config.Params} (h : legalParams p = true) : finiteWord p.divLevel = true := by
  simp only [legalParams, Bool.and_eq_true, and_assoc] at h
  obtain ⟨-, -, -, -, -, -, -, -, -, -, -, hlevel, -⟩ := h
  exact hlevel

/-- Below TH_LO is low, whatever the level was. -/
theorem classify_of_below {p : Config.Params} {x : Fp} (c : Bool) (hp : legalParams p = true)
    (h : flt x (Fp.ofBits p.thLo) = true) : classify p c x = false := by
  obtain ⟨-, hbelow, -⟩ := classifyHysteresis p c x hp
  exact hbelow h

/-- A detector that was high reports the fall on the first sample below TH_LO. -/
theorem trailing_edFeed_of_below {p : Config.Params} {e : EdState} {x : Fp} (hp : legalParams p = true)
    (harmed : e.armed = true) (hcur : e.cur = true) (h : flt x (Fp.ofBits p.thLo) = true) :
    (edFeed p e x).trailing = true := by
  rw [EdState.trailing, edFeed_prev, edFeed_cur, if_pos harmed, hcur, classify_of_below true hp h]
  rfl

/-! ### One tick of the reference wiring (R246) -/

/-- The host continues from the state a unit command leads to, with the words it returned. -/
theorem thenWith_on {u : UnitClass} {α : Type} (U : Instances u α) {i : Instr} {k : Byte} {s : State} {x : α}
    {f : α → α × List Word} (cont : State → List Word → Answer) (h : (U.get s)[k.toNat]? = some x) :
    thenWith s (U.on i k s f) cont =
      cont ((U.put s ((U.get s).set k.toNat (f x).1)).pushResults (f x).2) (f x).2 := by
  rw [U.on_some i k s f x h]
  simp only [thenWith, pushResults_results, U.results_put, List.drop_left]

/-- What a tick makes of the divider and of the converter it feeds: the divider takes the square `sq` that the
oscillator returned, and the converter takes the level that the divider returned. -/
theorem hostTick_next {s : State} {k j i : Byte} (freqN dt : Word) {o : OscState} {d : DivState} {c : ConvState}
    (ho : s.oscs[k.toNat]? = some o) (hd : s.divs[j.toNat]? = some d) (hc : s.convs[i.toNat]? = some c) :
    let sq := (oscSample s.params o (operandF dt)).2.getD 0 0x00000000#32
    let d' := divFeed s.params d (operandF sq)
    let level := resultF (divLevelOut s.params d'.phase)
    ∃ t, hostTick k j i freqN dt s = .next t ∧ t.divs[j.toNat]? = some d' ∧
      t.convs[i.toNat]? = some (convSample s.params c (operandF level) (operandF freqN) (operandF dt)).1 := by
  obtain ⟨hj, -⟩ := List.getElem?_eq_some_iff.mp hd
  obtain ⟨hi, -⟩ := List.getElem?_eq_some_iff.mp hc
  refine ⟨_, (thenWith_on oscInstances _ ho).trans
    ((thenWith_on divInstances (x := d) _ ?_).trans (convInstances.on_some _ _ _ _ c ?_)), ?_, ?_⟩
  · exact hd
  · exact hc
  · exact List.getElem?_set_self hj
  · exact List.getElem?_set_self hi

/-- Settles O58: when the divider's phase is 0 after the tick, the converter was fed the low level, and its detector
saw it fall. -/
theorem rampRestartsWithDividerToggle : Obligations.RampRestartsWithDividerToggle := by
  intro s k j i freqN dt o d c ho hd hc harmed hcur _ hp hlow
  obtain ⟨t, hnext, hdiv, hconv⟩ := hostTick_next freqN dt ho hd hc
  refine ⟨t, _, _, hnext, hdiv, hconv, fun hphase => ?_⟩
  have hlevel : operandF (resultF (divLevelOut s.params false)) = (Fp.ofBits s.params.divLevel).negate :=
    ofBits_toBits_negate (legalParams_divLevel hp)
  rw [hphase, hlevel]
  have htrailing := trailing_edFeed_of_below hp harmed hcur hlow
  exact ⟨htrailing, trailingEdgeRestartsRamp s.params c _ (operandF freqN) (operandF dt) htrailing⟩

end Sys2Proof.Proofs
